-- ==== Sys2Proof/Word.lean ====
section
/-! DEFINITION. The word types of the block: a byte, a system address of 32 bits (rule R60) and the 32-bit word that the
widest bus access transfers (rule R72). -/

namespace Sys2Proof

/-- One byte of a backing store, or of the encoded event stream. -/
abbrev Byte := BitVec 8

/-- A 16-bit register or bitmap of the PIC and the LCD. -/
abbrev Half := BitVec 16

/-- The value of a bus access, zero-extended to the widest access (four bytes, rule R72). -/
abbrev Word := BitVec 32

/-- A system address: byte addresses 0 to 2^32 - 1 (rules R42 and R60). -/
abbrev Addr := BitVec 32

/-- A Boolean used as a number is 1 for true and 0 for false (rule R11). -/
def bit (b : Bool) : Half := if b then 1#16 else 0#16

end Sys2Proof
end

