-- ==== Sys2Proof/Config.lean ====
section
/-! DEFINITION. What is fixed for the machine: the constants of rule R8, the types of the build-time parameters of rule R9,
and the default values that rules R211, R213 and R214 offer for the open ones (general knowledge, PRESUMED, log entry 5).
The hardware leaves no result of any operation open, so this file holds no free value. -/

namespace Sys2Proof

namespace Config

/-- `LINES_PER_FRAME` (rule R8). -/
def linesPerFrame : Nat := 228

/-- `VISIBLE_LINES` (rule R8): lines 0 to 159; line 160 is the first blanking line. -/
def visibleLines : Nat := 160

/-- The line after which the display-output collaborator is told the frame is over (rule R171 step 3). -/
def lastVisibleLine : Nat := 159

/-- The last line on which the DISPSTAT in-V-blank status bit reads 1 (rules R38 and R101). -/
def lastStatusLine : Nat := 226

/-- `Td`, the length of a line's draw phase in time units (rule R8). -/
def drawTime : Nat := 57221

/-- `Th`, the length of a line's h-blank phase in time units (rule R8). -/
def hblankTime : Nat := 16212

/-- `T0`, the time of reset on the virtual clock (rule R9, decision D16). -/
def resetTime : Nat := 0

/-- `PIC_WINDOW_SIZE` (rule R8). -/
def picWindowSize : Nat := 0x100

/-- `LCD_WINDOW_SIZE` (rule R8). -/
def lcdWindowSize : Nat := 0x60

/-- One past the highest system address: `2^ADDR_BITS` (rules R9 and R60). -/
def addressTop : Nat := 0x100000000

end Config

/-- The label of a memory region (rule R23: a label, no semantics). The eight names are the source's (rule R211); any
other label is a number (log entry 13). -/
inductive RegionName where
  | bios | ewram | iwram | palette | vram | oam | rom | sram
  | other (k : Nat)
  deriving DecidableEq, Repr

/-- The name of a stub window (rule R214); any other name is a number (log entry 13). -/
inductive StubName where
  | sound | dma | timer | serial | input | systemControl
  | other (k : Nat)
  deriving DecidableEq, Repr

/-- One entry `(name, start, end, size, skip, readonly)` of the parameter `REGIONS` (rule R9). `stop` is the spec's `end`. -/
structure RegionSpec where
  name     : RegionName
  start    : Nat
  stop     : Nat
  size     : Nat
  skip     : Nat
  readonly : Bool
  deriving DecidableEq, Repr

/-- One entry `(name, base, size)` of the parameter `STUB_WINDOWS` (rule R9). -/
structure StubWindow where
  name : StubName
  base : Nat
  size : Nat
  deriving DecidableEq, Repr

/-- The operands of `build_system` (rules R95 and R210). An image that is `none` is absent. -/
structure BuildParams where
  regions   : List RegionSpec
  picBase   : Nat
  lcdBase   : Nat
  stubs     : List StubWindow
  vbLine    : Fin 16
  hbLine    : Fin 16
  vmLine    : Fin 16
  biosImage : Option (List Byte)
  romImage  : Option (List Byte)
  deriving DecidableEq, Repr

namespace Config

/-- The default `REGIONS` of rule R211 (PRESUMED there, log entry 5). -/
def defaultRegions : List RegionSpec :=
  [ ⟨.bios,    0x00000000, 0x00004000, 0x4000,    0x4000,    true⟩,
    ⟨.ewram,   0x02000000, 0x03000000, 0x40000,   0x40000,   false⟩,
    ⟨.iwram,   0x03000000, 0x04000000, 0x8000,    0x8000,    false⟩,
    ⟨.palette, 0x05000000, 0x06000000, 0x400,     0x400,     false⟩,
    ⟨.vram,    0x06000000, 0x07000000, 0x18000,   0x20000,   false⟩,
    ⟨.oam,     0x07000000, 0x08000000, 0x400,     0x400,     false⟩,
    ⟨.rom,     0x08000000, 0x0A000000, 0x2000000, 0x2000000, true⟩,
    ⟨.sram,    0x0E000000, 0x10000000, 0x10000,   0x10000,   false⟩ ]

/-- The default `PIC_BASE` (rule R213, PRESUMED there). -/
def defaultPicBase : Nat := 0x04000200

/-- The default `LCD_BASE` (rule R213, PRESUMED there). -/
def defaultLcdBase : Nat := 0x04000000

/-- The default `STUB_WINDOWS` of rule R214 (PRESUMED there). -/
def defaultStubs : List StubWindow :=
  [ ⟨.sound,         0x04000060, 0x50⟩,
    ⟨.dma,           0x040000B0, 0x30⟩,
    ⟨.timer,         0x04000100, 0x10⟩,
    ⟨.serial,        0x04000120, 0x10⟩,
    ⟨.input,         0x04000130, 0x04⟩,
    ⟨.systemControl, 0x04000300, 0x02⟩ ]

/-- `EDGE_FILTER` as the spec decides it (rule R9, decision D14). The other value stays available: the machine keeps the
parameter in its wiring, and no claim rests on this one (log entry 10). -/
def edgeFilter : Bool := false

/-- The build parameters behind `State.reset`: the defaults of rule R9, with two images that are present and empty
(DESIGN CHOICE, log entry 6). -/
def defaultParams : BuildParams where
  regions   := defaultRegions
  picBase   := defaultPicBase
  lcdBase   := defaultLcdBase
  stubs     := defaultStubs
  vbLine    := 0
  hbLine    := 1
  vmLine    := 2
  biosImage := some []
  romImage  := some []

end Config

end Sys2Proof
end

