-- ==== Sys2Proof/Syntax.lean ====
section
/-! DEFINITION. The operations of the block, one constructor for each row of spec/opcode_table.json (rules R90 and R104),
and the bus access by address from which a register or memory operation is chosen (rules R91 and R212). -/

namespace Sys2Proof

/-- The size of a bus access: 1, 2 or 4 bytes, and no other (rule R60). -/
inductive Size where
  | byte | half | word
  deriving DecidableEq, Repr

/-- The size `n` in bytes. -/
def Size.bytes : Size → Nat
  | .byte => 1
  | .half => 2
  | .word => 4

/-- The direction of a bus access (rule R91). -/
inductive Dir where
  | read | write
  deriving DecidableEq, Repr

/-- `BusRead(addr, n)` and `BusWrite(addr, n, v)`, what the bus master performs (rules R10 and R91). -/
inductive BusAccess where
  | read  (addr : Addr) (n : Size)
  | write (addr : Addr) (n : Size) (v : Word)
  deriving DecidableEq, Repr

/-- The operations. A register operation is the row that (direction, window offset) selects; the size is an operand and
takes no part in the selection (rule R92). A write carries the value zero-extended to a word (rule R72). -/
inductive Instr where
  -- Mirror Engine, run time (rules R125 and R126)
  | mrd8  (addr : Addr)
  | mrd16 (addr : Addr)
  | mrd32 (addr : Addr)
  | mwr8  (addr : Addr) (v : Byte)
  | mwr16 (addr : Addr) (v : Half)
  | mwr32 (addr : Addr) (v : Word)
  -- PIC window (rules R145 to R155)
  | picRdIe      (n : Size)
  | picRdIf      (n : Size)
  | picRdWaitcnt (n : Size)
  | picRdIme     (n : Size)
  | picRdUnknown (off : BitVec 8) (n : Size)
  | picWrIe      (n : Size) (v : Word)
  | picWrIf      (n : Size) (v : Word)
  | picWrWaitcnt (n : Size) (v : Word)
  | picWrIme     (n : Size) (v : Word)
  | picWrUnknown (off : BitVec 8) (n : Size) (v : Word)
  -- LCD window (rules R180 to R188)
  | lcdRdDispcnt  (n : Size)
  | lcdRdDispstat (n : Size)
  | lcdRdVcount   (n : Size)
  | lcdRdUnknown  (off : BitVec 7) (n : Size)
  | lcdWrDispcnt  (n : Size) (v : Word)
  | lcdWrDispstat (n : Size) (v : Word)
  | lcdWrLyc      (n : Size) (v : Word)
  | lcdWrVcount   (n : Size) (v : Word)
  | lcdWrUnknown  (off : BitVec 7) (n : Size) (v : Word)
  -- Stub windows (rule R214)
  | stubRd (name : StubName) (off : Nat) (n : Size)
  | stubWr (name : StubName) (off : Nat) (n : Size) (v : Word)
  -- Line and timer events (rules R141 and R171)
  | picLine (i : Fin 16) (b : Bool)
  | lcdTick
  -- Build-time operations (rules R120, R123, R124 and R210)
  | sysCreateRegion (name : RegionName) (start stop size skip : Nat)
  | sysLoadImage    (name : RegionName) (image : Option (List Byte))
  | sysMarkReadonly (name : RegionName)
  | sysBuild        (p : BuildParams)
  deriving DecidableEq, Repr

end Sys2Proof
end

