-- ==== Sys2Proof/WellFormed.lean ====
section
/-! DEFINITION. Which terms of Instr are operations of the block: the write value fits the access (rule R91), an UNKNOWN
row carries an offset that no exact row lists (rules R92 and R105), and every operand fits the field the model's event
layout gives it (log entry 1). An operand the spec refuses when the operation RUNS (an ill-formed region, an access that is
not admitted) is well formed here: the meaning refuses or faults it. -/

namespace Sys2Proof

/-- A write value is an unsigned number below `2^(8n)` (rule R91). -/
def Size.fits (n : Size) (v : Word) : Bool := decide (v.toNat < 2 ^ (8 * n.bytes))

/-- The PIC window offsets that select a register (rule R105): IE, IF, WAITCNT and IME. -/
def picListed (off : BitVec 8) : Bool :=
  off == 0x00#8 || off == 0x02#8 || off == 0x04#8 || off == 0x08#8

/-- The LCD window offsets that select a register for reads (rule R105). -/
def lcdReadListed (off : BitVec 7) : Bool :=
  off == 0x00#7 || off == 0x04#7 || off == 0x06#7

/-- The LCD window offsets that select a register for writes (rule R105): the read ones and LYC at 0x05. -/
def lcdWriteListed (off : BitVec 7) : Bool :=
  off == 0x00#7 || off == 0x04#7 || off == 0x05#7 || off == 0x06#7

/-- The offset lies in the LCD window. -/
def lcdInWindow (off : BitVec 7) : Bool := decide (off.toNat < Config.lcdWindowSize)

/-- The number is below `2^32` (a four-byte operand field of the event layout). -/
def fits32 (k : Nat) : Bool := decide (k < 2 ^ 32)

/-- The number is below `2^64` (an eight-byte operand field of the event layout). -/
def fits64 (k : Nat) : Bool := decide (k < 2 ^ 64)

/-- The label's number fits its operand field. -/
def RegionName.fits : RegionName → Bool
  | .other k => fits32 (k + 8)
  | _ => true

/-- The label's number fits its operand field. -/
def StubName.fits : StubName → Bool
  | .other k => fits32 (k + 6)
  | _ => true

/-- An image's length fits its operand field. -/
def imageFits : Option (List Byte) → Bool
  | none => true
  | some bytes => fits32 bytes.length

/-- Every operand of the region entry fits its field. -/
def RegionSpec.fits (r : RegionSpec) : Bool :=
  r.name.fits && fits64 r.start && fits64 r.stop && fits64 r.size && fits64 r.skip

/-- Every operand of the stub window fits its field. -/
def StubWindow.fits (w : StubWindow) : Bool :=
  w.name.fits && fits64 w.base && fits64 w.size

/-- Every operand of the build fits its field. -/
def BuildParams.fits (p : BuildParams) : Bool :=
  fits32 p.regions.length && p.regions.all RegionSpec.fits &&
  fits64 p.picBase && fits64 p.lcdBase &&
  fits32 p.stubs.length && p.stubs.all StubWindow.fits &&
  imageFits p.biosImage && imageFits p.romImage

/-- The term is an operation of the block. -/
def Instr.wellFormed : Instr → Bool
  | .mrd8 _ => true
  | .mrd16 _ => true
  | .mrd32 _ => true
  | .mwr8 _ _ => true
  | .mwr16 _ _ => true
  | .mwr32 _ _ => true
  | .picRdIe _ => true
  | .picRdIf _ => true
  | .picRdWaitcnt _ => true
  | .picRdIme _ => true
  | .picRdUnknown off _ => !picListed off
  | .picWrIe n v => n.fits v
  | .picWrIf n v => n.fits v
  | .picWrWaitcnt n v => n.fits v
  | .picWrIme n v => n.fits v
  | .picWrUnknown off n v => !picListed off && n.fits v
  | .lcdRdDispcnt _ => true
  | .lcdRdDispstat _ => true
  | .lcdRdVcount _ => true
  | .lcdRdUnknown off _ => lcdInWindow off && !lcdReadListed off
  | .lcdWrDispcnt n v => n.fits v
  | .lcdWrDispstat n v => n.fits v
  | .lcdWrLyc n v => n.fits v
  | .lcdWrVcount n v => n.fits v
  | .lcdWrUnknown off n v => lcdInWindow off && !lcdWriteListed off && n.fits v
  | .stubRd name off _ => name.fits && fits32 off
  | .stubWr name off n v => name.fits && fits32 off && n.fits v
  | .picLine _ _ => true
  | .lcdTick => true
  | .sysCreateRegion name start stop size skip =>
      name.fits && fits64 start && fits64 stop && fits64 size && fits64 skip
  | .sysLoadImage name image => name.fits && imageFits image
  | .sysMarkReadonly name => name.fits
  | .sysBuild p => p.fits

/-- A bus access whose write value fits its size (rule R91). -/
def BusAccess.wellFormed : BusAccess → Bool
  | .read _ _ => true
  | .write _ n v => n.fits v

end Sys2Proof
end

