-- ==== Sys2Proof/Decode.lean ====
section
/-! DEFINITION. From bytes to an operation and back. The block fetches no instruction words: an operation's ENCODING is the
tuple (format, select key, n, value) of rules R92, R93 and R110. This file lays that tuple out as bytes, which is the
model's own choice (DESIGN CHOICE, log entry 1): a header of two bytes, little-endian, whose bits 8:0 are the select key
numbered as spec/opcode_table.json numbers it, bits 10:9 the size code (0, 1, 2 for n = 1, 2, 4), bit 11 zero and bits
15:12 the format; then the operands, each little-endian. Everything the layout does not list is rejected by name. -/

namespace Sys2Proof

/-! ### Formats, sizes, rows -/

/-- The target and shape of an operation: the `format` column of spec/opcode_table.json (rule R90), and the bus access by
address, whose target the address decode chooses (rule R91). -/
inductive Format where
  | mem | pic | lcd | stub | line | tick | build | access
  deriving DecidableEq, Repr

/-- The number that stands in header bits 15:12. -/
def Format.code : Format → Nat
  | .mem => 0
  | .pic => 1
  | .lcd => 2
  | .stub => 3
  | .line => 4
  | .tick => 5
  | .build => 6
  | .access => 7

/-- How many bits the select key of a format has (rules R92 and R93). -/
def Format.keyBits : Format → Nat
  | .mem => 3
  | .pic => 9
  | .lcd => 8
  | .stub => 1
  | .line => 5
  | .tick => 0
  | .build => 2
  | .access => 1

/-- A reason why bytes are no operation. -/
inductive DecodeError where
  | truncated        -- the bytes end inside the operation
  | reservedFormat   -- header bits 15:12 name no format
  | reservedBit      -- header bit 11 is not zero
  | reservedSize     -- a size other than 1, 2 or 4 bytes (rule R108), or a size where the format has none
  | reservedKey      -- a select key that the format does not have
  | reservedOperand  -- an operand outside its type (a PIC line above 15, a flag byte other than 0 and 1)
  deriving DecidableEq, Repr

/-- What the decoder reads: an operation by its select key, or a bus access by its address. -/
inductive Fetched where
  | op     (i : Instr)
  | access (a : BusAccess)
  deriving DecidableEq, Repr

/-- The size code of the header. -/
def Size.code : Size → Nat
  | .byte => 0
  | .half => 1
  | .word => 2

/-- The size a code names; there is no fourth size (rules R60 and R108). -/
def readSize : Nat → Except DecodeError Size
  | 0 => .ok .byte
  | 1 => .ok .half
  | 2 => .ok .word
  | _ => .error .reservedSize

/-! ### Which register an offset selects (rules R92 and R105) -/

/-- The read of the PIC window at an exact offset; every unlisted offset is the default row. -/
def picReadAt (off : BitVec 8) (n : Size) : Instr :=
  if off = 0x00#8 then .picRdIe n
  else if off = 0x02#8 then .picRdIf n
  else if off = 0x04#8 then .picRdWaitcnt n
  else if off = 0x08#8 then .picRdIme n
  else .picRdUnknown off n

/-- The write of the PIC window at an exact offset. -/
def picWriteAt (off : BitVec 8) (n : Size) (v : Word) : Instr :=
  if off = 0x00#8 then .picWrIe n v
  else if off = 0x02#8 then .picWrIf n v
  else if off = 0x04#8 then .picWrWaitcnt n v
  else if off = 0x08#8 then .picWrIme n v
  else .picWrUnknown off n v

/-- The read of the LCD window at an exact offset; 0x05 is unlisted for reads. -/
def lcdReadAt (off : BitVec 7) (n : Size) : Instr :=
  if off = 0x00#7 then .lcdRdDispcnt n
  else if off = 0x04#7 then .lcdRdDispstat n
  else if off = 0x06#7 then .lcdRdVcount n
  else .lcdRdUnknown off n

/-- The write of the LCD window at an exact offset; 0x05 is LYC for writes. -/
def lcdWriteAt (off : BitVec 7) (n : Size) (v : Word) : Instr :=
  if off = 0x00#7 then .lcdWrDispcnt n v
  else if off = 0x04#7 then .lcdWrDispstat n v
  else if off = 0x05#7 then .lcdWrLyc n v
  else if off = 0x06#7 then .lcdWrVcount n v
  else .lcdWrUnknown off n v

/-! ### Reading operands -/

/-- A little-endian number of `k` bytes. -/
def readNat : Nat → List Byte → Except DecodeError (Nat × List Byte)
  | 0, bs => .ok (0, bs)
  | _ + 1, [] => .error .truncated
  | k + 1, b :: bs => do
      let (v, rest) ← readNat k bs
      .ok (b.toNat + 256 * v, rest)

/-- A write value of the access's size, zero-extended to a word (rule R72). -/
def readValue (n : Size) (bs : List Byte) : Except DecodeError (Word × List Byte) := do
  let (v, rest) ← readNat n.bytes bs
  .ok (BitVec.ofNat 32 v, rest)

/-- A flag byte: 0 or 1. -/
def readFlag (bs : List Byte) : Except DecodeError (Bool × List Byte) := do
  let (v, rest) ← readNat 1 bs
  match v with
  | 0 => .ok (false, rest)
  | 1 => .ok (true, rest)
  | _ => .error .reservedOperand

/-- A PIC line index, 0 to 15 (rule R93). -/
def readLine (bs : List Byte) : Except DecodeError (Fin 16 × List Byte) := do
  let (v, rest) ← readNat 1 bs
  if h : v < 16 then .ok (⟨v, h⟩, rest) else .error .reservedOperand

/-- The region label a number stands for. -/
def RegionName.ofCode : Nat → RegionName
  | 0 => .bios
  | 1 => .ewram
  | 2 => .iwram
  | 3 => .palette
  | 4 => .vram
  | 5 => .oam
  | 6 => .rom
  | 7 => .sram
  | k + 8 => .other k

/-- The number that stands for a region label. -/
def RegionName.code : RegionName → Nat
  | .bios => 0
  | .ewram => 1
  | .iwram => 2
  | .palette => 3
  | .vram => 4
  | .oam => 5
  | .rom => 6
  | .sram => 7
  | .other k => k + 8

/-- The stub name a number stands for. -/
def StubName.ofCode : Nat → StubName
  | 0 => .sound
  | 1 => .dma
  | 2 => .timer
  | 3 => .serial
  | 4 => .input
  | 5 => .systemControl
  | k + 6 => .other k

/-- The number that stands for a stub name. -/
def StubName.code : StubName → Nat
  | .sound => 0
  | .dma => 1
  | .timer => 2
  | .serial => 3
  | .input => 4
  | .systemControl => 5
  | .other k => k + 6

/-- A region label, four bytes. -/
def readRegionName (bs : List Byte) : Except DecodeError (RegionName × List Byte) := do
  let (v, rest) ← readNat 4 bs
  .ok (RegionName.ofCode v, rest)

/-- A stub name, four bytes. -/
def readStubName (bs : List Byte) : Except DecodeError (StubName × List Byte) := do
  let (v, rest) ← readNat 4 bs
  .ok (StubName.ofCode v, rest)

/-- An image: 0, a length of four bytes and the bytes; or 1 where the image is absent. -/
def readImage (bs : List Byte) : Except DecodeError (Option (List Byte) × List Byte) := do
  let (missing, rest) ← readFlag bs
  if missing then .ok (none, rest)
  else
    let (len, rest) ← readNat 4 rest
    if len ≤ rest.length then .ok (some (rest.take len), rest.drop len) else .error .truncated

/-- One entry of `REGIONS`. -/
def readRegionSpec (bs : List Byte) : Except DecodeError (RegionSpec × List Byte) := do
  let (name, rest) ← readRegionName bs
  let (start, rest) ← readNat 8 rest
  let (stop, rest) ← readNat 8 rest
  let (size, rest) ← readNat 8 rest
  let (skip, rest) ← readNat 8 rest
  let (readonly, rest) ← readFlag rest
  .ok (⟨name, start, stop, size, skip, readonly⟩, rest)

/-- One entry of `STUB_WINDOWS`. -/
def readStubWindow (bs : List Byte) : Except DecodeError (StubWindow × List Byte) := do
  let (name, rest) ← readStubName bs
  let (base, rest) ← readNat 8 rest
  let (size, rest) ← readNat 8 rest
  .ok (⟨name, base, size⟩, rest)

/-- `k` entries of a list, each by the same reader. -/
def readMany {α : Type} (read : List Byte → Except DecodeError (α × List Byte)) : Nat → List Byte → Except DecodeError (List α × List Byte)
  | 0, bs => .ok ([], bs)
  | k + 1, bs => do
      let (x, rest) ← read bs
      let (xs, rest) ← readMany read k rest
      .ok (x :: xs, rest)

/-- The operands of `build_system`: 0 for the default parameters of `Config.defaultParams`, or 1 and every parameter. -/
def readBuildParams (bs : List Byte) : Except DecodeError (BuildParams × List Byte) := do
  let (given, rest) ← readFlag bs
  if given then
    let (nRegions, rest) ← readNat 4 rest
    let (regions, rest) ← readMany readRegionSpec nRegions rest
    let (picBase, rest) ← readNat 8 rest
    let (lcdBase, rest) ← readNat 8 rest
    let (nStubs, rest) ← readNat 4 rest
    let (stubs, rest) ← readMany readStubWindow nStubs rest
    let (vbLine, rest) ← readLine rest
    let (hbLine, rest) ← readLine rest
    let (vmLine, rest) ← readLine rest
    let (biosImage, rest) ← readImage rest
    let (romImage, rest) ← readImage rest
    .ok (⟨regions, picBase, lcdBase, stubs, vbLine, hbLine, vmLine, biosImage, romImage⟩, rest)
  else .ok (Config.defaultParams, rest)

/-! ### The decoder -/

/-- Format BUS/MEM: key `(w << 2) | c` (rule R92), then the address, then the value of a write. -/
def decodeMem (key : Nat) (bs : List Byte) : Except DecodeError (Fetched × List Byte) := do
  let (a, rest) ← readNat 4 bs
  let addr := BitVec.ofNat 32 a
  match key with
  | 0 => .ok (.op (.mrd8 addr), rest)
  | 1 => .ok (.op (.mrd16 addr), rest)
  | 2 => .ok (.op (.mrd32 addr), rest)
  | 4 => do
      let (v, rest) ← readNat 1 rest
      .ok (.op (.mwr8 addr (BitVec.ofNat 8 v)), rest)
  | 5 => do
      let (v, rest) ← readNat 2 rest
      .ok (.op (.mwr16 addr (BitVec.ofNat 16 v)), rest)
  | 6 => do
      let (v, rest) ← readNat 4 rest
      .ok (.op (.mwr32 addr (BitVec.ofNat 32 v)), rest)
  | _ => .error .reservedKey

/-- Format BUS/PIC: key `(w << 8) | off` (rule R92), then the value of a write. -/
def decodePic (key : Nat) (n : Size) (bs : List Byte) : Except DecodeError (Fetched × List Byte) :=
  if key < 256 then .ok (.op (picReadAt (BitVec.ofNat 8 key) n), bs)
  else do
    let (v, rest) ← readValue n bs
    .ok (.op (picWriteAt (BitVec.ofNat 8 key) n v), rest)

/-- Format BUS/LCD: key `(w << 7) | off` with `off` in [0x00, 0x5F] (rule R92), then the value of a write. -/
def decodeLcd (key : Nat) (n : Size) (bs : List Byte) : Except DecodeError (Fetched × List Byte) :=
  if 256 ≤ key ∨ Config.lcdWindowSize ≤ key % 128 then .error .reservedKey
  else if key < 128 then .ok (.op (lcdReadAt (BitVec.ofNat 7 key) n), bs)
  else do
    let (v, rest) ← readValue n bs
    .ok (.op (lcdWriteAt (BitVec.ofNat 7 key) n v), rest)

/-- Format BUS/STUB: key `w` (rule R92), then the window's name and the offset (rule R110), then the value of a write. -/
def decodeStub (key : Nat) (n : Size) (bs : List Byte) : Except DecodeError (Fetched × List Byte) := do
  let (name, rest) ← readStubName bs
  let (off, rest) ← readNat 4 rest
  match key with
  | 0 => .ok (.op (.stubRd name off n), rest)
  | 1 => do
      let (v, rest) ← readValue n rest
      .ok (.op (.stubWr name off n v), rest)
  | _ => .error .reservedKey

/-- Format LINE: key `(i << 1) | b` (rule R93). -/
def decodeLine (key : Nat) (bs : List Byte) : Except DecodeError (Fetched × List Byte) :=
  if h : key < 32 then .ok (.op (.picLine ⟨key / 2, by omega⟩ (key % 2 == 1)), bs) else .error .reservedKey

/-- Format TICK: no fields (rule R94). -/
def decodeTick (key : Nat) (bs : List Byte) : Except DecodeError (Fetched × List Byte) :=
  if key = 0 then .ok (.op .lcdTick, bs) else .error .reservedKey

/-- Format BUILD: the ordinal of the operation (rule R92), then its operands (rule R95). -/
def decodeBuild (key : Nat) (bs : List Byte) : Except DecodeError (Fetched × List Byte) :=
  match key with
  | 0 => do
      let (name, rest) ← readRegionName bs
      let (start, rest) ← readNat 8 rest
      let (stop, rest) ← readNat 8 rest
      let (size, rest) ← readNat 8 rest
      let (skip, rest) ← readNat 8 rest
      .ok (.op (.sysCreateRegion name start stop size skip), rest)
  | 1 => do
      let (name, rest) ← readRegionName bs
      let (image, rest) ← readImage rest
      .ok (.op (.sysLoadImage name image), rest)
  | 2 => do
      let (name, rest) ← readRegionName bs
      .ok (.op (.sysMarkReadonly name), rest)
  | 3 => do
      let (p, rest) ← readBuildParams bs
      .ok (.op (.sysBuild p), rest)
  | _ => .error .reservedKey

/-- A bus access by address: key `w`, then the address, then the value of a write (rule R91). -/
def decodeAccess (key : Nat) (n : Size) (bs : List Byte) : Except DecodeError (Fetched × List Byte) := do
  let (a, rest) ← readNat 4 bs
  match key with
  | 0 => .ok (.access (.read (BitVec.ofNat 32 a) n), rest)
  | 1 => do
      let (v, rest) ← readValue n rest
      .ok (.access (.write (BitVec.ofNat 32 a) n v), rest)
  | _ => .error .reservedKey

/-- A format whose operations carry no size of their own has size code 0. -/
def noSize (code : Nat) : Except DecodeError Unit :=
  if code = 0 then .ok () else .error .reservedSize

/-- The operation that stands first in the bytes, and the bytes after it; or the reason there is none. -/
def decode (bs : List Byte) : Except DecodeError (Fetched × List Byte) := do
  let (h, rest) ← readNat 2 bs
  let key := h % 512
  let code := h / 512 % 4
  if h / 2048 % 2 ≠ 0 then .error .reservedBit
  else
    match h / 4096 with
    | 0 => do
        let _ ← noSize code
        decodeMem key rest
    | 1 => do
        let n ← readSize code
        decodePic key n rest
    | 2 => do
        let n ← readSize code
        decodeLcd key n rest
    | 3 => do
        let n ← readSize code
        decodeStub key n rest
    | 4 => do
        let _ ← noSize code
        decodeLine key rest
    | 5 => do
        let _ ← noSize code
        decodeTick key rest
    | 6 => do
        let _ ← noSize code
        decodeBuild key rest
    | 7 => do
        let n ← readSize code
        decodeAccess key n rest
    | _ => .error .reservedFormat

/-! ### The encoder -/

/-- The little-endian bytes of a number, `k` of them. -/
def writeNat : Nat → Nat → List Byte
  | 0, _ => []
  | k + 1, v => BitVec.ofNat 8 v :: writeNat k (v / 256)

/-- The two header bytes. -/
def header (f : Format) (key code : Nat) : List Byte :=
  writeNat 2 (key + 512 * code + 4096 * f.code)

/-- A write value, as many bytes as the access has. -/
def writeValue (n : Size) (v : Word) : List Byte := writeNat n.bytes v.toNat

/-- A flag byte. -/
def writeFlag (b : Bool) : List Byte := writeNat 1 (if b then 1 else 0)

/-- An image. -/
def writeImage : Option (List Byte) → List Byte
  | none => writeFlag true
  | some bytes => writeFlag false ++ writeNat 4 bytes.length ++ bytes

/-- One entry of `REGIONS`. -/
def writeRegionSpec (r : RegionSpec) : List Byte :=
  writeNat 4 r.name.code ++ writeNat 8 r.start ++ writeNat 8 r.stop ++ writeNat 8 r.size ++ writeNat 8 r.skip ++
  writeFlag r.readonly

/-- One entry of `STUB_WINDOWS`. -/
def writeStubWindow (w : StubWindow) : List Byte :=
  writeNat 4 w.name.code ++ writeNat 8 w.base ++ writeNat 8 w.size

/-- The entries of a list, one after the other. -/
def writeMany {α : Type} (write : α → List Byte) : List α → List Byte
  | [] => []
  | x :: xs => write x ++ writeMany write xs

/-- The operands of `build_system`. -/
def writeBuildParams (p : BuildParams) : List Byte :=
  if p = Config.defaultParams then writeFlag false
  else
    writeFlag true ++
    writeNat 4 p.regions.length ++ writeMany writeRegionSpec p.regions ++
    writeNat 8 p.picBase ++ writeNat 8 p.lcdBase ++
    writeNat 4 p.stubs.length ++ writeMany writeStubWindow p.stubs ++
    writeNat 1 p.vbLine.val ++ writeNat 1 p.hbLine.val ++ writeNat 1 p.vmLine.val ++
    writeImage p.biosImage ++ writeImage p.romImage

/-- The bytes of an operation. -/
def encode : Instr → List Byte
  | .mrd8 addr => header .mem 0x0 0 ++ writeNat 4 addr.toNat
  | .mrd16 addr => header .mem 0x1 0 ++ writeNat 4 addr.toNat
  | .mrd32 addr => header .mem 0x2 0 ++ writeNat 4 addr.toNat
  | .mwr8 addr v => header .mem 0x4 0 ++ writeNat 4 addr.toNat ++ writeNat 1 v.toNat
  | .mwr16 addr v => header .mem 0x5 0 ++ writeNat 4 addr.toNat ++ writeNat 2 v.toNat
  | .mwr32 addr v => header .mem 0x6 0 ++ writeNat 4 addr.toNat ++ writeNat 4 v.toNat
  | .picRdIe n => header .pic 0x000 n.code
  | .picRdIf n => header .pic 0x002 n.code
  | .picRdWaitcnt n => header .pic 0x004 n.code
  | .picRdIme n => header .pic 0x008 n.code
  | .picRdUnknown off n => header .pic off.toNat n.code
  | .picWrIe n v => header .pic 0x100 n.code ++ writeValue n v
  | .picWrIf n v => header .pic 0x102 n.code ++ writeValue n v
  | .picWrWaitcnt n v => header .pic 0x104 n.code ++ writeValue n v
  | .picWrIme n v => header .pic 0x108 n.code ++ writeValue n v
  | .picWrUnknown off n v => header .pic (0x100 + off.toNat) n.code ++ writeValue n v
  | .lcdRdDispcnt n => header .lcd 0x00 n.code
  | .lcdRdDispstat n => header .lcd 0x04 n.code
  | .lcdRdVcount n => header .lcd 0x06 n.code
  | .lcdRdUnknown off n => header .lcd off.toNat n.code
  | .lcdWrDispcnt n v => header .lcd 0x80 n.code ++ writeValue n v
  | .lcdWrDispstat n v => header .lcd 0x84 n.code ++ writeValue n v
  | .lcdWrLyc n v => header .lcd 0x85 n.code ++ writeValue n v
  | .lcdWrVcount n v => header .lcd 0x86 n.code ++ writeValue n v
  | .lcdWrUnknown off n v => header .lcd (0x80 + off.toNat) n.code ++ writeValue n v
  | .stubRd name off n => header .stub 0x0 n.code ++ writeNat 4 name.code ++ writeNat 4 off
  | .stubWr name off n v => header .stub 0x1 n.code ++ writeNat 4 name.code ++ writeNat 4 off ++ writeValue n v
  | .picLine i b => header .line (2 * i.val + if b then 1 else 0) 0
  | .lcdTick => header .tick 0 0
  | .sysCreateRegion name start stop size skip =>
      header .build 0 0 ++ writeNat 4 name.code ++ writeNat 8 start ++ writeNat 8 stop ++ writeNat 8 size ++
      writeNat 8 skip
  | .sysLoadImage name image => header .build 1 0 ++ writeNat 4 name.code ++ writeImage image
  | .sysMarkReadonly name => header .build 2 0 ++ writeNat 4 name.code
  | .sysBuild p => header .build 3 0 ++ writeBuildParams p

/-- The bytes of a bus access by address. -/
def encodeAccess : BusAccess → List Byte
  | .read addr n => header .access 0 n.code ++ writeNat 4 addr.toNat
  | .write addr n v => header .access 1 n.code ++ writeNat 4 addr.toNat ++ writeValue n v

/-! ### The opcode table, and the word of one of its rows -/

/-- One row of spec/opcode_table.json: its format, its match and its mask over the format's select key. -/
structure TableRow where
  mnemonic : String
  format   : Format
  value    : Nat
  mask     : Nat
  deriving DecidableEq, Repr

/-- The rows on memory (rule R92). -/
def memRows : List TableRow :=
  [ ⟨"MRD8", .mem, 0x0, 0x7⟩, ⟨"MRD16", .mem, 0x1, 0x7⟩, ⟨"MRD32", .mem, 0x2, 0x7⟩,
    ⟨"MWR8", .mem, 0x4, 0x7⟩, ⟨"MWR16", .mem, 0x5, 0x7⟩, ⟨"MWR32", .mem, 0x6, 0x7⟩ ]

/-- The rows on the PIC window (rule R92). -/
def picRows : List TableRow :=
  [ ⟨"PIC.RD.IE", .pic, 0x000, 0x1FF⟩, ⟨"PIC.RD.IF", .pic, 0x002, 0x1FF⟩,
    ⟨"PIC.RD.WAITCNT", .pic, 0x004, 0x1FF⟩, ⟨"PIC.RD.IME", .pic, 0x008, 0x1FF⟩,
    ⟨"PIC.RD.UNKNOWN", .pic, 0x000, 0x100⟩,
    ⟨"PIC.WR.IE", .pic, 0x100, 0x1FF⟩, ⟨"PIC.WR.IF", .pic, 0x102, 0x1FF⟩,
    ⟨"PIC.WR.WAITCNT", .pic, 0x104, 0x1FF⟩, ⟨"PIC.WR.IME", .pic, 0x108, 0x1FF⟩,
    ⟨"PIC.WR.UNKNOWN", .pic, 0x100, 0x100⟩ ]

/-- The rows on the LCD window (rule R92). -/
def lcdRows : List TableRow :=
  [ ⟨"LCD.RD.DISPCNT", .lcd, 0x00, 0xFF⟩, ⟨"LCD.RD.DISPSTAT", .lcd, 0x04, 0xFF⟩,
    ⟨"LCD.RD.VCOUNT", .lcd, 0x06, 0xFF⟩, ⟨"LCD.RD.UNKNOWN", .lcd, 0x00, 0x80⟩,
    ⟨"LCD.WR.DISPCNT", .lcd, 0x80, 0xFF⟩, ⟨"LCD.WR.DISPSTAT", .lcd, 0x84, 0xFF⟩,
    ⟨"LCD.WR.LYC", .lcd, 0x85, 0xFF⟩, ⟨"LCD.WR.VCOUNT", .lcd, 0x86, 0xFF⟩,
    ⟨"LCD.WR.UNKNOWN", .lcd, 0x80, 0x80⟩ ]

/-- The rows on stub windows, the two events and the build-time operations (rules R92 to R95). -/
def otherRows : List TableRow :=
  [ ⟨"STUB.RD", .stub, 0x0, 0x1⟩, ⟨"STUB.WR", .stub, 0x1, 0x1⟩,
    ⟨"PIC.LINE", .line, 0x00, 0x00⟩, ⟨"LCD.TICK", .tick, 0x0, 0x0⟩,
    ⟨"SYS.CREATE_REGION", .build, 0x0, 0x3⟩, ⟨"SYS.LOAD_IMAGE", .build, 0x1, 0x3⟩,
    ⟨"SYS.MARK_READONLY", .build, 0x2, 0x3⟩, ⟨"SYS.BUILD", .build, 0x3, 0x3⟩ ]

/-- spec/opcode_table.json, in its order. -/
def opcodeTable : List TableRow := memRows ++ picRows ++ lcdRows ++ otherRows

/-- The row's select key, in whole bytes. -/
def TableRow.nbits (r : TableRow) : Nat := (r.format.keyBits + 7) / 8 * 8

/-- A row of `nbits` bits matches the word `w`. -/
def TableRow.admits (r : TableRow) (nbits w : Nat) : Bool :=
  r.nbits == nbits && decide (w < 2 ^ r.format.keyBits) && (w &&& r.mask) == r.value

/-- A row whose mask is all ones of its key selects one operation (rule R92). -/
def TableRow.exact (r : TableRow) : Bool := r.mask + 1 == 2 ^ r.format.keyBits

/-- The format of a table word. A row's bits are its select key alone, and keys of different formats coincide (the key 0x0
of one byte is MRD8, LCD.RD.DISPCNT, STUB.RD and SYS.CREATE_REGION), so a word with no format beside it is read as rule
R92 reads a key: an exact row before a default row, and the first such row in the table's order (log entry 2). -/
def tableFormat (nbits w : Nat) : Option Format :=
  match opcodeTable.find? fun r => r.exact && r.admits nbits w with
  | some r => some r.format
  | none => (opcodeTable.find? fun r => r.admits nbits w).map TableRow.format

/-- As many zero bytes as the longest fixed-shape operation may need for its operands. -/
def zeroOperands : List Byte := List.replicate 64 0#8

/-- The bytes of a table word: its header with size code 0, then operand bytes of zeros. -/
def tableBytes (nbits w : Nat) : Option (List Byte) :=
  (tableFormat nbits w).map fun f => header f w 0 ++ zeroOperands

/-- The instruction the decoder reads from a table word whose operand bits are zeros. -/
def decodeTableWord (nbits w : Nat) : Option Instr :=
  match tableBytes nbits w with
  | none => none
  | some bs =>
    match decode bs with
    | .ok (.op i, _) => some i
    | _ => none

/-- Exactly the bytes of a table word that its operation takes. -/
def tableOperation (nbits w : Nat) : List Byte :=
  match tableBytes nbits w with
  | none => []
  | some bs =>
    match decode bs with
    | .ok (_, rest) => bs.take (bs.length - rest.length)
    | .error _ => bs

end Sys2Proof
end

