-- ==== Sys2Proof/Machine/State.lean ====
section
/-! DEFINITION. The state of the block as plain data (10_state.md), the reasons a step can stop, and the state after reset
(rule R260). Beside the record `(regions, pic, lcd)` that the spec calls the whole state, it holds the build-time
parameters (rule R9), the block's outputs toward its collaborators (rules R15 and R16) and the events that are still to
come (rule R10). -/

namespace Sys2Proof.Machine

/-- A backing store of a region: the bytes that differ from 0, by backing offset, offsets strictly rising. An unlisted
offset reads 0, because the store is zero-initialized (rule R25). -/
abbrev Memory := List Host.Cell

/-- A MirroredRegion record (rule R23). `stop` is the spec's `end`. -/
structure Region where
  name     : RegionName
  start    : Nat
  stop     : Nat
  size     : Nat
  skip     : Nat
  readonly : Bool
  backing  : Memory
  deriving DecidableEq, Repr

/-- A region with its backing store all zeros (rule R25). -/
def Region.blank (r : RegionSpec) (readonly : Bool) : Region :=
  { name := r.name, start := r.start, stop := r.stop, size := r.size, skip := r.skip, readonly := readonly, backing := [] }

/-- The build-time parameters that the running block consults: where the windows stand and which PIC inputs the LCD drives
(rule R9). No operation but `build_system` writes them; `edgeFilter` is written by none. -/
structure Wiring where
  picBase    : Nat
  lcdBase    : Nat
  stubs      : List StubWindow
  vbLine     : Fin 16
  hbLine     : Fin 16
  vmLine     : Fin 16
  edgeFilter : Bool
  deriving DecidableEq, Repr

/-- The interrupt controller (rules R26 to R30). `irqOut` is the published value of the aggregated output line. -/
structure Pic where
  master     : Bool
  level      : Half
  irqEnabled : Half
  waitcnt    : BitVec 15
  irqOut     : Bool
  deriving DecidableEq, Repr

/-- The PIC after reset (rules R26 to R30 and R260). -/
def Pic.reset : Pic :=
  { master := false, level := 0#16, irqEnabled := 0#16, waitcnt := 0#15, irqOut := false }

/-- The display controller (rules R31 to R37). -/
structure Lcd where
  ly          : Nat
  lyc         : BitVec 8
  hblank      : Bool
  irqVbEn     : Bool
  irqHbEn     : Bool
  irqVmEn     : Bool
  bgMode      : BitVec 3
  bgm45Frame  : Bool
  hbIntvlFree : Bool
  objVramMap2d : Bool
  forcedBlank : Bool
  displayBg0  : Bool
  displayBg1  : Bool
  displayBg2  : Bool
  displayBg3  : Bool
  displayObj  : Bool
  displayWnd0 : Bool
  displayWnd1 : Bool
  displayOwnd : Bool
  lineVb      : Bool
  lineHb      : Bool
  lineVm      : Bool
  deadline    : Nat
  deriving DecidableEq, Repr

/-- The LCD after reset (rules R31 to R37 and R260): every field 0 or false, the first firing due at `T0 + Td`. -/
def Lcd.reset : Lcd :=
  { ly := 0, lyc := 0#8, hblank := false, irqVbEn := false, irqHbEn := false, irqVmEn := false,
    bgMode := 0#3, bgm45Frame := false, hbIntvlFree := false, objVramMap2d := false, forcedBlank := false,
    displayBg0 := false, displayBg1 := false, displayBg2 := false, displayBg3 := false, displayObj := false,
    displayWnd0 := false, displayWnd1 := false, displayOwnd := false,
    lineVb := false, lineHb := false, lineVm := false, deadline := Config.resetTime + Config.drawTime }

/-- The unit a diagnostic names (rule R231). -/
inductive DiagUnit where
  | pic
  | lcd
  | stub (name : StubName)
  deriving DecidableEq, Repr

/-- A diagnostic record (rules R15 and R231): unit, direction, window offset and access size. -/
inductive Diag where
  | unimplementedRegister (unit : DiagUnit) (dir : Dir) (off : Nat) (n : Size)
  | oversizedAccess       (unit : DiagUnit) (dir : Dir) (off : Nat) (n : Size)
  deriving DecidableEq, Repr

/-- An output event of the LCD toward the display-output collaborator (rules R16 and R176). -/
inductive DisplayEvent where
  | emitLine (ly : Nat)
  | endOfFrame
  deriving DecidableEq, Repr

/-- What the block has given out (log entry 8): the value the latest bus read returned, the diagnostic log and the display
events, each oldest first. No operation reads any of it (rules R15 and R176). -/
structure Outputs where
  result  : Option Word
  diags   : List Diag
  display : List DisplayEvent
  deriving DecidableEq, Repr

/-- Nothing has been given out. -/
def Outputs.empty : Outputs := { result := none, diags := [], display := [] }

/-- Which agent performs the next event: the builder, before `build_system` is done, or the others (rule R10, log entry 7). -/
inductive Phase where
  | building
  | running
  deriving DecidableEq, Repr

/-- Why the machine stops with a fault. -/
inductive Fault where
  /-- The outcome `Unmapped` of an access that is not admitted (rule R65): raised by the memory operations, the UNKNOWN rows,
  the stub operations and a bus access by address. Safe: the spec gives no value, and treatment U1 asks for a stuck or
  faulting bus master. -/
  | unmapped
  /-- `StartupFailure(what)` (rules R15, R123 and R231): raised by SYS.LOAD_IMAGE and SYS.BUILD when an image is absent. Safe:
  it aborts the build, and no later event exists. -/
  | startupFailure (what : RegionName)
  deriving DecidableEq, Repr

/-- Why the machine has no meaning for what it is asked to do. -/
inductive Refusal where
  /-- An operation whose meaning is not written: raised by `exec` only. Safe. -/
  | notModelled (mnemonic : String)
  /-- The bytes are no operation (rule R108): raised by `step`. Safe. -/
  | undecodable (e : DecodeError)
  /-- A bus, line or timer event before `build_system` is done, which rule R10 excludes: raised by each of them. Safe. -/
  | notBuilt
  /-- A build-time operation after `build_system` is done, which rules R95 and R130 exclude (treatment U24: refuse): raised by
  the four SYS operations. Safe. -/
  | alreadyBuilt
  /-- Region parameters that violate rule R121 (treatment U3: refuse): raised by SYS.CREATE_REGION and SYS.BUILD. Safe. -/
  | illFormedRegion
  /-- An operand that is no created region (rules R123 and R124): raised by SYS.LOAD_IMAGE, SYS.MARK_READONLY and SYS.BUILD. Safe. -/
  | noSuchRegion
  /-- An image longer than its region (decision D23, treatment U20: refuse): raised by SYS.LOAD_IMAGE and SYS.BUILD. Safe. -/
  | imageTooLong
  /-- A parameter set whose map, line indices or read-only regions violate rules R62, R210 or R211 (treatment U4: refuse):
  raised by SYS.BUILD. Safe. -/
  | illFormedMap
  /-- A memory operation whose address the decode of rule R64 gives to a register window, so that it is no memory operation:
  raised by the memory operations. Safe. -/
  | notMemory
  deriving DecidableEq, Repr

/-- The state of the block, its parameters, its outputs and its pending events. -/
structure State where
  phase   : Phase
  regions : List Region
  wiring  : Wiring
  pic     : Pic
  lcd     : Lcd
  out     : Outputs
  input   : List Byte
  deriving DecidableEq, Repr

/-- What the meaning of an operation answers. -/
abbrev Result := Host.Outcome State Fault Refusal

/-- The wiring that `build_system` makes of its parameters. -/
def Wiring.ofParams (p : BuildParams) (edgeFilter : Bool) : Wiring :=
  { picBase := p.picBase, lcdBase := p.lcdBase, stubs := p.stubs, vbLine := p.vbLine, hbLine := p.hbLine,
    vmLine := p.vmLine, edgeFilter := edgeFilter }

/-- The block right after reset, which is the end of `build_system` (rules R260 and R261), for the default parameters and two
images that are present and empty (log entries 5 and 6); no event is pending. -/
def State.reset : State :=
  { phase   := .running
    regions := Config.defaultRegions.map fun r => Region.blank r r.readonly
    wiring  := Wiring.ofParams Config.defaultParams Config.edgeFilter
    pic     := Pic.reset
    lcd     := Lcd.reset
    out     := Outputs.empty
    input   := [] }

/-- The block before `build_system`: no region, nothing wired (log entry 7). -/
def State.unbuilt : State :=
  { State.reset with
    phase   := .building
    regions := []
    wiring  := { picBase := 0, lcdBase := 0, stubs := [], vbLine := 0, hbLine := 0, vmLine := 0,
                 edgeFilter := Config.edgeFilter } }

/-! ### One update per part of the state -/

def State.withPhase (s : State) (x : Phase) : State := { s with phase := x }
def State.withRegions (s : State) (x : List Region) : State := { s with regions := x }
def State.withWiring (s : State) (x : Wiring) : State := { s with wiring := x }
def State.withPic (s : State) (x : Pic) : State := { s with pic := x }
def State.withLcd (s : State) (x : Lcd) : State := { s with lcd := x }
def State.withOut (s : State) (x : Outputs) : State := { s with out := x }
def State.withInput (s : State) (x : List Byte) : State := { s with input := x }

end Sys2Proof.Machine
end

