-- ==== Sys2Proof/Machine/Operands.lean ====
section
/-! DEFINITION. Every operand form the spec gives: the width of a bus value (rules R72 to R74), the bit layouts by which a
register packs and unpacks its fields (rules R96 to R103), and the ranges an address can fall in (rules R23, R61). -/

namespace Sys2Proof.Machine

/-! ### Bus values -/

/-- The low `8n` bits of a value (rule R72): what the bus master sees of a read, and what it can send in a write. -/
def busValue (n : Size) (v : Word) : Word :=
  match n with
  | .byte => v &&& 0x000000FF#32
  | .half => v &&& 0x0000FFFF#32
  | .word => v

/-- The low 16 bits of a write value: `v & 0xffff`. -/
def lowHalf (v : Word) : Half := v.extractLsb' 0 16

/-- The high 16 bits of a write value: `v >> 16`. -/
def highHalf (v : Word) : Half := v.extractLsb' 16 16

/-- Byte `k` of a value: `v[8k+7 : 8k]` (rule R66). -/
def byteOf (v : Word) (k : Nat) : Byte := v.extractLsb' (8 * k) 8

/-- A 16-bit register as a word, zeros above (rule R12). -/
def widen (h : Half) : Word := h.setWidth 32

/-! ### Register layouts -/

/-- `PackDISPCNT()` (rules R100 and R180): bit 6 is the inverse of the stored field, bit 3 reads 0. -/
def packDispcnt (l : Lcd) : Half :=
  l.bgMode.setWidth 16
  ||| (bit l.bgm45Frame <<< 4)
  ||| (bit l.hbIntvlFree <<< 5)
  ||| (bit (!l.objVramMap2d) <<< 6)
  ||| (bit l.forcedBlank <<< 7)
  ||| (bit l.displayBg0 <<< 8)
  ||| (bit l.displayBg1 <<< 9)
  ||| (bit l.displayBg2 <<< 10)
  ||| (bit l.displayBg3 <<< 11)
  ||| (bit l.displayObj <<< 12)
  ||| (bit l.displayWnd0 <<< 13)
  ||| (bit l.displayWnd1 <<< 14)
  ||| (bit l.displayOwnd <<< 15)

/-- `UnpackDISPCNT(v)` (rules R100 and R184): every display-mode field, on every write; bit 3 is ignored. -/
def unpackDispcnt (v : Half) (l : Lcd) : Lcd :=
  { l with
    bgMode       := v.extractLsb' 0 3
    bgm45Frame   := v.getLsbD 4
    hbIntvlFree  := v.getLsbD 5
    objVramMap2d := !v.getLsbD 6
    forcedBlank  := v.getLsbD 7
    displayBg0   := v.getLsbD 8
    displayBg1   := v.getLsbD 9
    displayBg2   := v.getLsbD 10
    displayBg3   := v.getLsbD 11
    displayObj   := v.getLsbD 12
    displayWnd0  := v.getLsbD 13
    displayWnd1  := v.getLsbD 14
    displayOwnd  := v.getLsbD 15 }

/-- The three enables of a DISPSTAT write: bits 3, 4 and 5 (rule R101). -/
def unpackEnables (v : Word) (l : Lcd) : Lcd :=
  { l with irqVbEn := v.getLsbD 3, irqHbEn := v.getLsbD 4, irqVmEn := v.getLsbD 5 }

/-- The `lyc` of a DISPSTAT write of two or four bytes: bits 15:8 (rule R97). -/
def upperLyc (v : Word) : BitVec 8 := v.extractLsb' 8 8

/-- The `lyc` of a write at offset 5: bits 7:0 (rule R103). -/
def lowerLyc (v : Word) : BitVec 8 := v.extractLsb' 0 8

/-! ### Ranges of the map -/

/-- An alias exists only if `end > start + size` (rule R23). -/
def Region.hasAlias (r : Region) : Bool := decide (r.start + r.size < r.stop)

/-- `alias_base = end - skip`, meaningful only when there is an alias (rule R23). -/
def Region.aliasBase (r : Region) : Nat := r.stop - r.skip

/-- The address lies in the primary range `[start, start+size)`. -/
def Region.inPrimary (r : Region) (a : Nat) : Bool := decide (r.start ≤ a) && decide (a < r.start + r.size)

/-- The address lies in the alias range `[end-skip, end-skip+size)`. -/
def Region.inAlias (r : Region) (a : Nat) : Bool :=
  r.hasAlias && decide (r.aliasBase ≤ a) && decide (a < r.aliasBase + r.size)

/-- The address lies in the window of `size` bytes at `base`. -/
def inWindow (base size a : Nat) : Bool := decide (base ≤ a) && decide (a < base + size)

/-- One mapped range of rule R61, by what it belongs to: region `i` through its primary range, region `i` through its alias,
or a register window. -/
inductive RangeId where
  | primary (i : Nat)
  | mirror  (i : Nat)
  | pic
  | lcd
  | stub    (name : StubName) (j : Nat)
  deriving DecidableEq, Repr

/-- What `Decode(addr)` gives (rule R64): the mapped range, and the backing offset or window offset in it. -/
structure Target where
  range : RangeId
  off   : Nat
  deriving DecidableEq, Repr

end Sys2Proof.Machine
end

