-- ==== Sys2Proof/Machine/Flags.lean ====
section
/-! DEFINITION. Every flag computation the spec gives: the aggregated interrupt output (rule R142), the three computed status
bits of DISPSTAT (rule R38), the values of the LCD's three output lines (rules R171 and R176), and the pending bits of the
PIC (rules R27 and R141). -/

namespace Sys2Proof.Machine

/-- `master && (level & irq_enabled) != 0` (rules R30 and R142). -/
def aggregate (master : Bool) (level irqEnabled : Half) : Bool :=
  master && (level &&& irqEnabled) != 0#16

/-- The pending bitmap after line `i` is set to `b` (rule R141). -/
def levelAfterLine (level : Half) (i : Fin 16) (b : Bool) : Half :=
  if b then level ||| (1#16 <<< i.val) else level &&& ~~~(1#16 <<< i.val)

/-- The pending bitmap after an acknowledge: the bits the mask names are cleared (rules R151 and R152). -/
def acknowledge (level mask : Half) : Half := level &&& ~~~mask

/-- DISPSTAT bit 0: 1 on lines 160 to 226 (rules R38 and R101). -/
def inVblank (l : Lcd) : Bool := decide (Config.visibleLines ≤ l.ly) && decide (l.ly ≤ Config.lastStatusLine)

/-- DISPSTAT bit 2: the live comparison of `ly` with `lyc` (rules R38 and R101). -/
def vcountMatch (l : Lcd) : Bool := l.ly == l.lyc.toNat

/-- `PackDISPSTAT()` (rules R101 and R181); bits 7:6 read 0. -/
def packDispstat (l : Lcd) : Half :=
  bit (inVblank l)
  ||| (bit l.hblank <<< 1)
  ||| (bit (vcountMatch l) <<< 2)
  ||| (bit l.irqVbEn <<< 3)
  ||| (bit l.irqHbEn <<< 4)
  ||| (bit l.irqVmEn <<< 5)
  ||| (l.lyc.setWidth 16 <<< 8)

/-- The V-blank line on entering the current line: `irq_vb_en && ly >= 160` (rule R171 step 1). -/
def vbValue (l : Lcd) : Bool := l.irqVbEn && decide (Config.visibleLines ≤ l.ly)

/-- The V-counter-match line on entering the current line: `irq_vm_en && ly == lyc` (rule R171 step 1). -/
def vmValue (l : Lcd) : Bool := l.irqVmEn && vcountMatch l

/-- The H-blank line after the phase flip: `irq_hb_en && hblank` (rule R171 step 2). -/
def hbValue (l : Lcd) : Bool := l.irqHbEn && l.hblank

end Sys2Proof.Machine
end

