-- ==== Sys2Proof/Machine/Ops.lean ====
section
/-! DEFINITION. The named operations over the state that the meanings share: backing stores, the address decode and the
admission of an access, bus results and diagnostics, the PIC's recomputation and its input lines, the LCD's line drive, and
the parts of `build_system`. The block takes no exception and returns from none (rules R230, R239): what the source has
instead, the two diagnostics and StartupFailure, are `State.diag` and the fault of `loadImage`. -/

namespace Sys2Proof.Machine

/-! ### Backing stores -/

/-- What an unlisted offset of a backing store reads as: the store is zero-initialized (rule R25). -/
def unlistedByte : Byte := 0#8

/-- Read one byte of a backing store. -/
def Memory.read : Memory → Nat → Byte
  | [], _ => unlistedByte
  | (k, v) :: m, o => if k = o then v else Memory.read m o

/-- A listed cell, or none where the byte is what an unlisted offset reads as. -/
def Memory.cell (o : Nat) (b : Byte) : Memory := if b = unlistedByte then [] else [(o, b)]

/-- Write one byte of a backing store, keeping the canonical form. -/
def Memory.write : Memory → Nat → Byte → Memory
  | [], o, b => Memory.cell o b
  | (k, v) :: m, o, b =>
    if o < k then Memory.cell o b ++ (k, v) :: m
    else if o = k then Memory.cell o b ++ m
    else (k, v) :: Memory.write m o b

/-- Offsets strictly rising from `lo`, and no cell equal to what an unlisted offset reads as. -/
def Memory.wfFrom : Nat → Memory → Bool
  | _, [] => true
  | lo, (k, v) :: m => decide (lo ≤ k) && v != unlistedByte && Memory.wfFrom (k + 1) m

/-- The canonical form of a backing store. -/
def Memory.wf (m : Memory) : Bool := Memory.wfFrom 0 m

/-- Every listed offset is below the size of the store. -/
def Memory.inside (size : Nat) (m : Memory) : Bool := m.all fun c => decide (c.1 < size)

/-- `n` bytes from offset `o` as a little-endian number (rule R67). -/
def Memory.load (m : Memory) (o : Nat) : Nat → Word
  | 0 => 0#32
  | k + 1 => Memory.load m o k + ((m.read (o + k)).setWidth 32 <<< (8 * k))

/-- Store the low `n` bytes of `v` at offset `o`, little-endian (rule R67). -/
def Memory.store (m : Memory) (o : Nat) (v : Word) : Nat → Memory
  | 0 => m
  | k + 1 => (Memory.store m o v k).write (o + k) (byteOf v k)

/-- Write a byte string from offset `o` on. -/
def Memory.place : Memory → Nat → List Byte → Memory
  | m, _, [] => m
  | m, o, b :: bs => Memory.place (m.write o b) (o + 1) bs

/-! ### Address decode and admission -/

/-- The regions of `Decode(addr)` (rule R64), from region number `i` on. -/
def decodeRegions : Nat → List Region → Nat → Option Target
  | _, [], _ => none
  | i, r :: rs, a =>
    if r.inPrimary a then some ⟨.primary i, a - r.start⟩
    else if r.inAlias a then some ⟨.mirror i, a - r.aliasBase⟩
    else decodeRegions (i + 1) rs a

/-- The stub windows of `Decode(addr)` (rule R64), from window number `j` on. -/
def decodeStubs : Nat → List StubWindow → Nat → Option Target
  | _, [], _ => none
  | j, w :: ws, a =>
    if inWindow w.base w.size a then some ⟨.stub w.name j, a - w.base⟩ else decodeStubs (j + 1) ws a

/-- The windows of `Decode(addr)` (rule R64). -/
def decodeWindows (w : Wiring) (a : Nat) : Option Target :=
  if inWindow w.picBase Config.picWindowSize a then some ⟨.pic, a - w.picBase⟩
  else if inWindow w.lcdBase Config.lcdWindowSize a then some ⟨.lcd, a - w.lcdBase⟩
  else decodeStubs 0 w.stubs a

/-- `Decode(addr)` (rule R64): the target, or none for `Unmapped`. -/
def decodeAddr (s : State) (a : Nat) : Option Target :=
  match decodeRegions 0 s.regions a with
  | some t => some t
  | none => decodeWindows s.wiring a

/-- The mapped range an address decodes into. -/
def rangeAt (s : State) (a : Nat) : Option RangeId := (decodeAddr s a).map Target.range

/-- Rule R65: the access does not pass the top of the address space, and all its bytes decode into one mapped range. -/
def admitted (s : State) (a : Nat) (n : Nat) : Bool :=
  decide (a + n ≤ Config.addressTop) &&
  (rangeAt s a).isSome && (List.range n).all fun k => rangeAt s (a + k) == rangeAt s a

/-- The region behind a mapped range, by its number in creation order. -/
def RangeId.region? : RangeId → Option Nat
  | .primary i => some i
  | .mirror i => some i
  | .pic => none
  | .lcd => none
  | .stub _ _ => none

/-- Change region number `i`, if there is one. -/
def updateRegion (f : Region → Region) : Nat → List Region → List Region
  | _, [] => []
  | 0, r :: rs => f r :: rs
  | i + 1, r :: rs => r :: updateRegion f i rs

/-! ### Phases, results, diagnostics -/

/-- A bus, line or timer event exists only after `build_system` (rule R10). -/
def whenRunning (s : State) (k : Result) : Result :=
  match s.phase with
  | .running => k
  | .building => .refused .notBuilt

/-- A build-time operation exists only before every other event (rules R10, R95 and R130). -/
def whenBuilding (s : State) (k : Result) : Result :=
  match s.phase with
  | .building => k
  | .running => .refused .alreadyBuilt

/-- The bus master sees the low `8n` bits of what a read handler computes (rule R72). -/
def State.answer (s : State) (n : Size) (v : Word) : State :=
  s.withOut { s.out with result := some (busValue n v) }

/-- `diag`: one record appended to the diagnostic log, and nothing else (rule R15). -/
def State.diag (s : State) (d : Diag) : State :=
  s.withOut { s.out with diags := s.out.diags ++ [d] }

/-- An access wider than the register's declared maximum is flagged and proceeds (rules R73 and R74). -/
def State.flagOversized (s : State) (unit : DiagUnit) (dir : Dir) (off : Nat) (n : Size) (maxWidth : Nat) : State :=
  if maxWidth < n.bytes then s.diag (.oversizedAccess unit dir off n) else s

/-- A read at an offset the unit does not list: one record, and the value 0 (rule R231). -/
def readUnlisted (s : State) (unit : DiagUnit) (off : Nat) (n : Size) : State :=
  (s.diag (.unimplementedRegister unit .read off n)).answer n 0#32

/-- A write at an offset the unit does not list: one record, no effect (rule R231). -/
def writeUnlisted (s : State) (unit : DiagUnit) (off : Nat) (n : Size) : State :=
  s.diag (.unimplementedRegister unit .write off n)

/-- An access inside a window of `size` bytes is admitted iff its last byte is in the window too (rule R65). -/
def whenInside (size off : Nat) (n : Size) (k : Result) : Result :=
  if off + n.bytes ≤ size then k else .fault .unmapped

/-! ### The PIC's output and input lines -/

/-- `Pic.update()`: recompute and publish the aggregated output (rule R142). -/
def Pic.update (p : Pic) : Pic :=
  { p with irqOut := aggregate p.master p.level p.irqEnabled }

/-- `PicLine(i, b)` (rule R141). -/
def State.picLine (s : State) (i : Fin 16) (b : Bool) : State :=
  s.withPic { s.pic with level := levelAfterLine s.pic.level i b }.update

/-! ### The LCD's line drive -/

/-- The LCD's three output lines (rule R172). -/
inductive LcdLine where
  | vb | hb | vm
  deriving DecidableEq, Repr

/-- The current value of an output line (rule R36). -/
def Lcd.line (l : Lcd) : LcdLine → Bool
  | .vb => l.lineVb
  | .hb => l.lineHb
  | .vm => l.lineVm

/-- Record the new value of an output line (rule R172). -/
def Lcd.setLine (l : Lcd) (k : LcdLine) (b : Bool) : Lcd :=
  match k with
  | .vb => { l with lineVb := b }
  | .hb => { l with lineHb := b }
  | .vm => { l with lineVm := b }

/-- `index(k)`: the PIC input the line is wired to (rule R172). -/
def Wiring.index (w : Wiring) : LcdLine → Fin 16
  | .vb => w.vbLine
  | .hb => w.hbLine
  | .vm => w.vmLine

/-- `LcdDrive(k, b)` (rule R172). -/
def State.lcdDrive (s : State) (k : LcdLine) (b : Bool) : State :=
  let driven := s.withLcd (s.lcd.setLine k b)
  if !s.wiring.edgeFilter || s.lcd.line k != b then driven.picLine (s.wiring.index k) b else driven

/-- Tell the display-output collaborator (rule R176). -/
def State.emit (s : State) (e : DisplayEvent) : State :=
  s.withOut { s.out with display := s.out.display ++ [e] }

/-! ### Building the system -/

/-- `WellFormedRegion(start, end, size, skip)` (rule R121), each condition over the integers without truncation. -/
def wellFormedRegion (start stop size skip : Nat) : Bool :=
  decide (0 < skip) &&
  decide (start + size ≤ stop) &&
  decide (0 < size) &&
  decide (stop ≤ Config.addressTop) &&
  (!decide (start + size < stop) ||
    (decide (start + size + skip ≤ stop) && decide (stop + size ≤ Config.addressTop + skip)))

/-- `create_mirrored_region` (rule R120): the new region, zero-filled and writable, after the others. -/
def createRegion (rs : List Region) (r : RegionSpec) : Host.Outcome (List Region) Fault Refusal :=
  if wellFormedRegion r.start r.stop r.size r.skip then .next (rs ++ [Region.blank r false])
  else .refused .illFormedRegion

/-- The number of the first region of that name, in creation order. -/
def regionNamed (name : RegionName) : List Region → Option Nat
  | [] => none
  | r :: rs => if r.name = name then some 0 else (regionNamed name rs).map (· + 1)

/-- `load_image` (rule R123): StartupFailure when the image is absent, a refusal when it is too long. -/
def loadImage (rs : List Region) (name : RegionName) (image : Option (List Byte)) :
    Host.Outcome (List Region) Fault Refusal :=
  match regionNamed name rs with
  | none => .refused .noSuchRegion
  | some i =>
    match image, rs[i]? with
    | none, _ => .fault (.startupFailure name)
    | some bytes, some r =>
      if bytes.length ≤ r.size then
        .next (updateRegion (fun r => { r with backing := r.backing.place 0 bytes }) i rs)
      else .refused .imageTooLong
    | some _, none => .refused .noSuchRegion

/-- `mark_readonly` (rule R124). -/
def markReadonly (rs : List Region) (name : RegionName) : Host.Outcome (List Region) Fault Refusal :=
  match regionNamed name rs with
  | none => .refused .noSuchRegion
  | some i => .next (updateRegion (fun r => { r with readonly := true }) i rs)

/-- Carry on with the regions of a part of the build that went well. -/
def andThen {α β : Type} (o : Host.Outcome α Fault Refusal) (k : α → Host.Outcome β Fault Refusal) :
    Host.Outcome β Fault Refusal :=
  match o with
  | .next a => k a
  | .fault e => .fault e
  | .refused e => .refused e

/-- `create_mirrored_region` for each entry of `REGIONS` (rule R210). -/
def createRegions : List Region → List RegionSpec → Host.Outcome (List Region) Fault Refusal
  | rs, [] => .next rs
  | rs, r :: more => andThen (createRegion rs r) fun rs => createRegions rs more

/-- `mark_readonly` for each region whose entry of `REGIONS` says so (rule R210). -/
def markAll : List RegionSpec → List Region → List Region
  | spec :: more, r :: rs => (if spec.readonly then { r with readonly := true } else r) :: markAll more rs
  | _, rs => rs

/-- The mapped ranges of a region, each as its first address and one past its last (rule R61). -/
def Region.ranges (r : Region) : List (Nat × Nat) :=
  (r.start, r.start + r.size) :: if r.hasAlias then [(r.aliasBase, r.aliasBase + r.size)] else []

/-- The mapped ranges of the address space (rule R61). -/
def mappedRanges (rs : List Region) (w : Wiring) : List (Nat × Nat) :=
  rs.flatMap Region.ranges ++
  (w.picBase, w.picBase + Config.picWindowSize) ::
  (w.lcdBase, w.lcdBase + Config.lcdWindowSize) ::
  w.stubs.map fun x => (x.base, x.base + x.size)

/-- The range is not empty and lies inside the address space (rule R62). -/
def rangeFits (r : Nat × Nat) : Bool := decide (r.1 < r.2) && decide (r.2 ≤ Config.addressTop)

/-- The two ranges share no address. -/
def apart (x y : Nat × Nat) : Bool := decide (x.2 ≤ y.1) || decide (y.2 ≤ x.1)

/-- No two ranges of the list share an address. -/
def pairwiseApart : List (Nat × Nat) → Bool
  | [] => true
  | x :: xs => xs.all (apart x) && pairwiseApart xs

/-- The map is well formed (rule R62). -/
def wellFormedMap (rs : List Region) (w : Wiring) : Bool :=
  (mappedRanges rs w).all rangeFits && pairwiseApart (mappedRanges rs w)

/-- The three PIC inputs of the LCD are pairwise distinct (rules R9 and R210). -/
def Wiring.linesDistinct (w : Wiring) : Bool :=
  w.vbLine != w.hbLine && w.vbLine != w.vmLine && w.hbLine != w.vmLine

/-- The read-only regions are exactly the two image regions, one named bios and one named rom (rules R124 and R211). -/
def imageRegionsOnly (rs : List Region) : Bool :=
  (rs.map Region.name).count .bios == 1 && (rs.map Region.name).count .rom == 1 &&
  rs.all fun r => r.readonly == (r.name == .bios || r.name == .rom)

/-- The regions of `build_system`, images loaded and read-only regions marked (rule R210). -/
def buildRegions (p : BuildParams) : Host.Outcome (List Region) Fault Refusal :=
  andThen (createRegions [] p.regions) fun rs =>
  andThen (loadImage rs .bios p.biosImage) fun rs =>
  andThen (loadImage rs .rom p.romImage) fun rs =>
  .next (markAll p.regions rs)

/-- `build_system` (rule R210), ending in the reset state of rule R260. The parameter `EDGE_FILTER` is no operand of it. -/
def buildSystem (p : BuildParams) (s : State) : Result :=
  andThen (buildRegions p) fun rs =>
    let w := Wiring.ofParams p s.wiring.edgeFilter
    if wellFormedMap rs w && w.linesDistinct && imageRegionsOnly rs then
      .next { s with phase := .running, regions := rs, wiring := w, pic := Pic.reset, lcd := Lcd.reset }
    else .refused .illFormedMap

end Sys2Proof.Machine
end

