-- ==== Sys2Proof/Machine/Bus.lean ====
section
/-! DEFINITION. Bus dispatch (rule R212): the operation that a bus access by address performs, chosen by the admission test of
rule R65, the address decode of rule R64 and the select keys of rule R92; and the event that stands first in the input. -/

namespace Sys2Proof.Machine

/-- The memory operation of a read (rule R125). -/
def memReadAt (addr : Addr) (n : Size) : Instr :=
  match n with
  | .byte => .mrd8 addr
  | .half => .mrd16 addr
  | .word => .mrd32 addr

/-- The memory operation of a write (rule R126). -/
def memWriteAt (addr : Addr) (n : Size) (v : Word) : Instr :=
  match n with
  | .byte => .mwr8 addr (v.setWidth 8)
  | .half => .mwr16 addr (v.setWidth 16)
  | .word => .mwr32 addr v

/-- The operation a read performs at its target (rule R212). -/
def readTarget (addr : Addr) (n : Size) (t : Target) : Instr :=
  match t.range with
  | .primary _ => memReadAt addr n
  | .mirror _ => memReadAt addr n
  | .pic => picReadAt (BitVec.ofNat 8 t.off) n
  | .lcd => lcdReadAt (BitVec.ofNat 7 t.off) n
  | .stub name _ => .stubRd name t.off n

/-- The operation a write performs at its target (rule R212). -/
def writeTarget (addr : Addr) (n : Size) (v : Word) (t : Target) : Instr :=
  match t.range with
  | .primary _ => memWriteAt addr n v
  | .mirror _ => memWriteAt addr n v
  | .pic => picWriteAt (BitVec.ofNat 8 t.off) n v
  | .lcd => lcdWriteAt (BitVec.ofNat 7 t.off) n v
  | .stub name _ => .stubWr name t.off n v

/-- The target of an admitted access; `Unmapped` otherwise (rule R65). -/
def accessTarget (s : State) (addr : Addr) (n : Size) : Host.Outcome Target Fault Refusal :=
  if admitted s addr.toNat n.bytes then
    match decodeAddr s addr.toNat with
    | some t => .next t
    | none => .fault .unmapped
  else .fault .unmapped

/-- The operation that a bus access performs (rule R212); none exists before `build_system` (rule R10). -/
def resolve (s : State) (a : BusAccess) : Host.Outcome Instr Fault Refusal :=
  match s.phase with
  | .building => .refused .notBuilt
  | .running =>
    match a with
    | .read addr n => andThen (accessTarget s addr n) fun t => .next (readTarget addr n t)
    | .write addr n v => andThen (accessTarget s addr n) fun t => .next (writeTarget addr n v t)

/-- What stands first in the input. -/
inductive Event where
  | idle                                        -- nothing: the only event left is the LCD timer's
  | op     (i : Instr) (rest : List Byte)
  | access (a : BusAccess) (rest : List Byte)
  | broken (e : DecodeError)
  deriving DecidableEq, Repr

/-- The next event (rule R10). -/
def nextEvent (input : List Byte) : Event :=
  match input with
  | [] => .idle
  | b :: bs =>
    match decode (b :: bs) with
    | .ok (.op i, rest) => .op i rest
    | .ok (.access a, rest) => .access a rest
    | .error e => .broken e

/-- The agent that performs an operation (rule R10): the builder, or one of the others. -/
def phaseOf : Instr → Phase
  | .sysCreateRegion _ _ _ _ _ => .building
  | .sysLoadImage _ _ => .building
  | .sysMarkReadonly _ => .building
  | .sysBuild _ => .building
  | _ => .running

end Sys2Proof.Machine
end

