-- ==== Sys2Proof/Machine/Lcd.lean ====
section
/-! DEFINITION. The operations of the display controller (43_display_controller.md): the timer firing, four reads and five
writes. No write drives an output line or touches the PIC (rules R189 and R191). -/

namespace Sys2Proof.Machine

/-! ### The timer firing (rule R171) -/

/-- Step 1, taken only where the h-blank phase is ending: the next line, wrapping 228 to 0, then the V-blank and the
V-counter-match line for the line just entered. -/
def State.enterLine (s : State) : State :=
  let next := s.withLcd { s.lcd with ly := (s.lcd.ly + 1) % Config.linesPerFrame }
  let driven := next.lcdDrive .vb (vbValue next.lcd)
  driven.lcdDrive .vm (vmValue driven.lcd)

/-- Step 1. -/
def State.tickLine (s : State) : State := if s.lcd.hblank then s.enterLine else s

/-- Step 2: flip the phase, then drive the H-blank line. -/
def State.tickPhase (s : State) : State :=
  let flipped := s.withLcd { s.lcd with hblank := !s.lcd.hblank }
  flipped.lcdDrive .hb (hbValue flipped.lcd)

/-- Step 3: where a draw phase has begun, emit the line, and after line 159 signal the end of the frame. -/
def State.tickEmit (s : State) : State :=
  if s.lcd.hblank then s
  else if s.lcd.ly = Config.lastVisibleLine then (s.emit (.emitLine s.lcd.ly)).emit .endOfFrame
  else s.emit (.emitLine s.lcd.ly)

/-- Step 4: the next deadline is the previous one plus the length of the phase just entered (rule R177). -/
def State.tickRearm (s : State) : State :=
  s.withLcd { s.lcd with
    deadline := s.lcd.deadline + if s.lcd.hblank then Config.hblankTime else Config.drawTime }

/-- One firing of the LCD timer: the four steps in order. -/
def State.tick (s : State) : State := s.tickLine.tickPhase.tickEmit.tickRearm

/-- `LCD.TICK` (rule R171). -/
def execLcdTick (s : State) : Result := whenRunning s (.next s.tick)

/-! ### Reads (rule R190) -/

/-- `LCD.RD.DISPCNT` (rule R180), maximum width 4. -/
def execLcdRdDispcnt (n : Size) (s : State) : Result :=
  whenRunning s (.next (s.answer n (widen (packDispcnt s.lcd))))

/-- `LCD.RD.DISPSTAT` (rule R181), maximum width 2. -/
def execLcdRdDispstat (n : Size) (s : State) : Result :=
  whenRunning s (.next ((s.flagOversized .lcd .read 0x04 n 2).answer n (widen (packDispstat s.lcd))))

/-- `LCD.RD.VCOUNT` (rule R182), maximum width 2. -/
def execLcdRdVcount (n : Size) (s : State) : Result :=
  whenRunning s (.next ((s.flagOversized .lcd .read 0x06 n 2).answer n (BitVec.ofNat 32 s.lcd.ly)))

/-- `LCD.RD.UNKNOWN` (rule R183). -/
def execLcdRdUnknown (off : BitVec 7) (n : Size) (s : State) : Result :=
  whenRunning s <| whenInside Config.lcdWindowSize off.toNat n (.next (readUnlisted s .lcd off.toNat n))

/-! ### Writes (rule R191) -/

/-- `LCD.WR.DISPCNT` (rule R184), maximum width 4. -/
def execLcdWrDispcnt (n : Size) (v : Word) (s : State) : Result :=
  whenRunning s (.next (s.withLcd (unpackDispcnt (lowHalf (busValue n v)) s.lcd)))

/-- What a write at DISPSTAT leaves: the enables, and `lyc` unless the access is one byte wide (rule R185). -/
def writeDispstat (n : Size) (v : Word) (l : Lcd) : Lcd :=
  match n with
  | .byte => unpackEnables v l
  | .half => { unpackEnables v l with lyc := upperLyc v }
  | .word => { unpackEnables v l with lyc := upperLyc v }

/-- `LCD.WR.DISPSTAT` (rule R185), maximum width 2. -/
def execLcdWrDispstat (n : Size) (v : Word) (s : State) : Result :=
  whenRunning s <|
    .next ((s.flagOversized .lcd .write 0x04 n 2).withLcd (writeDispstat n (busValue n v) s.lcd))

/-- `LCD.WR.LYC` (rule R186), maximum width 1. -/
def execLcdWrLyc (n : Size) (v : Word) (s : State) : Result :=
  whenRunning s <|
    .next ((s.flagOversized .lcd .write 0x05 n 1).withLcd { s.lcd with lyc := lowerLyc (busValue n v) })

/-- `LCD.WR.VCOUNT` (rule R187), maximum width 2: accepted and ignored. The value takes no part. -/
def execLcdWrVcount (n : Size) (s : State) : Result :=
  whenRunning s (.next (s.flagOversized .lcd .write 0x06 n 2))

/-- `LCD.WR.UNKNOWN` (rule R188). The value takes no part. -/
def execLcdWrUnknown (off : BitVec 7) (n : Size) (s : State) : Result :=
  whenRunning s <| whenInside Config.lcdWindowSize off.toNat n (.next (writeUnlisted s .lcd off.toNat n))

end Sys2Proof.Machine
end

