-- ==== Sys2Proof/Machine/Mirror.lean ====
section
/-! DEFINITION. The run-time operations of the Mirror Engine (41_mirror_engine.md section 2): a memory read and a memory write
of 1, 2 or 4 bytes, through the primary range or the alias of a region. -/

namespace Sys2Proof.Machine

/-- The region number and backing offset of an admitted memory access (rules R64 and R65). An access that is not admitted is
`Unmapped`; an address that decodes to a register window belongs to no memory operation. -/
def memoryTarget (s : State) (a n : Nat) : Host.Outcome (Nat × Nat) Fault Refusal :=
  if admitted s a n then
    match decodeAddr s a with
    | none => .fault .unmapped
    | some t =>
      match t.range.region? with
      | none => .refused .notMemory
      | some i => .next (i, t.off)
  else .fault .unmapped

/-- The backing store of region number `i`. -/
def backingOf (s : State) (i : Nat) : Memory :=
  match s.regions[i]? with
  | some r => r.backing
  | none => []

/-- `MemRead(addr, n)` (rule R125). -/
def memRead (n : Size) (addr : Addr) (s : State) : Result :=
  whenRunning s <|
    andThen (memoryTarget s addr.toNat n.bytes) fun t =>
      .next (s.answer n ((backingOf s t.1).load t.2 n.bytes))

/-- The bytes of a write reach the backing store, or are dropped when the region is read-only (rules R80, R126 and R127). -/
def Region.writeBytes (o : Nat) (v : Word) (n : Size) (r : Region) : Region :=
  if r.readonly then r else { r with backing := r.backing.store o v n.bytes }

/-- `MemWrite(addr, n, v)` (rule R126). -/
def memWrite (n : Size) (addr : Addr) (v : Word) (s : State) : Result :=
  whenRunning s <|
    andThen (memoryTarget s addr.toNat n.bytes) fun t =>
      .next (s.withRegions (updateRegion (Region.writeBytes t.2 v n) t.1 s.regions))

/-- `MRD8` (rule R125). -/
def execMrd8 (addr : Addr) (s : State) : Result := memRead .byte addr s

/-- `MRD16` (rule R125). -/
def execMrd16 (addr : Addr) (s : State) : Result := memRead .half addr s

/-- `MRD32` (rule R125). -/
def execMrd32 (addr : Addr) (s : State) : Result := memRead .word addr s

/-- `MWR8` (rule R126). -/
def execMwr8 (addr : Addr) (v : Byte) (s : State) : Result := memWrite .byte addr (v.setWidth 32) s

/-- `MWR16` (rule R126). -/
def execMwr16 (addr : Addr) (v : Half) (s : State) : Result := memWrite .half addr (v.setWidth 32) s

/-- `MWR32` (rule R126). -/
def execMwr32 (addr : Addr) (v : Word) (s : State) : Result := memWrite .word addr v s

end Sys2Proof.Machine
end

