-- ==== Sys2Proof/Machine/Pic.lean ====
section
/-! DEFINITION. The operations of the interrupt controller (42_interrupt_controller.md): the input line, five reads and five
writes. A write with a known offset recomputes the output once, after all its field updates (rule R144). -/

namespace Sys2Proof.Machine

/-! ### Input line -/

/-- `PIC.LINE` (rule R141). The PIC does not check who drives the line (rule R157). -/
def execPicLine (i : Fin 16) (b : Bool) (s : State) : Result :=
  whenRunning s (.next (s.picLine i b))

/-! ### Reads (rule R143) -/

/-- What a read at IE gives: IE, and IF above it for a four-byte access (rule R145). -/
def readIe (n : Size) (p : Pic) : Word :=
  match n with
  | .word => widen p.irqEnabled ||| (widen p.level <<< 16)
  | .half => widen p.irqEnabled
  | .byte => widen p.irqEnabled

/-- `PIC.RD.IE` (rule R145), maximum width 4. -/
def execPicRdIe (n : Size) (s : State) : Result :=
  whenRunning s (.next (s.answer n (readIe n s.pic)))

/-- `PIC.RD.IF` (rule R146), maximum width 2. -/
def execPicRdIf (n : Size) (s : State) : Result :=
  whenRunning s (.next ((s.flagOversized .pic .read 0x02 n 2).answer n (widen s.pic.level)))

/-- `PIC.RD.WAITCNT` (rule R147), maximum width 4. -/
def execPicRdWaitcnt (n : Size) (s : State) : Result :=
  whenRunning s (.next (s.answer n (s.pic.waitcnt.setWidth 32)))

/-- `PIC.RD.IME` (rule R148), maximum width 4: 1 when the master enable is off. -/
def execPicRdIme (n : Size) (s : State) : Result :=
  whenRunning s (.next (s.answer n (if s.pic.master then 0#32 else 1#32)))

/-- `PIC.RD.UNKNOWN` (rule R149). -/
def execPicRdUnknown (off : BitVec 8) (n : Size) (s : State) : Result :=
  whenRunning s <| whenInside Config.picWindowSize off.toNat n (.next (readUnlisted s .pic off.toNat n))

/-! ### Writes (rules R144 and R150) -/

/-- What a write at IE leaves: the whole of IE, and an acknowledge of IF for a four-byte access (rule R151). -/
def writeIe (n : Size) (v : Word) (p : Pic) : Pic :=
  match n with
  | .word => { p with irqEnabled := lowHalf v, level := acknowledge p.level (highHalf v) }
  | .half => { p with irqEnabled := lowHalf v }
  | .byte => { p with irqEnabled := lowHalf v }

/-- `PIC.WR.IE` (rule R151), maximum width 4. -/
def execPicWrIe (n : Size) (v : Word) (s : State) : Result :=
  whenRunning s (.next (s.withPic (writeIe n (busValue n v) s.pic).update))

/-- What a write at IF leaves: the bits it names are cleared (rule R152). -/
def writeIf (v : Word) (p : Pic) : Pic := { p with level := acknowledge p.level (lowHalf v) }

/-- `PIC.WR.IF` (rule R152), maximum width 2. -/
def execPicWrIf (n : Size) (v : Word) (s : State) : Result :=
  whenRunning s <|
    .next ((s.flagOversized .pic .write 0x02 n 2).withPic (writeIf (busValue n v) s.pic).update)

/-- What a write at WAITCNT leaves: bits 14:0 (rule R153). -/
def writeWaitcnt (v : Word) (p : Pic) : Pic := { p with waitcnt := v.extractLsb' 0 15 }

/-- `PIC.WR.WAITCNT` (rule R153), maximum width 4. -/
def execPicWrWaitcnt (n : Size) (v : Word) (s : State) : Result :=
  whenRunning s (.next (s.withPic (writeWaitcnt (busValue n v) s.pic).update))

/-- What a write at IME leaves: the master enable is the inverse of bit 0 (rule R154). -/
def writeIme (v : Word) (p : Pic) : Pic := { p with master := !v.getLsbD 0 }

/-- `PIC.WR.IME` (rule R154), maximum width 4. -/
def execPicWrIme (n : Size) (v : Word) (s : State) : Result :=
  whenRunning s (.next (s.withPic (writeIme (busValue n v) s.pic).update))

/-- `PIC.WR.UNKNOWN` (rule R155): no recomputation, for nothing changes. The value takes no part. -/
def execPicWrUnknown (off : BitVec 8) (n : Size) (s : State) : Result :=
  whenRunning s <| whenInside Config.picWindowSize off.toNat n (.next (writeUnlisted s .pic off.toNat n))

end Sys2Proof.Machine
end

