-- ==== Sys2Proof/Machine/System.lean ====
section
/-! DEFINITION. System composition (44_system_composition.md): the stub peripherals and the four build-time operations. -/

namespace Sys2Proof.Machine

/-! ### Stub peripherals (rule R214) -/

/-- The access stands inside a stub window of that name (rules R65 and R110). -/
def stubAdmits (s : State) (name : StubName) (off : Nat) (n : Size) : Bool :=
  s.wiring.stubs.any fun w => w.name == name && decide (off + n.bytes ≤ w.size)

/-- An access that no stub window of the name admits is `Unmapped` (rule R65). -/
def whenStub (s : State) (name : StubName) (off : Nat) (n : Size) (k : Result) : Result :=
  if stubAdmits s name off n then k else .fault .unmapped

/-- `STUB.RD`: 0 and a diagnostic (rule R214). -/
def execStubRd (name : StubName) (off : Nat) (n : Size) (s : State) : Result :=
  whenRunning s <| whenStub s name off n (.next (readUnlisted s (.stub name) off n))

/-- `STUB.WR`: a diagnostic and no effect (rule R214). The value takes no part. -/
def execStubWr (name : StubName) (off : Nat) (n : Size) (s : State) : Result :=
  whenRunning s <| whenStub s name off n (.next (writeUnlisted s (.stub name) off n))

/-! ### Build-time operations -/

/-- `SYS.CREATE_REGION` (rules R120 and R121). -/
def execSysCreateRegion (name : RegionName) (start stop size skip : Nat) (s : State) : Result :=
  whenBuilding s <|
    andThen (createRegion s.regions ⟨name, start, stop, size, skip, false⟩) fun rs => .next (s.withRegions rs)

/-- `SYS.LOAD_IMAGE` (rule R123). -/
def execSysLoadImage (name : RegionName) (image : Option (List Byte)) (s : State) : Result :=
  whenBuilding s <| andThen (loadImage s.regions name image) fun rs => .next (s.withRegions rs)

/-- `SYS.MARK_READONLY` (rule R124). -/
def execSysMarkReadonly (name : RegionName) (s : State) : Result :=
  whenBuilding s <| andThen (markReadonly s.regions name) fun rs => .next (s.withRegions rs)

/-- `SYS.BUILD` (rule R210). -/
def execSysBuild (p : BuildParams) (s : State) : Result :=
  whenBuilding s (buildSystem p s)

end Sys2Proof.Machine
end

