-- ==== Sys2Proof/Machine/Dispatch.lean ====
section
/-! DEFINITION. The meaning of each operation: one arm per row of spec/opcode_table.json. -/

namespace Sys2Proof.Machine

def exec (i : Instr) (s : State) : Host.Outcome State Fault Refusal :=
  match i with
  -- Mirror Engine
  | .mrd8 addr => Sys2Proof.Machine.execMrd8 addr s
  | .mrd16 addr => Sys2Proof.Machine.execMrd16 addr s
  | .mrd32 addr => Sys2Proof.Machine.execMrd32 addr s
  | .mwr8 addr v => Sys2Proof.Machine.execMwr8 addr v s
  | .mwr16 addr v => Sys2Proof.Machine.execMwr16 addr v s
  | .mwr32 addr v => Sys2Proof.Machine.execMwr32 addr v s
  -- PIC
  | .picRdIe n => Sys2Proof.Machine.execPicRdIe n s
  | .picRdIf n => Sys2Proof.Machine.execPicRdIf n s
  | .picRdWaitcnt n => Sys2Proof.Machine.execPicRdWaitcnt n s
  | .picRdIme n => Sys2Proof.Machine.execPicRdIme n s
  | .picRdUnknown off n => Sys2Proof.Machine.execPicRdUnknown off n s
  | .picWrIe n v => Sys2Proof.Machine.execPicWrIe n v s
  | .picWrIf n v => Sys2Proof.Machine.execPicWrIf n v s
  | .picWrWaitcnt n v => Sys2Proof.Machine.execPicWrWaitcnt n v s
  | .picWrIme n v => Sys2Proof.Machine.execPicWrIme n v s
  | .picWrUnknown off n _ => Sys2Proof.Machine.execPicWrUnknown off n s
  -- LCD
  | .lcdRdDispcnt n => Sys2Proof.Machine.execLcdRdDispcnt n s
  | .lcdRdDispstat n => Sys2Proof.Machine.execLcdRdDispstat n s
  | .lcdRdVcount n => Sys2Proof.Machine.execLcdRdVcount n s
  | .lcdRdUnknown off n => Sys2Proof.Machine.execLcdRdUnknown off n s
  | .lcdWrDispcnt n v => Sys2Proof.Machine.execLcdWrDispcnt n v s
  | .lcdWrDispstat n v => Sys2Proof.Machine.execLcdWrDispstat n v s
  | .lcdWrLyc n v => Sys2Proof.Machine.execLcdWrLyc n v s
  | .lcdWrVcount n _ => Sys2Proof.Machine.execLcdWrVcount n s
  | .lcdWrUnknown off n _ => Sys2Proof.Machine.execLcdWrUnknown off n s
  -- Stubs
  | .stubRd name off n => Sys2Proof.Machine.execStubRd name off n s
  | .stubWr name off n _ => Sys2Proof.Machine.execStubWr name off n s
  -- Line and timer events
  | .picLine line b => Sys2Proof.Machine.execPicLine line b s
  | .lcdTick => Sys2Proof.Machine.execLcdTick s
  -- Build-time operations
  | .sysCreateRegion name start stop size skip => Sys2Proof.Machine.execSysCreateRegion name start stop size skip s
  | .sysLoadImage name image => Sys2Proof.Machine.execSysLoadImage name image s
  | .sysMarkReadonly name => Sys2Proof.Machine.execSysMarkReadonly name s
  | .sysBuild p => Sys2Proof.Machine.execSysBuild p s

end Sys2Proof.Machine
end

