-- ==== Sys2Proof/Machine/Step.lean ====
section
/-! DEFINITION. One step: one event of one agent, complete before the next begins (rules R10 and R81). -/

namespace Sys2Proof.Machine

/-- Take the next event out of the input and perform it. With nothing in the input, the event is a firing of the LCD timer,
the only self-driving clock of the block (rule R170, log entry 4). A bus access by address performs the operation that
dispatch chooses for it (rule R212). -/
def step (s : State) : Host.Outcome State Fault Refusal :=
  match nextEvent s.input with
  | .idle => exec .lcdTick s
  | .op i rest => exec i (s.withInput rest)
  | .access a rest => andThen (resolve s a) fun i => exec i (s.withInput rest)
  | .broken e => .refused (.undecodable e)

/-- The state with a table word's operation as the very next event: its bytes in front of the input, and the agent that
performs it in turn (log entry 3). -/
def State.withFetchWord (s : State) (nbits w : Nat) : State :=
  match decodeTableWord nbits w with
  | some i => { s with phase := phaseOf i, input := tableOperation nbits w ++ s.input }
  | none => { s with input := tableOperation nbits w ++ s.input }

end Sys2Proof.Machine
end

