-- ==== Sys2Proof/Safety.lean ====
section
/-! DEFINITION. What counts as a good state and a safe run, in the terms the claims use. -/

namespace Sys2Proof.Machine

/-- The state a result goes on in, if it does. -/
def nextState? (r : Result) : Option State :=
  match r with
  | .next s => some s
  | .fault _ => none
  | .refused _ => none

/-- The value a read operation gives the bus master, if it goes on. -/
def readBack (i : Instr) (s : State) : Option Word := (nextState? (exec i s)).bind fun t => t.out.result

/-- The published output is the aggregate of the PIC's fields (rules R30 and R156). -/
def Pic.consistent (p : Pic) : Prop := p.irqOut = aggregate p.master p.level p.irqEnabled

/-- A scanline lasts `Td + Th = 73433` time units (rule R8). -/
def linePeriod : Nat := Config.drawTime + Config.hblankTime

/-- The scan position agrees with the schedule of rule R178 for `T0 = 0`: the next firing of line `m` ends its draw phase at
`73433 m + 57221` and its h-blank phase at `73433 (m + 1)`, and the line's number is `m mod 228`. -/
def Lcd.onSchedule (l : Lcd) : Prop :=
  ∃ m, l.ly = m % Config.linesPerFrame ∧
    l.deadline = linePeriod * m + if l.hblank then linePeriod else Config.drawTime

/-- What the scan position says of the output lines: the H-blank line is high only in an h-blank phase (rule R176), the
V-blank line only from line 160 on (rule R174). -/
def Lcd.linesAgree (l : Lcd) : Prop :=
  (l.lineHb = true → l.hblank = true) ∧ (l.lineVb = true → Config.visibleLines ≤ l.ly)

/-- A region as `create_mirrored_region` makes it (rule R121), its store in canonical form and within its size. -/
def Region.wf (r : Region) : Prop :=
  wellFormedRegion r.start r.stop r.size r.skip = true ∧ r.backing.wf = true ∧ r.backing.inside r.size = true

/-- The map of a running block (rules R62, R124 and R210). -/
def State.mapWf (s : State) : Prop :=
  wellFormedMap s.regions s.wiring = true ∧ s.wiring.linesDistinct = true ∧ imageRegionsOnly s.regions = true

/-- The invariant of the block. -/
structure State.Inv (s : State) : Prop where
  output   : s.pic.consistent
  schedule : s.lcd.onSchedule
  lines    : s.lcd.linesAgree
  regions  : ∀ r ∈ s.regions, r.wf
  map      : s.phase = .running → s.mapWf

/-- The pending bitmap after the LCD drives PIC input `i` from `old` to `b` (rule R172): with the filter on, a drive that does
not change the line does not reach the PIC. -/
def driven (filter old b : Bool) (i : Fin 16) (level : Half) : Half :=
  if filter && old == b then level
  else if b then level ||| BitVec.twoPow 16 i.val
  else level &&& ~~~BitVec.twoPow 16 i.val

/-- The output events of entering line `L` (rule R176). -/
def lineEvents (L : Nat) : List DisplayEvent := .emitLine L :: if L = 159 then [.endOfFrame] else []

/-- A safe run of `k` steps: no fault and no refusal. -/
def safeRun (k : Nat) (s : State) : Prop := ∃ t, Host.Core.run ⟨State, Fault, Refusal, step, State.reset⟩ k s = .next t

/-- The regions' layout: everything but the backing bytes (rule R23). -/
def Region.layout (r : Region) : Region := { r with backing := [] }

end Sys2Proof.Machine
end

