-- ==== Sys2Proof/Certificates/Slice0/Obligations.lean ====
section
/-! DEFINITION. The statements for the provers. Each docstring names the rule or the model's own choice it formalises. A
statement about a next state gives the whole of it, so that it is the frame as well. -/

open Sys2Proof Sys2Proof.Machine

/-! ### Reset and build -/

/-- Rule R262: what the registers read at reset. -/
def Obligations.ResetRegisterReads : Prop :=
  readBack (.picRdIe .half) State.reset = some 0x0000#32 ∧
  readBack (.picRdIe .word) State.reset = some 0x00000000#32 ∧
  readBack (.picRdIf .half) State.reset = some 0x0000#32 ∧
  readBack (.picRdWaitcnt .half) State.reset = some 0x0000#32 ∧
  readBack (.picRdIme .half) State.reset = some 0x0001#32 ∧
  readBack (.lcdRdDispcnt .half) State.reset = some 0x0040#32 ∧
  readBack (.lcdRdDispstat .half) State.reset = some 0x0004#32 ∧
  readBack (.lcdRdVcount .half) State.reset = some 0x0000#32

/-- The model's choice (log entries 5 and 6), resting on rules R210 and R260: the build of the default parameters with empty
images ends in the reset state. -/
def Obligations.DefaultBuildGivesReset : Prop :=
  exec (.sysBuild Config.defaultParams) State.unbuilt = .next State.reset

/-- Rules R210 and R260: for parameters that are well formed and images that are present and fit, the build completes, and
what it leaves is the reset state: every PIC and LCD field, and for each entry of REGIONS a region of that layout, read-only
as the entry says, whose store reads as its image and then zeros, or as zeros. The reset values of the LCD are the spec's
decision D15 (log entry 12). -/
def Obligations.BuildReachesResetState : Prop :=
  ∀ (p : BuildParams) (bios rom : List Byte) (s : State), s.phase = .building →
    p.biosImage = some bios → p.romImage = some rom →
    (∀ r ∈ p.regions, wellFormedRegion r.start r.stop r.size r.skip = true) →
    (∀ r ∈ p.regions, (r.name = .bios → bios.length ≤ r.size) ∧ (r.name = .rom → rom.length ≤ r.size)) →
    (∀ r ∈ p.regions, r.readonly = true ↔ r.name = .bios ∨ r.name = .rom) →
    (p.regions.map RegionSpec.name).count .bios = 1 → (p.regions.map RegionSpec.name).count .rom = 1 →
    wellFormedMap (p.regions.map fun r => Region.blank r false) (Wiring.ofParams p s.wiring.edgeFilter) = true →
    p.vbLine ≠ p.hbLine → p.vbLine ≠ p.vmLine → p.hbLine ≠ p.vmLine →
    ∃ rs, exec (.sysBuild p) s = .next
        { phase := .running, regions := rs, out := s.out, input := s.input
          wiring := { picBase := p.picBase, lcdBase := p.lcdBase, stubs := p.stubs, vbLine := p.vbLine,
                      hbLine := p.hbLine, vmLine := p.vmLine, edgeFilter := s.wiring.edgeFilter }
          pic := { master := false, level := 0#16, irqEnabled := 0#16, waitcnt := 0#15, irqOut := false }
          lcd := { ly := 0, lyc := 0#8, hblank := false, irqVbEn := false, irqHbEn := false, irqVmEn := false,
                   bgMode := 0#3, bgm45Frame := false, hbIntvlFree := false, objVramMap2d := false,
                   forcedBlank := false, displayBg0 := false, displayBg1 := false, displayBg2 := false,
                   displayBg3 := false, displayObj := false, displayWnd0 := false, displayWnd1 := false,
                   displayOwnd := false, lineVb := false, lineHb := false, lineVm := false, deadline := 57221 } } ∧
      rs.map Region.layout = p.regions.map (fun r => Region.blank r r.readonly) ∧
      ∀ (i : Nat) (r : Region), rs[i]? = some r → r.backing.wf = true ∧
        ∀ o, r.backing.read o =
          if r.name = .bios then bios[o]?.getD 0#8 else if r.name = .rom then rom[o]?.getD 0#8 else 0#8

/-- Rules R123, R210 and R231: with every region well formed and a bios and a rom among them, an absent image aborts the build
with StartupFailure, the boot image first. -/
def Obligations.BuildWithoutImageFails : Prop :=
  ∀ (p : BuildParams) (s : State), s.phase = .building →
    (∀ r ∈ p.regions, wellFormedRegion r.start r.stop r.size r.skip = true) →
    (∃ r ∈ p.regions, r.name = .bios) → (∃ r ∈ p.regions, r.name = .rom) →
    (p.biosImage = none → exec (.sysBuild p) s = .fault (.startupFailure .bios)) ∧
    (∀ bios, p.biosImage = some bios → (∀ r ∈ p.regions, r.name = .bios → bios.length ≤ r.size) →
      p.romImage = none → exec (.sysBuild p) s = .fault (.startupFailure .rom))

/-- Rules R120 and R121: `create_mirrored_region` appends a zero-filled writable region when the five conditions hold, taken
over the integers, and is refused when one of them fails; conditions (c), (d) and (e) and the refusal are the spec's decision
D10 (log entry 19). -/
def Obligations.CreateRegionAppendsOrRefuses : Prop :=
  ∀ (name : RegionName) (start stop size skip : Nat) (s : State), s.phase = .building →
    (((0 : Int) < skip ∧ (size : Int) ≤ stop - start ∧ (0 : Int) < size ∧ (stop : Int) ≤ 2 ^ 32 ∧
        ((stop : Int) > start + size → (start : Int) + size ≤ stop - skip ∧ (stop : Int) - skip + size ≤ 2 ^ 32)) →
      exec (.sysCreateRegion name start stop size skip) s =
        .next (s.withRegions (s.regions ++
          [{ name := name, start := start, stop := stop, size := size, skip := skip, readonly := false, backing := [] }]))) ∧
    (¬ ((0 : Int) < skip ∧ (size : Int) ≤ stop - start ∧ (0 : Int) < size ∧ (stop : Int) ≤ 2 ^ 32 ∧
        ((stop : Int) > start + size → (start : Int) + size ≤ stop - skip ∧ (stop : Int) - skip + size ≤ 2 ^ 32)) →
      exec (.sysCreateRegion name start stop size skip) s = .refused .illFormedRegion)

/-- Rule R123: `load_image` writes the image at the start of the backing store of the region and leaves the bytes after it; an
absent image is StartupFailure, and one longer than the region is refused (the spec's decision D23, log entry 19). That a label means the first region that
bears it, others of the label allowed, is the model's choice (log entry 13). -/
def Obligations.LoadImageFillsRegion : Prop :=
  ∀ (name : RegionName) (i : Nat) (r : Region) (s : State), s.phase = .building →
    s.regions[i]? = some r → r.name = name → (∀ j r', j < i → s.regions[j]? = some r' → r'.name ≠ name) →
    r.backing.wf = true →
    (∀ bytes, bytes.length ≤ r.size →
      ∃ m, exec (.sysLoadImage name (some bytes)) s = .next (s.withRegions (s.regions.set i { r with backing := m })) ∧
        m.wf = true ∧ ∀ o, m.read o = if o < bytes.length then bytes[o]?.getD 0#8 else r.backing.read o) ∧
    (∀ bytes, r.size < bytes.length → exec (.sysLoadImage name (some bytes)) s = .refused .imageTooLong) ∧
    exec (.sysLoadImage name none) s = .fault (.startupFailure name)

/-- Rule R124: `mark_readonly` sets the attribute of the region and nothing else. That a label means the first region that bears
it, others of the label allowed, is the model's choice (log entry 13). -/
def Obligations.MarkReadonlySetsAttribute : Prop :=
  ∀ (name : RegionName) (i : Nat) (r : Region) (s : State), s.phase = .building →
    s.regions[i]? = some r → r.name = name → (∀ j r', j < i → s.regions[j]? = some r' → r'.name ≠ name) →
    exec (.sysMarkReadonly name) s = .next (s.withRegions (s.regions.set i { r with readonly := true }))

/-- The model's reading (log entry 7) of rules R10, R95 and R130: no operation of the running block is a build-time operation,
and none of its events occurs before the build. -/
def Obligations.PhasesExcludeEachOther : Prop :=
  (∀ (i : Instr) (s : State), phaseOf i = .building → s.phase = .running → exec i s = .refused .alreadyBuilt) ∧
  (∀ (i : Instr) (s : State), phaseOf i = .running → s.phase = .building → exec i s = .refused .notBuilt)

/-! ### Mirror Engine -/

/-- Rules R62 and R64: in a well-formed map (the spec's decision D29, log entry 19) at most one mapped range contains an
address. -/
def Obligations.WellFormedMapIsUnambiguous : Prop :=
  ∀ (rs : List Region) (w : Wiring), wellFormedMap rs w = true →
    ∀ (a i j : Nat) (x y : Nat × Nat), (mappedRanges rs w)[i]? = some x → (mappedRanges rs w)[j]? = some y →
      x.1 ≤ a ∧ a < x.2 → y.1 ≤ a ∧ a < y.2 → i = j

/-- Rule R64: in a well-formed map, what `Decode(addr)` gives for an address of each kind of range, and outside all of them. -/
def Obligations.DecodeFindsEachRange : Prop :=
  ∀ (s : State) (a : Nat), wellFormedMap s.regions s.wiring = true →
    (∀ i r, s.regions[i]? = some r → r.start ≤ a → a < r.start + r.size →
      decodeAddr s a = some ⟨.primary i, a - r.start⟩) ∧
    (∀ i r, s.regions[i]? = some r → r.start + r.size < r.stop → r.stop - r.skip ≤ a → a < r.stop - r.skip + r.size →
      decodeAddr s a = some ⟨.mirror i, a - (r.stop - r.skip)⟩) ∧
    (s.wiring.picBase ≤ a → a < s.wiring.picBase + 0x100 → decodeAddr s a = some ⟨.pic, a - s.wiring.picBase⟩) ∧
    (s.wiring.lcdBase ≤ a → a < s.wiring.lcdBase + 0x60 → decodeAddr s a = some ⟨.lcd, a - s.wiring.lcdBase⟩) ∧
    (∀ j w, s.wiring.stubs[j]? = some w → w.base ≤ a → a < w.base + w.size →
      decodeAddr s a = some ⟨.stub w.name j, a - w.base⟩) ∧
    ((∀ x ∈ mappedRanges s.regions s.wiring, ¬ (x.1 ≤ a ∧ a < x.2)) → decodeAddr s a = none)

/-- Rules R67 and R125: a read of 1, 2 or 4 bytes through the primary range or the alias of a region gives the little-endian
sum of the backing bytes, and changes no state. The byte order of memory is the spec's decision D7 (log entry 19). -/
def Obligations.MemoryReadGivesBackingBytes : Prop :=
  ∀ (s : State) (i : Nat) (r : Region) (base o : Nat), s.phase = .running →
    wellFormedMap s.regions s.wiring = true → s.regions[i]? = some r →
    base = r.start ∨ r.start + r.size < r.stop ∧ base = r.stop - r.skip →
    (o + 1 ≤ r.size → exec (.mrd8 (BitVec.ofNat 32 (base + o))) s =
      .next (s.withOut { s.out with result := some (BitVec.ofNat 32 (r.backing.read o).toNat) })) ∧
    (o + 2 ≤ r.size → exec (.mrd16 (BitVec.ofNat 32 (base + o))) s =
      .next (s.withOut { s.out with result := some (BitVec.ofNat 32
        ((r.backing.read o).toNat + 256 * (r.backing.read (o + 1)).toNat)) })) ∧
    (o + 4 ≤ r.size → exec (.mrd32 (BitVec.ofNat 32 (base + o))) s =
      .next (s.withOut { s.out with result := some (BitVec.ofNat 32
        ((r.backing.read o).toNat + 256 * (r.backing.read (o + 1)).toNat +
          65536 * (r.backing.read (o + 2)).toNat + 16777216 * (r.backing.read (o + 3)).toNat)) }))

/-- Rules R67, R77 and R126: a write through either range of a writable region stores its bytes little-endian at the backing
offset and leaves every other byte of the store, every other region and all other state as they were. The byte order of
memory is the spec's decision D7 (log entry 19). -/
def Obligations.MemoryWriteStoresBytes : Prop :=
  ∀ (s : State) (i : Nat) (r : Region) (base o : Nat), s.phase = .running →
    wellFormedMap s.regions s.wiring = true → s.regions[i]? = some r → r.readonly = false → r.backing.wf = true →
    base = r.start ∨ r.start + r.size < r.stop ∧ base = r.stop - r.skip →
    (∀ v : BitVec 8, o + 1 ≤ r.size →
      ∃ m, exec (.mwr8 (BitVec.ofNat 32 (base + o)) v) s = .next (s.withRegions (s.regions.set i { r with backing := m })) ∧
        m.wf = true ∧ ∀ a, m.read a = if a = o then v else r.backing.read a) ∧
    (∀ v : BitVec 16, o + 2 ≤ r.size →
      ∃ m, exec (.mwr16 (BitVec.ofNat 32 (base + o)) v) s = .next (s.withRegions (s.regions.set i { r with backing := m })) ∧
        m.wf = true ∧ ∀ a, m.read a =
          if o ≤ a ∧ a < o + 2 then BitVec.ofNat 8 (v.toNat / 256 ^ (a - o)) else r.backing.read a) ∧
    (∀ v : BitVec 32, o + 4 ≤ r.size →
      ∃ m, exec (.mwr32 (BitVec.ofNat 32 (base + o)) v) s = .next (s.withRegions (s.regions.set i { r with backing := m })) ∧
        m.wf = true ∧ ∀ a, m.read a =
          if o ≤ a ∧ a < o + 4 then BitVec.ofNat 8 (v.toNat / 256 ^ (a - o)) else r.backing.read a)

/-- Rules R80, R126 and R127: a write into a read-only region, through either of its ranges, is dropped: nothing changes and
nothing is logged. That the second range drops it too is the spec's decision D24 (log entry 19). -/
def Obligations.ReadOnlyWriteIsDropped : Prop :=
  ∀ (s : State) (i : Nat) (r : Region) (base o : Nat), s.phase = .running →
    wellFormedMap s.regions s.wiring = true → s.regions[i]? = some r → r.readonly = true →
    base = r.start ∨ r.start + r.size < r.stop ∧ base = r.stop - r.skip →
    (∀ v, o + 1 ≤ r.size → exec (.mwr8 (BitVec.ofNat 32 (base + o)) v) s = .next s) ∧
    (∀ v, o + 2 ≤ r.size → exec (.mwr16 (BitVec.ofNat 32 (base + o)) v) s = .next s) ∧
    (∀ v, o + 4 ≤ r.size → exec (.mwr32 (BitVec.ofNat 32 (base + o)) v) s = .next s)

/-- Rule R65: an access that no one mapped range holds whole (a hole, a straddling access, an access past the last address)
has the outcome `Unmapped` as a whole. That `Unmapped` is a fault is the model's choice (log entry 11). -/
def Obligations.AccessOutsideEveryRangeIsUnmapped : Prop :=
  ∀ (s : State) (addr : Addr), s.phase = .running →
    ((∀ x ∈ mappedRanges s.regions s.wiring, ¬ (x.1 ≤ addr.toNat ∧ addr.toNat + 1 ≤ x.2)) →
      exec (.mrd8 addr) s = .fault .unmapped ∧ ∀ v, exec (.mwr8 addr v) s = .fault .unmapped) ∧
    ((∀ x ∈ mappedRanges s.regions s.wiring, ¬ (x.1 ≤ addr.toNat ∧ addr.toNat + 2 ≤ x.2)) →
      exec (.mrd16 addr) s = .fault .unmapped ∧ ∀ v, exec (.mwr16 addr v) s = .fault .unmapped) ∧
    ((∀ x ∈ mappedRanges s.regions s.wiring, ¬ (x.1 ≤ addr.toNat ∧ addr.toNat + 4 ≤ x.2)) →
      exec (.mrd32 addr) s = .fault .unmapped ∧ ∀ v, exec (.mwr32 addr v) s = .fault .unmapped)

/-- Rule R128: a read and a write through the alias of a region do what the same access through the primary range does, in
every state and for every admitted width; a region whose `end` is `start + size` has no alias, and the address `end` is no
address of it. -/
def Obligations.AliasCoherence : Prop :=
  ∀ (s : State) (i : Nat) (r : Region), wellFormedMap s.regions s.wiring = true → s.regions[i]? = some r →
    (r.start + r.size < r.stop → ∀ o : Nat,
      (o + 1 ≤ r.size →
        exec (.mrd8 (BitVec.ofNat 32 (r.stop - r.skip + o))) s = exec (.mrd8 (BitVec.ofNat 32 (r.start + o))) s ∧
        ∀ v, exec (.mwr8 (BitVec.ofNat 32 (r.stop - r.skip + o)) v) s =
          exec (.mwr8 (BitVec.ofNat 32 (r.start + o)) v) s) ∧
      (o + 2 ≤ r.size →
        exec (.mrd16 (BitVec.ofNat 32 (r.stop - r.skip + o))) s = exec (.mrd16 (BitVec.ofNat 32 (r.start + o))) s ∧
        ∀ v, exec (.mwr16 (BitVec.ofNat 32 (r.stop - r.skip + o)) v) s =
          exec (.mwr16 (BitVec.ofNat 32 (r.start + o)) v) s) ∧
      (o + 4 ≤ r.size →
        exec (.mrd32 (BitVec.ofNat 32 (r.stop - r.skip + o))) s = exec (.mrd32 (BitVec.ofNat 32 (r.start + o))) s ∧
        ∀ v, exec (.mwr32 (BitVec.ofNat 32 (r.stop - r.skip + o)) v) s =
          exec (.mwr32 (BitVec.ofNat 32 (r.start + o)) v) s)) ∧
    (r.stop = r.start + r.size → ∀ x, decodeAddr s r.stop = some x → x.range ≠ .primary i ∧ x.range ≠ .mirror i) ∧
    (r.stop = r.start + r.size → ∀ a x, decodeAddr s a = some x → x.range ≠ .mirror i)

/-- Rules R68, R84 and R128: a word written through either range of a writable region is read back through either range, and a
half-word read at the next address sees its two middle bytes. -/
def Obligations.WrittenWordReadsBack : Prop :=
  ∀ (s t : State) (i : Nat) (r : Region) (o : Nat) (base base' : Nat) (v : Word), s.phase = .running →
    wellFormedMap s.regions s.wiring = true → s.regions[i]? = some r → r.readonly = false → r.backing.wf = true →
    o + 4 ≤ r.size →
    base = r.start ∨ r.start + r.size < r.stop ∧ base = r.stop - r.skip →
    base' = r.start ∨ r.start + r.size < r.stop ∧ base' = r.stop - r.skip →
    exec (.mwr32 (BitVec.ofNat 32 (base + o)) v) s = .next t →
    readBack (.mrd32 (BitVec.ofNat 32 (base' + o))) t = some v ∧
    readBack (.mrd16 (BitVec.ofNat 32 (base' + (o + 1)))) t = some (v >>> 8 &&& 0xFFFF#32)

/-! ### Interrupt controller -/

/-- Rules R141 and R142: the input line sets or clears its own pending bit, the output is recomputed, and nothing else changes. -/
def Obligations.InputLineMovesItsPendingBit : Prop :=
  ∀ (i : Fin 16) (b : Bool) (s : State), s.phase = .running →
    ∃ level, exec (.picLine i b) s = .next (s.withPic { s.pic with
        level := level, irqOut := s.pic.master && (level &&& s.pic.irqEnabled) != 0#16 }) ∧
      ∀ j : Fin 16, level.getLsbD j.val = if j = i then b else s.pic.level.getLsbD j.val

/-- Rules R145 to R148: the value of each PIC register read at each width, and that nothing but the outputs changes. -/
def Obligations.PicRegisterReads : Prop :=
  ∀ (n : Size) (s : State), s.phase = .running →
    exec (.picRdIe n) s = .next (s.withOut { s.out with result := some (
      match n with
      | .byte => s.pic.irqEnabled.setWidth 32 &&& 0xFF#32
      | .half => s.pic.irqEnabled.setWidth 32
      | .word => s.pic.level ++ s.pic.irqEnabled) }) ∧
    exec (.picRdIf n) s = .next (s.withOut { s.out with
      result := some (
        match n with
        | .byte => s.pic.level.setWidth 32 &&& 0xFF#32
        | .half => s.pic.level.setWidth 32
        | .word => s.pic.level.setWidth 32)
      diags := s.out.diags ++ if n = .word then [.oversizedAccess .pic .read 0x02 .word] else [] }) ∧
    exec (.picRdWaitcnt n) s = .next (s.withOut { s.out with result := some (
      match n with
      | .byte => s.pic.waitcnt.setWidth 32 &&& 0xFF#32
      | .half => s.pic.waitcnt.setWidth 32
      | .word => s.pic.waitcnt.setWidth 32) }) ∧
    exec (.picRdIme n) s = .next (s.withOut { s.out with result := some (if s.pic.master then 0#32 else 1#32) })

/-- Rules R149 and R155: an access at an unlisted offset of the PIC window gives 0 or does nothing, with one record. -/
def Obligations.PicUnknownOffsets : Prop :=
  ∀ (off : BitVec 8) (n : Size) (v : Word) (s : State), s.phase = .running → picListed off = false →
    off.toNat + n.bytes ≤ 0x100 →
      exec (.picRdUnknown off n) s = .next (s.withOut { s.out with
        result := some 0#32, diags := s.out.diags ++ [.unimplementedRegister .pic .read off.toNat n] }) ∧
      exec (.picWrUnknown off n v) s = .next (s.withOut { s.out with
        diags := s.out.diags ++ [.unimplementedRegister .pic .write off.toNat n] })

/-- Rules R150 and R151: a write at IE replaces the whole mask, a four-byte one also acknowledges IF with its upper half, and the
output is recomputed once from the two. -/
def Obligations.IeWriteSetsMaskAndAcknowledges : Prop :=
  ∀ (n : Size) (v : Word) (s : State), s.phase = .running → n.fits v = true →
    exec (.picWrIe n v) s =
      (let level := if n = .word then s.pic.level &&& ~~~((v >>> 16).setWidth 16) else s.pic.level
       .next (s.withPic { s.pic with
          irqEnabled := v.setWidth 16, level := level
          irqOut := s.pic.master && (level &&& v.setWidth 16) != 0#16 }))

/-- Rule R152: a write at IF clears exactly the bits it names among the low 16, and recomputes the output. -/
def Obligations.IfWriteClearsNamedBits : Prop :=
  ∀ (n : Size) (v : Word) (s : State), s.phase = .running → n.fits v = true →
    ∃ level, exec (.picWrIf n v) s = .next { s with
        pic := { s.pic with level := level, irqOut := s.pic.master && (level &&& s.pic.irqEnabled) != 0#16 }
        out := { s.out with
          diags := s.out.diags ++ if n = .word then [.oversizedAccess .pic .write 0x02 .word] else [] } } ∧
      ∀ j : Fin 16, level.getLsbD j.val = (s.pic.level.getLsbD j.val && !v.getLsbD j.val)

/-- Rules R150 and R153: a write at WAITCNT stores bits 14:0 of the value and changes nothing else, but that the output is
recomputed. -/
def Obligations.WaitcntWriteStoresFifteenBits : Prop :=
  ∀ (n : Size) (v : Word) (s : State), s.phase = .running → n.fits v = true →
    exec (.picWrWaitcnt n v) s = .next (s.withPic { s.pic with
      waitcnt := v.setWidth 15, irqOut := s.pic.master && (s.pic.level &&& s.pic.irqEnabled) != 0#16 })

/-- Rule R154: a write at IME stores the inverse of bit 0 in the master enable and recomputes the output at once. -/
def Obligations.ImeWriteInvertsBitZero : Prop :=
  ∀ (n : Size) (v : Word) (s : State), s.phase = .running → n.fits v = true →
    exec (.picWrIme n v) s = .next (s.withPic { s.pic with
      master := decide (v.toNat % 2 = 0)
      irqOut := decide (v.toNat % 2 = 0) && (s.pic.level &&& s.pic.irqEnabled) != 0#16 })

/-- Rules R30 and R156: after every event the output is `master && (level & irq_enabled) != 0`. -/
def Obligations.EveryStepKeepsOutputAggregated : Prop :=
  ∀ s s' : State, s.pic.irqOut = (s.pic.master && (s.pic.level &&& s.pic.irqEnabled) != 0#16) → step s = .next s' →
    s'.pic.irqOut = (s'.pic.master && (s'.pic.level &&& s'.pic.irqEnabled) != 0#16)

/-- Rules R26 to R29: what writes each PIC field. Any other operation of the running block leaves it as it was. -/
def Obligations.PicFieldsHaveTheirWriters : Prop :=
  ∀ (i : Instr) (s t : State), s.phase = .running → exec i s = .next t →
    ((∀ n v, i ≠ .picWrIme n v) → t.pic.master = s.pic.master) ∧
    ((∀ n v, i ≠ .picWrIe n v) → t.pic.irqEnabled = s.pic.irqEnabled) ∧
    ((∀ n v, i ≠ .picWrWaitcnt n v) → t.pic.waitcnt = s.pic.waitcnt) ∧
    ((∀ k b, i ≠ .picLine k b) → (∀ n v, i ≠ .picWrIf n v) → (∀ v, i ≠ .picWrIe .word v) → i ≠ .lcdTick →
      t.pic.level = s.pic.level)

/-! ### Display controller -/

/-- Rules R171, R172, R176 and R177: a firing that ends a draw phase enters h-blank, drives the H-blank line, re-arms by `Th`,
emits nothing and changes nothing else. The model holds output events in State (log entry 8). -/
def Obligations.TickEntersHblank : Prop :=
  ∀ s : State, s.phase = .running → s.lcd.hblank = false →
    s.pic.irqOut = (s.pic.master && (s.pic.level &&& s.pic.irqEnabled) != 0#16) →
    exec .lcdTick s =
      (let level := driven s.wiring.edgeFilter s.lcd.lineHb s.lcd.irqHbEn s.wiring.hbLine s.pic.level
       .next { s with
         lcd := { s.lcd with hblank := true, lineHb := s.lcd.irqHbEn, deadline := s.lcd.deadline + 16212 }
         pic := { s.pic with level := level, irqOut := s.pic.master && (level &&& s.pic.irqEnabled) != 0#16 } })

/-- Rules R171 to R174, R176 and R177: a firing that ends an h-blank phase enters the next line, drives the V-blank, the
V-counter-match and the H-blank line in that order, emits the line (and after line 159 the end of the frame), re-arms by `Td`
and changes nothing else. -/
def Obligations.TickEntersNextLine : Prop :=
  ∀ s : State, s.phase = .running → s.lcd.hblank = true →
    s.pic.irqOut = (s.pic.master && (s.pic.level &&& s.pic.irqEnabled) != 0#16) →
    exec .lcdTick s =
      (let L := (s.lcd.ly + 1) % 228
       let vb := s.lcd.irqVbEn && decide (160 ≤ L)
       let vm := s.lcd.irqVmEn && L == s.lcd.lyc.toNat
       let level := driven s.wiring.edgeFilter s.lcd.lineHb false s.wiring.hbLine
         (driven s.wiring.edgeFilter s.lcd.lineVm vm s.wiring.vmLine
           (driven s.wiring.edgeFilter s.lcd.lineVb vb s.wiring.vbLine s.pic.level))
       .next { s with
         lcd := { s.lcd with
           ly := L, hblank := false, lineVb := vb, lineVm := vm, lineHb := false, deadline := s.lcd.deadline + 57221 }
         pic := { s.pic with level := level, irqOut := s.pic.master && (level &&& s.pic.irqEnabled) != 0#16 }
         out := { s.out with display := s.out.display ++ lineEvents L } })

/-- Rules R174 and R234, for `EDGE_FILTER = false`: on entering a line the three pending bits of the LCD become the values of
its lines, so that a request is withdrawn unacknowledged, and no other pending bit changes. -/
def Obligations.LineEntryDrivesThreePendingBits : Prop :=
  ∀ s t : State, s.lcd.hblank = true → s.wiring.edgeFilter = false → s.wiring.linesDistinct = true →
    exec .lcdTick s = .next t →
    t.pic.level.getLsbD s.wiring.vbLine.val = (s.lcd.irqVbEn && decide (160 ≤ (s.lcd.ly + 1) % 228)) ∧
    t.pic.level.getLsbD s.wiring.vmLine.val = (s.lcd.irqVmEn && (s.lcd.ly + 1) % 228 == s.lcd.lyc.toNat) ∧
    t.pic.level.getLsbD s.wiring.hbLine.val = false ∧
    ∀ j : Fin 16, j ≠ s.wiring.vbLine → j ≠ s.wiring.vmLine → j ≠ s.wiring.hbLine →
      t.pic.level.getLsbD j.val = s.pic.level.getLsbD j.val

/-- Rules R170, R176 and R178, with no other event (log entry 4): from the draw phase of any line, `2k` firings advance the scan
by `k` lines, wrapping at 228, take `73433 k` time units and issue the output events of the lines entered, in order. For
k = 228 the position comes back. -/
def Obligations.RunOfLinesFollowsSchedule : Prop :=
  ∀ (k : Nat) (s : State), s.phase = .running → s.input = [] → s.lcd.hblank = false → s.lcd.ly < 228 →
    ∃ t, Host.Core.run Sys2Proof.core (2 * k) s = .next t ∧
      t.phase = .running ∧ t.input = [] ∧ t.lcd.hblank = false ∧ t.lcd.ly = (s.lcd.ly + k) % 228 ∧
      t.lcd.deadline = s.lcd.deadline + 73433 * k ∧
      t.out.display = s.out.display ++ (List.range k).flatMap fun j => lineEvents ((s.lcd.ly + j + 1) % 228)

/-- Rule R174, with no other event (log entry 4): after any number `k + 1` of whole lines the V-blank line is high exactly on
lines 160 to 227 and the match line exactly on the line equal to `lyc`, each if it is enabled. -/
def Obligations.LinesFollowTheScan : Prop :=
  ∀ (k : Nat) (s : State), s.phase = .running → s.input = [] → s.lcd.hblank = false → s.lcd.ly < 228 →
    ∃ t, Host.Core.run Sys2Proof.core (2 * (k + 1)) s = .next t ∧
      (t.lcd.lineVb = true ↔ s.lcd.irqVbEn = true ∧ 160 ≤ (s.lcd.ly + k + 1) % 228) ∧
      (t.lcd.lineVm = true ↔ s.lcd.irqVmEn = true ∧ (s.lcd.ly + k + 1) % 228 = s.lcd.lyc.toNat) ∧
      t.lcd.lineHb = false

/-- Rule R180: each bit of a DISPCNT read, at each width, and that nothing but the result changes. -/
def Obligations.DispcntReadPacksFields : Prop :=
  ∀ (n : Size) (s : State), s.phase = .running →
    ∃ w : Word, exec (.lcdRdDispcnt n) s = .next (s.withOut { s.out with result := some w }) ∧
      ∀ j, w.getLsbD j = (decide (j < 8 * n.bytes) &&
        match j with
        | 0 => s.lcd.bgMode.getLsbD 0
        | 1 => s.lcd.bgMode.getLsbD 1
        | 2 => s.lcd.bgMode.getLsbD 2
        | 4 => s.lcd.bgm45Frame
        | 5 => s.lcd.hbIntvlFree
        | 6 => !s.lcd.objVramMap2d
        | 7 => s.lcd.forcedBlank
        | 8 => s.lcd.displayBg0
        | 9 => s.lcd.displayBg1
        | 10 => s.lcd.displayBg2
        | 11 => s.lcd.displayBg3
        | 12 => s.lcd.displayObj
        | 13 => s.lcd.displayWnd0
        | 14 => s.lcd.displayWnd1
        | 15 => s.lcd.displayOwnd
        | _ => false)

/-- Rules R38 and R181: each bit of a DISPSTAT read, at each width, the record of a four-byte one, and that nothing else
changes. -/
def Obligations.DispstatReadPacksStatus : Prop :=
  ∀ (n : Size) (s : State), s.phase = .running →
    ∃ w : Word, exec (.lcdRdDispstat n) s = .next (s.withOut { s.out with
        result := some w
        diags := s.out.diags ++ if n = .word then [.oversizedAccess .lcd .read 0x04 .word] else [] }) ∧
      ∀ j, w.getLsbD j = (decide (j < 8 * n.bytes) &&
        match j with
        | 0 => decide (160 ≤ s.lcd.ly ∧ s.lcd.ly ≤ 226)
        | 1 => s.lcd.hblank
        | 2 => decide (s.lcd.ly = s.lcd.lyc.toNat)
        | 3 => s.lcd.irqVbEn
        | 4 => s.lcd.irqHbEn
        | 5 => s.lcd.irqVmEn
        | 6 => false
        | 7 => false
        | j + 8 => s.lcd.lyc.getLsbD j)

/-- Rule R182: a VCOUNT read gives the current line, which the invariant keeps below 228, at every width. -/
def Obligations.VcountReadGivesLine : Prop :=
  ∀ (n : Size) (s : State), s.phase = .running → s.lcd.ly < 228 →
    exec (.lcdRdVcount n) s = .next (s.withOut { s.out with
      result := some (BitVec.ofNat 32 s.lcd.ly)
      diags := s.out.diags ++ if n = .word then [.oversizedAccess .lcd .read 0x06 .word] else [] })

/-- Rules R183 and R188: an access at an unlisted offset of the LCD window gives 0 or does nothing, with one record; 0x05 is
unlisted for reads only. -/
def Obligations.LcdUnknownOffsets : Prop :=
  ∀ (off : BitVec 7) (n : Size) (v : Word) (s : State), s.phase = .running → off.toNat + n.bytes ≤ 0x60 →
    (lcdReadListed off = false → exec (.lcdRdUnknown off n) s = .next (s.withOut { s.out with
      result := some 0#32, diags := s.out.diags ++ [.unimplementedRegister .lcd .read off.toNat n] })) ∧
    (lcdWriteListed off = false → exec (.lcdWrUnknown off n v) s = .next (s.withOut { s.out with
      diags := s.out.diags ++ [.unimplementedRegister .lcd .write off.toNat n] }))

/-- Rules R150 and R184: a DISPCNT write sets every display-mode field from the value at every width, and nothing else. -/
def Obligations.DispcntWriteSetsFields : Prop :=
  ∀ (n : Size) (v : Word) (s : State), s.phase = .running → n.fits v = true →
    exec (.lcdWrDispcnt n v) s = .next (s.withLcd { s.lcd with
      bgMode := v.setWidth 3, bgm45Frame := v.getLsbD 4, hbIntvlFree := v.getLsbD 5, objVramMap2d := !v.getLsbD 6
      forcedBlank := v.getLsbD 7, displayBg0 := v.getLsbD 8, displayBg1 := v.getLsbD 9, displayBg2 := v.getLsbD 10
      displayBg3 := v.getLsbD 11, displayObj := v.getLsbD 12, displayWnd0 := v.getLsbD 13, displayWnd1 := v.getLsbD 14
      displayOwnd := v.getLsbD 15 })

/-- Rules R100, R180 and R184: what a half-word written to DISPCNT reads back as: itself, but for bit 3. -/
def Obligations.DispcntReadsBackWrite : Prop :=
  ∀ (v : Word) (s t : State), Size.half.fits v = true → exec (.lcdWrDispcnt .half v) s = .next t →
    readBack (.lcdRdDispcnt .half) t = some (v &&& 0xFFF7#32)

/-- Rules R97 and R185: a DISPSTAT write sets the three enables, and `lyc` unless it is one byte wide; it drives no line. -/
def Obligations.DispstatWriteSetsEnables : Prop :=
  ∀ (n : Size) (v : Word) (s : State), s.phase = .running → n.fits v = true →
    exec (.lcdWrDispstat n v) s = .next { s with
      lcd := { s.lcd with
        irqVbEn := v.getLsbD 3, irqHbEn := v.getLsbD 4, irqVmEn := v.getLsbD 5
        lyc := if n = .byte then s.lcd.lyc else (v >>> 8).setWidth 8 }
      out := { s.out with
        diags := s.out.diags ++ if n = .word then [.oversizedAccess .lcd .write 0x04 .word] else [] } }

/-- Rules R74, R186 and R187: a write at LYC sets `lyc` from the low byte, a write at VCOUNT is accepted and ignored; each is
flagged when it is wider than its register; the one-byte width of LYC is the spec's decision D5 (log entry 19). -/
def Obligations.LycAndVcountWrites : Prop :=
  ∀ (n : Size) (v : Word) (s : State), s.phase = .running → n.fits v = true →
    exec (.lcdWrLyc n v) s = .next { s with
      lcd := { s.lcd with lyc := v.setWidth 8 }
      out := { s.out with
        diags := s.out.diags ++ if n = .byte then [] else [.oversizedAccess .lcd .write 0x05 n] } } ∧
    exec (.lcdWrVcount n v) s = .next (s.withOut { s.out with
        diags := s.out.diags ++ if n = .word then [.oversizedAccess .lcd .write 0x06 .word] else [] })

/-- Rules R21, R189 and R191: no operation of the running block but the firing moves the scan, the deadline or an output line. -/
def Obligations.OnlyTickMovesTheScan : Prop :=
  ∀ (i : Instr) (s t : State), s.phase = .running → i ≠ .lcdTick → exec i s = .next t →
    t.lcd.ly = s.lcd.ly ∧ t.lcd.hblank = s.lcd.hblank ∧ t.lcd.deadline = s.lcd.deadline ∧
    t.lcd.lineVb = s.lcd.lineVb ∧ t.lcd.lineHb = s.lcd.lineHb ∧ t.lcd.lineVm = s.lcd.lineVm ∧
    t.out.display = s.out.display

/-- Rules R32, R34 and R35: what writes the enables, `lyc` and the display-mode fields of the LCD. -/
def Obligations.LcdFieldsHaveTheirWriters : Prop :=
  ∀ (i : Instr) (s t : State), s.phase = .running → exec i s = .next t →
    ((∀ n v, i ≠ .lcdWrDispstat n v) →
      t.lcd.irqVbEn = s.lcd.irqVbEn ∧ t.lcd.irqHbEn = s.lcd.irqHbEn ∧ t.lcd.irqVmEn = s.lcd.irqVmEn) ∧
    ((∀ n v, n ≠ .byte → i ≠ .lcdWrDispstat n v) → (∀ n v, i ≠ .lcdWrLyc n v) → t.lcd.lyc = s.lcd.lyc) ∧
    ((∀ n v, i ≠ .lcdWrDispcnt n v) →
      t.lcd.bgMode = s.lcd.bgMode ∧ t.lcd.bgm45Frame = s.lcd.bgm45Frame ∧ t.lcd.hbIntvlFree = s.lcd.hbIntvlFree ∧
      t.lcd.objVramMap2d = s.lcd.objVramMap2d ∧ t.lcd.forcedBlank = s.lcd.forcedBlank ∧
      t.lcd.displayBg0 = s.lcd.displayBg0 ∧ t.lcd.displayBg1 = s.lcd.displayBg1 ∧
      t.lcd.displayBg2 = s.lcd.displayBg2 ∧ t.lcd.displayBg3 = s.lcd.displayBg3 ∧
      t.lcd.displayObj = s.lcd.displayObj ∧ t.lcd.displayWnd0 = s.lcd.displayWnd0 ∧
      t.lcd.displayWnd1 = s.lcd.displayWnd1 ∧ t.lcd.displayOwnd = s.lcd.displayOwnd)

/-! ### Stubs -/

/-- Rule R214: at every offset of a stub window a read gives 0 and a write does nothing, each with one record. -/
def Obligations.StubAccesses : Prop :=
  ∀ (name : StubName) (off : Nat) (n : Size) (v : Word) (s : State), s.phase = .running →
    (∃ w ∈ s.wiring.stubs, w.name = name ∧ off + n.bytes ≤ w.size) →
      exec (.stubRd name off n) s = .next (s.withOut { s.out with
        result := some 0#32, diags := s.out.diags ++ [.unimplementedRegister (.stub name) .read off n] }) ∧
      exec (.stubWr name off n v) s = .next (s.withOut { s.out with
        diags := s.out.diags ++ [.unimplementedRegister (.stub name) .write off n] })

/-- Rule R65: an access that leaves the window it starts in is `Unmapped` as a whole, in the PIC window, the LCD window and
every stub window. That `Unmapped` is a fault is the model's choice (log entry 11). -/
def Obligations.AccessPastWindowEndIsUnmapped : Prop :=
  ∀ (n : Size) (v : Word) (s : State), s.phase = .running →
    (∀ off : BitVec 8, 0x100 < off.toNat + n.bytes →
      exec (.picRdUnknown off n) s = .fault .unmapped ∧ exec (.picWrUnknown off n v) s = .fault .unmapped) ∧
    (∀ off : BitVec 7, 0x60 < off.toNat + n.bytes →
      exec (.lcdRdUnknown off n) s = .fault .unmapped ∧ exec (.lcdWrUnknown off n v) s = .fault .unmapped) ∧
    (∀ (name : StubName) (off : Nat), (∀ w ∈ s.wiring.stubs, w.name = name → w.size < off + n.bytes) →
      exec (.stubRd name off n) s = .fault .unmapped ∧ exec (.stubWr name off n v) s = .fault .unmapped)

/-! ### Rules over all operations -/

/-- Rule R76: no read, of memory or of any register, changes any state; it gives a result and at most a record. -/
def Obligations.ReadsChangeNoState : Prop :=
  ∀ (i : Instr) (s t : State), s.phase = .running → exec i s = .next t →
    ((∃ a, i = .mrd8 a) ∨ (∃ a, i = .mrd16 a) ∨ (∃ a, i = .mrd32 a) ∨
      (∃ n, i = .picRdIe n) ∨ (∃ n, i = .picRdIf n) ∨ (∃ n, i = .picRdWaitcnt n) ∨ (∃ n, i = .picRdIme n) ∨
      (∃ o n, i = .picRdUnknown o n) ∨
      (∃ n, i = .lcdRdDispcnt n) ∨ (∃ n, i = .lcdRdDispstat n) ∨ (∃ n, i = .lcdRdVcount n) ∨
      (∃ o n, i = .lcdRdUnknown o n) ∨ (∃ m o n, i = .stubRd m o n)) →
    ∃ (r : Word) (ds : List Diag), t = s.withOut { s.out with result := some r, diags := s.out.diags ++ ds }

/-- Rule R237: no access logs more than one diagnostic, and the log only grows. -/
def Obligations.AtMostOneDiagnostic : Prop :=
  ∀ (i : Instr) (s t : State), exec i s = .next t →
    t.out.diags = s.out.diags ∨ ∃ d, t.out.diags = s.out.diags ++ [d]

/-- Rules R23, R79 and R130: no step of the running block creates, removes or remaps a region, changes a read-only attribute
or moves a window. That it does not end the running phase is the model's reading (log entry 7). -/
def Obligations.StepKeepsTheMap : Prop :=
  ∀ s s' : State, s.phase = .running → step s = .next s' →
    s'.phase = .running ∧ s'.wiring = s.wiring ∧ s'.regions.map Region.layout = s.regions.map Region.layout

/-- Rules R77 and R80: no step of the running block changes the bytes of a read-only region, and a step whose operation is no
memory write changes no region at all. -/
def Obligations.OnlyMemoryWritesChangeMemory : Prop :=
  (∀ s s' : State, s.phase = .running → step s = .next s' →
    ∀ (i : Nat) (r : Region), s.regions[i]? = some r → r.readonly = true → s'.regions[i]? = some r) ∧
  (∀ (i : Instr) (s t : State), s.phase = .running → exec i s = .next t →
    (∀ a v, i ≠ .mwr8 a v) → (∀ a v, i ≠ .mwr16 a v) → (∀ a v, i ≠ .mwr32 a v) → t.regions = s.regions)

/-- Rule R15 (the model holds the outputs in State, log entry 8): nothing reads the outputs. Whatever has been given out
before, an operation does the same and gives out the same, its read result and its records included, and stops for the same
reason where it stops. -/
def Obligations.OutputsAreNeverRead : Prop :=
  ∀ (i : Instr) (s : State) (o : Outputs),
    (∀ t, exec i s = .next t →
      ∃ t', exec i (s.withOut o) = .next t' ∧ t'.withOut t.out = t ∧
        ((∃ w, t.out.result = some w ∧ t'.out.result = some w) ∨
          (t.out.result = s.out.result ∧ t'.out.result = o.result)) ∧
        ∃ ds es, t.out.diags = s.out.diags ++ ds ∧ t'.out.diags = o.diags ++ ds ∧
          t.out.display = s.out.display ++ es ∧ t'.out.display = o.display ++ es) ∧
    (∀ e, exec i s = .fault e → exec i (s.withOut o) = .fault e) ∧
    (∀ e, exec i s = .refused e → exec i (s.withOut o) = .refused e)

/-- Rule R29: WAITCNT has no effect on any other state or signal. An operation that does not read it does the same whatever it
holds. -/
def Obligations.WaitcntIsOpaque : Prop :=
  ∀ (i : Instr) (s t : State) (w : BitVec 15), s.phase = .running → (∀ n, i ≠ .picRdWaitcnt n) → exec i s = .next t →
    ∃ w', exec i (s.withPic { s.pic with waitcnt := w }) = .next (t.withPic { t.pic with waitcnt := w' })

/-! ### Encoding and events -/

/-- Rules R90 to R95 (the layout is the model's own, log entry 1): every well-formed operation decodes to itself from its bytes,
whatever follows, and so does every bus access. -/
def Obligations.DecodeEncodeRoundTrip : Prop :=
  (∀ (i : Instr) (rest : List Byte), i.wellFormed = true → decode (encode i ++ rest) = .ok (.op i, rest)) ∧
  (∀ (a : BusAccess) (rest : List Byte), a.wellFormed = true → decode (encodeAccess a ++ rest) = .ok (.access a, rest))

/-- Rules R91, R92 and R105 (the layout is the model's own, log entry 1): whatever bytes decode to is well formed, and some bytes
are taken. -/
def Obligations.DecodeGivesWellFormed : Prop :=
  ∀ (bs rest : List Byte),
    (∀ i, decode bs = .ok (.op i, rest) → i.wellFormed = true ∧ ∃ used, used ≠ [] ∧ bs = used ++ rest) ∧
    (∀ a, decode bs = .ok (.access a, rest) → a.wellFormed = true ∧ ∃ used, used ≠ [] ∧ bs = used ++ rest)

/-- Rules R92, R93 and R110 (the layout is the model's own, log entry 1): words written out from the select keys decode to the
operations they stand for. -/
def Obligations.SampleKeysDecode : Prop :=
  decode [0x00#8, 0x13#8, 0x04#8, 0x00#8] = .ok (.op (.picWrIe .half 0x0004#32), []) ∧
  decode [0x02#8, 0x12#8] = .ok (.op (.picRdIf .half), []) ∧
  decode [0x84#8, 0x22#8, 0x08#8, 0x00#8] = .ok (.op (.lcdWrDispstat .half 0x0008#32), []) ∧
  decode [0x05#8, 0x40#8] = .ok (.op (.picLine 2 true), []) ∧
  decode [0x00#8, 0x50#8] = .ok (.op .lcdTick, []) ∧
  decode [0x02#8, 0x00#8, 0x10#8, 0x10#8, 0x00#8, 0x00#8] = .ok (.op (.mrd32 0x00001010#32), [])

/-- One step is one whole event (rules R10 and R81). The rest is the model's choice: that the events are bytes, that the
operation standing first in them is the one that runs, that the bytes it took are gone and that bytes which are no operation
are refused with the reason (log entry 1; a refusal at the boundary, as rule R108 has it), and that with nothing in the input
the LCD timer fires (log entry 4). -/
def Obligations.StepRunsTheNextEvent : Prop :=
  ∀ s : State,
    (∀ i rest, s.input ≠ [] → decode s.input = .ok (.op i, rest) → step s = exec i (s.withInput rest)) ∧
    (∀ e, s.input ≠ [] → decode s.input = .error e → step s = .refused (.undecodable e)) ∧
    (s.input = [] → step s = exec .lcdTick s)

/-- Rules R92 and R212: a bus access inside the PIC window performs the operation its direction and exact offset select. -/
def Obligations.BusAccessSelectsPicRegister : Prop :=
  ∀ (s : State) (rest : List Byte) (addr : Addr) (n : Size) (off : Nat), s.phase = .running →
    wellFormedMap s.regions s.wiring = true → s.input ≠ [] →
    addr.toNat = s.wiring.picBase + off → off + n.bytes ≤ 0x100 →
    (decode s.input = .ok (.access (.read addr n), rest) →
      (off = 0x00 → step s = exec (.picRdIe n) (s.withInput rest)) ∧
      (off = 0x02 → step s = exec (.picRdIf n) (s.withInput rest)) ∧
      (off = 0x04 → step s = exec (.picRdWaitcnt n) (s.withInput rest)) ∧
      (off = 0x08 → step s = exec (.picRdIme n) (s.withInput rest)) ∧
      (off ≠ 0x00 → off ≠ 0x02 → off ≠ 0x04 → off ≠ 0x08 →
        step s = exec (.picRdUnknown (BitVec.ofNat 8 off) n) (s.withInput rest))) ∧
    (∀ v, decode s.input = .ok (.access (.write addr n v), rest) →
      (off = 0x00 → step s = exec (.picWrIe n v) (s.withInput rest)) ∧
      (off = 0x02 → step s = exec (.picWrIf n v) (s.withInput rest)) ∧
      (off = 0x04 → step s = exec (.picWrWaitcnt n v) (s.withInput rest)) ∧
      (off = 0x08 → step s = exec (.picWrIme n v) (s.withInput rest)) ∧
      (off ≠ 0x00 → off ≠ 0x02 → off ≠ 0x04 → off ≠ 0x08 →
        step s = exec (.picWrUnknown (BitVec.ofNat 8 off) n v) (s.withInput rest)))

/-- Rules R92 and R212: a bus access inside the LCD window performs the operation its direction and exact offset select. -/
def Obligations.BusAccessSelectsLcdRegister : Prop :=
  ∀ (s : State) (rest : List Byte) (addr : Addr) (n : Size) (off : Nat), s.phase = .running →
    wellFormedMap s.regions s.wiring = true → s.input ≠ [] →
    addr.toNat = s.wiring.lcdBase + off → off + n.bytes ≤ 0x60 →
    (decode s.input = .ok (.access (.read addr n), rest) →
      (off = 0x00 → step s = exec (.lcdRdDispcnt n) (s.withInput rest)) ∧
      (off = 0x04 → step s = exec (.lcdRdDispstat n) (s.withInput rest)) ∧
      (off = 0x06 → step s = exec (.lcdRdVcount n) (s.withInput rest)) ∧
      (off ≠ 0x00 → off ≠ 0x04 → off ≠ 0x06 →
        step s = exec (.lcdRdUnknown (BitVec.ofNat 7 off) n) (s.withInput rest))) ∧
    (∀ v, decode s.input = .ok (.access (.write addr n v), rest) →
      (off = 0x00 → step s = exec (.lcdWrDispcnt n v) (s.withInput rest)) ∧
      (off = 0x04 → step s = exec (.lcdWrDispstat n v) (s.withInput rest)) ∧
      (off = 0x05 → step s = exec (.lcdWrLyc n v) (s.withInput rest)) ∧
      (off = 0x06 → step s = exec (.lcdWrVcount n v) (s.withInput rest)) ∧
      (off ≠ 0x00 → off ≠ 0x04 → off ≠ 0x05 → off ≠ 0x06 →
        step s = exec (.lcdWrUnknown (BitVec.ofNat 7 off) n v) (s.withInput rest)))

/-- Rules R65 and R212: a bus access inside a range of a region performs the memory operation of its width, one inside a stub
window the stub operation, and one that no mapped range holds whole is `Unmapped`, which is a fault by the model's choice
(log entry 11). -/
def Obligations.BusAccessReachesMemoryOrStub : Prop :=
  ∀ (s : State) (rest : List Byte) (addr : Addr) (n : Size), s.phase = .running →
    wellFormedMap s.regions s.wiring = true → s.input ≠ [] →
    ((∃ r ∈ s.regions, (r.start ≤ addr.toNat ∧ addr.toNat + n.bytes ≤ r.start + r.size) ∨
        (r.start + r.size < r.stop ∧ r.stop - r.skip ≤ addr.toNat ∧ addr.toNat + n.bytes ≤ r.stop - r.skip + r.size)) →
      (decode s.input = .ok (.access (.read addr n), rest) →
        step s = exec (match n with | .byte => .mrd8 addr | .half => .mrd16 addr | .word => .mrd32 addr)
          (s.withInput rest)) ∧
      (∀ v, decode s.input = .ok (.access (.write addr n v), rest) →
        step s = exec (match n with
          | .byte => .mwr8 addr (v.setWidth 8)
          | .half => .mwr16 addr (v.setWidth 16)
          | .word => .mwr32 addr v) (s.withInput rest))) ∧
    (∀ w ∈ s.wiring.stubs, ∀ off, addr.toNat = w.base + off → off + n.bytes ≤ w.size →
      (decode s.input = .ok (.access (.read addr n), rest) → step s = exec (.stubRd w.name off n) (s.withInput rest)) ∧
      (∀ v, decode s.input = .ok (.access (.write addr n v), rest) →
        step s = exec (.stubWr w.name off n v) (s.withInput rest))) ∧
    ((∀ x ∈ mappedRanges s.regions s.wiring, ¬ (x.1 ≤ addr.toNat ∧ addr.toNat + n.bytes ≤ x.2)) →
      (decode s.input = .ok (.access (.read addr n), rest) → step s = .fault .unmapped) ∧
      (∀ v, decode s.input = .ok (.access (.write addr n v), rest) → step s = .fault .unmapped))

/-! ### The invariant -/

/-- The invariant of the block holds at reset (the map at reset is the model's choice, log entry 5). -/
def Obligations.ResetSatisfiesInvariant : Prop := State.reset.Inv

/-- Rules R25, R30, R62, R121, R174, R176 and R178: every step from a state that meets the invariant, in either phase, ends in
one that does: the output is aggregated, the scan is on schedule (so the line stays below 228), the H-blank and V-blank lines
agree with it, every region is well formed with its store in canonical form and within its size, and the map of a running
block is well formed. -/
def Obligations.EveryStepKeepsInvariant : Prop :=
  ∀ s s' : State, s.Inv → step s = .next s' → s'.Inv
end

