-- ==== Sys2Proof/Laws/Memory.lean ====
section
/-! SUPPORT. The laws of a backing store: read after write, what a write leaves alone, and that every operation keeps the
canonical form and the size of the store. -/

namespace Sys2Proof.Machine

variable (m : Memory)

theorem Memory.read_cell_append (o : Nat) (b : Byte) (a : Nat) :
    Memory.read (Memory.cell o b ++ m) a =
      if b = unlistedByte then m.read a else if o = a then b else m.read a := by
  unfold Memory.cell
  split <;> simp [Memory.read]

/-- Below every listed offset a store reads as unlisted. -/
theorem Memory.read_below : ∀ (m : Memory) (lo a : Nat), m.wfFrom lo = true → a < lo → m.read a = unlistedByte
  | [], _, _, _, _ => rfl
  | (k, v) :: m, lo, a, h, ha => by
    simp only [Memory.wfFrom, Bool.and_eq_true, decide_eq_true_eq] at h
    have hk : k ≠ a := by omega
    simp only [Memory.read, if_neg hk]
    exact Memory.read_below m (k + 1) a h.2 (by omega)

/-- A canonical form from `lo` is one from anything lower. -/
theorem Memory.wfFrom_mono {m : Memory} {lo lo' : Nat} (h : m.wfFrom lo = true) (hl : lo' ≤ lo) :
    m.wfFrom lo' = true := by
  cases m with
  | nil => rfl
  | cons c m =>
    obtain ⟨k, v⟩ := c
    simp only [Memory.wfFrom, Bool.and_eq_true, decide_eq_true_eq] at h ⊢
    exact ⟨⟨by omega, h.1.2⟩, h.2⟩

/-- What a written store reads: the byte at its offset, and the old byte everywhere else. -/
theorem Memory.read_write : ∀ (m : Memory) (lo o : Nat) (b : Byte) (a : Nat), m.wfFrom lo = true → lo ≤ o →
    (m.write o b).read a = if a = o then b else m.read a
  | [], lo, o, b, a, _, _ => by
    have := Memory.read_cell_append [] o b a
    simp only [List.append_nil] at this
    simp only [Memory.write, this, Memory.read]
    by_cases ha : a = o
    · subst ha; by_cases hb : b = unlistedByte <;> simp [hb]
    · have : ¬ o = a := fun e => ha e.symm
      simp [ha, this]
  | (k, v) :: m, lo, o, b, a, h, hlo => by
    have h' := h
    simp only [Memory.wfFrom, Bool.and_eq_true, decide_eq_true_eq] at h
    simp only [Memory.write]
    split
    · rename_i hok
      rw [Memory.read_cell_append]
      have hb : Memory.read ((k, v) :: m) o = unlistedByte :=
        Memory.read_below _ k o (by simp [Memory.wfFrom, h.1.2, h.2]) hok
      by_cases ha : a = o
      · subst ha; by_cases hz : b = unlistedByte <;> simp [hz, hb]
      · have : ¬ o = a := fun e => ha e.symm
        simp [ha, this]
    · split
      · rename_i _ hok
        subst hok
        rw [Memory.read_cell_append]
        have hb : Memory.read m o = unlistedByte := Memory.read_below m (o + 1) o h.2 (by omega)
        by_cases ha : a = o
        · subst ha; by_cases hz : b = unlistedByte <;> simp [hz, hb]
        · have : ¬ o = a := fun e => ha e.symm
          simp [ha, this, Memory.read]
      · rename_i h1 h2
        have ih := Memory.read_write m (k + 1) o b a h.2 (by omega)
        simp only [Memory.read]
        by_cases hk : k = a
        · subst hk
          have : ¬ k = o := by omega
          simp [this]
        · simp [hk, ih]

/-- A write keeps the canonical form. -/
theorem Memory.write_wfFrom : ∀ (m : Memory) (lo o : Nat) (b : Byte), m.wfFrom lo = true → lo ≤ o →
    (m.write o b).wfFrom lo = true
  | [], lo, o, b, _, hlo => by
    simp only [Memory.write, Memory.cell]
    split
    · rfl
    · rename_i hb; simp [Memory.wfFrom, hlo, hb]
  | (k, v) :: m, lo, o, b, h, hlo => by
    simp only [Memory.wfFrom, Bool.and_eq_true, decide_eq_true_eq] at h
    simp only [Memory.write, Memory.cell]
    split
    · rename_i hok
      split
      · simp [Memory.wfFrom, h.1.1, h.1.2, h.2]
      · rename_i hb
        have hk : o + 1 ≤ k := by omega
        simp [Memory.wfFrom, hlo, hb, hk, h.1.2, h.2]
    · split
      · rename_i _ hok
        subst hok
        split
        · exact Memory.wfFrom_mono h.2 (by omega)
        · rename_i hb; simp [Memory.wfFrom, hlo, hb, h.2]
      · rename_i h1 h2
        have ih := Memory.write_wfFrom m (k + 1) o b h.2 (by omega)
        simp [Memory.wfFrom, h.1.1, h.1.2, ih]

/-- A write inside the store stays inside it. -/
theorem Memory.write_inside (size : Nat) : ∀ (m : Memory) (o : Nat) (b : Byte), m.inside size = true → o < size →
    (m.write o b).inside size = true
  | [], o, b, _, ho => by
    simp only [Memory.write, Memory.cell]
    split <;> simp [Memory.inside, ho]
  | (k, v) :: m, o, b, h, ho => by
    simp only [Memory.inside, List.all_cons, Bool.and_eq_true, decide_eq_true_eq] at h
    simp only [Memory.write, Memory.cell]
    split
    · split <;> simp [Memory.inside, h.1, ho] <;> simpa [Memory.inside] using h.2
    · split
      · split <;> simp [Memory.inside, ho] <;> simpa [Memory.inside] using h.2
      · have ih := Memory.write_inside size m o b (by simpa [Memory.inside] using h.2) ho
        simp only [Memory.inside, List.all_cons, Bool.and_eq_true, decide_eq_true_eq]
        exact ⟨h.1, by simpa [Memory.inside] using ih⟩

/-- Storing keeps the canonical form. -/
theorem Memory.store_wf {m : Memory} (h : m.wf = true) (o : Nat) (v : Word) : ∀ n, (m.store o v n).wf = true
  | 0 => h
  | n + 1 => Memory.write_wfFrom _ 0 _ _ (Memory.store_wf h o v n) (Nat.zero_le _)

/-- Storing inside the store stays inside it. -/
theorem Memory.store_inside {m : Memory} {size : Nat} (h : m.inside size = true) (o : Nat) (v : Word) :
    ∀ n, o + n ≤ size → (m.store o v n).inside size = true
  | 0, _ => h
  | n + 1, hn => Memory.write_inside size _ _ _ (Memory.store_inside h o v n (by omega)) (by omega)

/-- What a stored value leaves: its bytes at the offsets stored to, the old byte everywhere else. -/
theorem Memory.read_store {m : Memory} (h : m.wf = true) (o : Nat) (v : Word) (a : Nat) :
    ∀ n, (m.store o v n).read a = if o ≤ a ∧ a < o + n then byteOf v (a - o) else m.read a
  | 0 => by
    simp [Memory.store]
  | n + 1 => by
    have hw : Memory.wfFrom 0 (m.store o v n) = true := Memory.store_wf h o v n
    rw [Memory.store, Memory.read_write _ 0 _ _ _ hw (Nat.zero_le _), Memory.read_store h o v a n]
    by_cases ha : a = o + n
    · subst ha; simp
    · have : (o ≤ a ∧ a < o + (n + 1)) ↔ (o ≤ a ∧ a < o + n) := by omega
      simp [ha, this]

/-- Placing a byte string keeps the canonical form. -/
theorem Memory.place_wf : ∀ (bs : List Byte) (m : Memory) (o : Nat), m.wf = true → (m.place o bs).wf = true
  | [], _, _, h => h
  | _ :: bs, _, _, h => Memory.place_wf bs _ _ (Memory.write_wfFrom _ 0 _ _ h (Nat.zero_le _))

/-- Placing a byte string that fits the store stays inside it. -/
theorem Memory.place_inside (size : Nat) : ∀ (bs : List Byte) (m : Memory) (o : Nat), m.inside size = true →
    o + bs.length ≤ size → (m.place o bs).inside size = true
  | [], _, _, h, _ => h
  | b :: bs, m, o, h, hl => by
    simp only [List.length_cons] at hl
    exact Memory.place_inside size bs _ _ (Memory.write_inside size m o b h (by omega)) (by omega)

/-- What a placed byte string leaves: its bytes from the offset on, the old byte everywhere else. -/
theorem Memory.read_place : ∀ (bs : List Byte) (m : Memory) (o : Nat), m.wf = true → ∀ a,
    (m.place o bs).read a = if o ≤ a ∧ a < o + bs.length then bs[a - o]?.getD unlistedByte else m.read a
  | [], m, o, _, a => by
    simp [Memory.place]
  | b :: bs, m, o, h, a => by
    have hw : (m.write o b).wf = true := Memory.write_wfFrom _ 0 _ _ h (Nat.zero_le _)
    rw [Memory.place, Memory.read_place bs _ (o + 1) hw a, Memory.read_write _ 0 _ _ _ h (Nat.zero_le _)]
    simp only [List.length_cons]
    by_cases ha : a = o
    · subst ha
      simp
    · by_cases hin : o + 1 ≤ a ∧ a < o + 1 + bs.length
      · have h2 : o ≤ a ∧ a < o + (bs.length + 1) := by omega
        have h3 : a - o = a - (o + 1) + 1 := by omega
        rw [if_pos hin, if_pos h2, h3, List.getElem?_cons_succ]
      · have h2 : ¬ (o ≤ a ∧ a < o + (bs.length + 1)) := by omega
        rw [if_neg hin, if_neg h2, if_neg ha]

/-- Two stores that read alike from `lo` on and are both in canonical form are equal data. -/
theorem Memory.ext_wf : ∀ (m m' : Memory) (lo : Nat), m.wfFrom lo = true → m'.wfFrom lo = true →
    (∀ a, lo ≤ a → m.read a = m'.read a) → m = m'
  | [], [], _, _, _, _ => rfl
  | [], (k, v) :: m', lo, _, h', he => by
    simp only [Memory.wfFrom, Bool.and_eq_true, decide_eq_true_eq, bne_iff_ne] at h'
    have := he k h'.1.1
    simp only [Memory.read, if_true] at this
    exact absurd this.symm h'.1.2
  | (k, v) :: m, [], lo, h, _, he => by
    simp only [Memory.wfFrom, Bool.and_eq_true, decide_eq_true_eq, bne_iff_ne] at h
    have := he k h.1.1
    simp only [Memory.read, if_true] at this
    exact absurd this h.1.2
  | (k, v) :: m, (k', v') :: m', lo, h, h', he => by
    simp only [Memory.wfFrom, Bool.and_eq_true, decide_eq_true_eq, bne_iff_ne] at h h'
    have hkk : k = k' := by
      by_contra hne
      rcases Nat.lt_or_gt_of_ne hne with hlt | hlt
      · have e := he k h.1.1
        rw [Memory.read_below ((k', v') :: m') k' k (by simp [Memory.wfFrom, h'.1.2, h'.2]) hlt] at e
        simp only [Memory.read, if_true] at e
        exact h.1.2 e
      · have e := he k' h'.1.1
        rw [Memory.read_below ((k, v) :: m) k k' (by simp [Memory.wfFrom, h.1.2, h.2]) hlt] at e
        simp only [Memory.read, if_true] at e
        exact h'.1.2 e.symm
    subst hkk
    have hv : v = v' := by simpa [Memory.read] using he k h.1.1
    subst hv
    have ih := Memory.ext_wf m m' (k + 1) h.2 h'.2 (fun a ha => by
      have := he a (by omega)
      have hne : k ≠ a := by omega
      simpa [Memory.read, hne] using this)
    rw [ih]

end Sys2Proof.Machine
end

