-- ==== Sys2Proof/Laws/State.lean ====
section
/-! SUPPORT. One lemma per field per update of the state, true by rfl, so that no later proof unfolds a record update. -/

namespace Sys2Proof.Machine

section withPhase
variable (s : State) (x : Phase)
@[simp] theorem State.withPhase_phase : (s.withPhase x).phase = x := rfl
@[simp] theorem State.withPhase_regions : (s.withPhase x).regions = s.regions := rfl
@[simp] theorem State.withPhase_wiring : (s.withPhase x).wiring = s.wiring := rfl
@[simp] theorem State.withPhase_pic : (s.withPhase x).pic = s.pic := rfl
@[simp] theorem State.withPhase_lcd : (s.withPhase x).lcd = s.lcd := rfl
@[simp] theorem State.withPhase_out : (s.withPhase x).out = s.out := rfl
@[simp] theorem State.withPhase_input : (s.withPhase x).input = s.input := rfl
@[simp] theorem State.withPhase_self : s.withPhase s.phase = s := rfl
@[simp] theorem State.withPhase_withPhase (y : Phase) : (s.withPhase x).withPhase y = s.withPhase y := rfl
end withPhase

section withRegions
variable (s : State) (x : List Region)
@[simp] theorem State.withRegions_phase : (s.withRegions x).phase = s.phase := rfl
@[simp] theorem State.withRegions_regions : (s.withRegions x).regions = x := rfl
@[simp] theorem State.withRegions_wiring : (s.withRegions x).wiring = s.wiring := rfl
@[simp] theorem State.withRegions_pic : (s.withRegions x).pic = s.pic := rfl
@[simp] theorem State.withRegions_lcd : (s.withRegions x).lcd = s.lcd := rfl
@[simp] theorem State.withRegions_out : (s.withRegions x).out = s.out := rfl
@[simp] theorem State.withRegions_input : (s.withRegions x).input = s.input := rfl
@[simp] theorem State.withRegions_self : s.withRegions s.regions = s := rfl
@[simp] theorem State.withRegions_withRegions (y : List Region) : (s.withRegions x).withRegions y = s.withRegions y := rfl
end withRegions

section withWiring
variable (s : State) (x : Wiring)
@[simp] theorem State.withWiring_phase : (s.withWiring x).phase = s.phase := rfl
@[simp] theorem State.withWiring_regions : (s.withWiring x).regions = s.regions := rfl
@[simp] theorem State.withWiring_wiring : (s.withWiring x).wiring = x := rfl
@[simp] theorem State.withWiring_pic : (s.withWiring x).pic = s.pic := rfl
@[simp] theorem State.withWiring_lcd : (s.withWiring x).lcd = s.lcd := rfl
@[simp] theorem State.withWiring_out : (s.withWiring x).out = s.out := rfl
@[simp] theorem State.withWiring_input : (s.withWiring x).input = s.input := rfl
@[simp] theorem State.withWiring_self : s.withWiring s.wiring = s := rfl
@[simp] theorem State.withWiring_withWiring (y : Wiring) : (s.withWiring x).withWiring y = s.withWiring y := rfl
end withWiring

section withPic
variable (s : State) (x : Pic)
@[simp] theorem State.withPic_phase : (s.withPic x).phase = s.phase := rfl
@[simp] theorem State.withPic_regions : (s.withPic x).regions = s.regions := rfl
@[simp] theorem State.withPic_wiring : (s.withPic x).wiring = s.wiring := rfl
@[simp] theorem State.withPic_pic : (s.withPic x).pic = x := rfl
@[simp] theorem State.withPic_lcd : (s.withPic x).lcd = s.lcd := rfl
@[simp] theorem State.withPic_out : (s.withPic x).out = s.out := rfl
@[simp] theorem State.withPic_input : (s.withPic x).input = s.input := rfl
@[simp] theorem State.withPic_self : s.withPic s.pic = s := rfl
@[simp] theorem State.withPic_withPic (y : Pic) : (s.withPic x).withPic y = s.withPic y := rfl
end withPic

section withLcd
variable (s : State) (x : Lcd)
@[simp] theorem State.withLcd_phase : (s.withLcd x).phase = s.phase := rfl
@[simp] theorem State.withLcd_regions : (s.withLcd x).regions = s.regions := rfl
@[simp] theorem State.withLcd_wiring : (s.withLcd x).wiring = s.wiring := rfl
@[simp] theorem State.withLcd_pic : (s.withLcd x).pic = s.pic := rfl
@[simp] theorem State.withLcd_lcd : (s.withLcd x).lcd = x := rfl
@[simp] theorem State.withLcd_out : (s.withLcd x).out = s.out := rfl
@[simp] theorem State.withLcd_input : (s.withLcd x).input = s.input := rfl
@[simp] theorem State.withLcd_self : s.withLcd s.lcd = s := rfl
@[simp] theorem State.withLcd_withLcd (y : Lcd) : (s.withLcd x).withLcd y = s.withLcd y := rfl
end withLcd

section withOut
variable (s : State) (x : Outputs)
@[simp] theorem State.withOut_phase : (s.withOut x).phase = s.phase := rfl
@[simp] theorem State.withOut_regions : (s.withOut x).regions = s.regions := rfl
@[simp] theorem State.withOut_wiring : (s.withOut x).wiring = s.wiring := rfl
@[simp] theorem State.withOut_pic : (s.withOut x).pic = s.pic := rfl
@[simp] theorem State.withOut_lcd : (s.withOut x).lcd = s.lcd := rfl
@[simp] theorem State.withOut_out : (s.withOut x).out = x := rfl
@[simp] theorem State.withOut_input : (s.withOut x).input = s.input := rfl
@[simp] theorem State.withOut_self : s.withOut s.out = s := rfl
@[simp] theorem State.withOut_withOut (y : Outputs) : (s.withOut x).withOut y = s.withOut y := rfl
end withOut

section withInput
variable (s : State) (x : List Byte)
@[simp] theorem State.withInput_phase : (s.withInput x).phase = s.phase := rfl
@[simp] theorem State.withInput_regions : (s.withInput x).regions = s.regions := rfl
@[simp] theorem State.withInput_wiring : (s.withInput x).wiring = s.wiring := rfl
@[simp] theorem State.withInput_pic : (s.withInput x).pic = s.pic := rfl
@[simp] theorem State.withInput_lcd : (s.withInput x).lcd = s.lcd := rfl
@[simp] theorem State.withInput_out : (s.withInput x).out = s.out := rfl
@[simp] theorem State.withInput_input : (s.withInput x).input = x := rfl
@[simp] theorem State.withInput_self : s.withInput s.input = s := rfl
@[simp] theorem State.withInput_withInput (y : List Byte) : (s.withInput x).withInput y = s.withInput y := rfl
end withInput

/-! ### Results and diagnostics -/

section outputs
variable (s : State) (n : Size) (v : Word) (d : Diag) (e : DisplayEvent)
@[simp] theorem State.answer_phase : (s.answer n v).phase = s.phase := rfl
@[simp] theorem State.answer_regions : (s.answer n v).regions = s.regions := rfl
@[simp] theorem State.answer_wiring : (s.answer n v).wiring = s.wiring := rfl
@[simp] theorem State.answer_pic : (s.answer n v).pic = s.pic := rfl
@[simp] theorem State.answer_lcd : (s.answer n v).lcd = s.lcd := rfl
@[simp] theorem State.answer_input : (s.answer n v).input = s.input := rfl
@[simp] theorem State.diag_phase : (s.diag d).phase = s.phase := rfl
@[simp] theorem State.diag_regions : (s.diag d).regions = s.regions := rfl
@[simp] theorem State.diag_wiring : (s.diag d).wiring = s.wiring := rfl
@[simp] theorem State.diag_pic : (s.diag d).pic = s.pic := rfl
@[simp] theorem State.diag_lcd : (s.diag d).lcd = s.lcd := rfl
@[simp] theorem State.diag_input : (s.diag d).input = s.input := rfl
@[simp] theorem State.emit_phase : (s.emit e).phase = s.phase := rfl
@[simp] theorem State.emit_regions : (s.emit e).regions = s.regions := rfl
@[simp] theorem State.emit_wiring : (s.emit e).wiring = s.wiring := rfl
@[simp] theorem State.emit_pic : (s.emit e).pic = s.pic := rfl
@[simp] theorem State.emit_lcd : (s.emit e).lcd = s.lcd := rfl
@[simp] theorem State.emit_input : (s.emit e).input = s.input := rfl
@[simp] theorem State.answer_result : (s.answer n v).out.result = some (busValue n v) := rfl
@[simp] theorem State.answer_diags : (s.answer n v).out.diags = s.out.diags := rfl
@[simp] theorem State.answer_display : (s.answer n v).out.display = s.out.display := rfl
@[simp] theorem State.diag_result : (s.diag d).out.result = s.out.result := rfl
@[simp] theorem State.diag_diags : (s.diag d).out.diags = s.out.diags ++ [d] := rfl
@[simp] theorem State.diag_display : (s.diag d).out.display = s.out.display := rfl
@[simp] theorem State.emit_result : (s.emit e).out.result = s.out.result := rfl
@[simp] theorem State.emit_diags : (s.emit e).out.diags = s.out.diags := rfl
@[simp] theorem State.emit_display : (s.emit e).out.display = s.out.display ++ [e] := rfl
end outputs

section flagOversized
variable (s : State) (u : DiagUnit) (dir : Dir) (off : Nat) (n : Size) (w : Nat)
@[simp] theorem State.flagOversized_phase : (s.flagOversized u dir off n w).phase = s.phase := by
  unfold State.flagOversized; split <;> rfl
@[simp] theorem State.flagOversized_regions : (s.flagOversized u dir off n w).regions = s.regions := by
  unfold State.flagOversized; split <;> rfl
@[simp] theorem State.flagOversized_wiring : (s.flagOversized u dir off n w).wiring = s.wiring := by
  unfold State.flagOversized; split <;> rfl
@[simp] theorem State.flagOversized_pic : (s.flagOversized u dir off n w).pic = s.pic := by
  unfold State.flagOversized; split <;> rfl
@[simp] theorem State.flagOversized_lcd : (s.flagOversized u dir off n w).lcd = s.lcd := by
  unfold State.flagOversized; split <;> rfl
@[simp] theorem State.flagOversized_input : (s.flagOversized u dir off n w).input = s.input := by
  unfold State.flagOversized; split <;> rfl

/-- Flagging an access appends the oversized record exactly when the access is wider than the register, and changes nothing
else. -/
theorem State.flagOversized_eq :
    s.flagOversized u dir off n w =
      s.withOut { s.out with
        diags := s.out.diags ++ if w < n.bytes then [.oversizedAccess u dir off n] else [] } := by
  unfold State.flagOversized State.diag
  split
  · simp
  · simp; rfl

end flagOversized

/-! ### The PIC's output and input lines -/

section pic
variable (p : Pic) (s : State) (i : Fin 16) (b : Bool)
@[simp] theorem Pic.update_master : p.update.master = p.master := rfl
@[simp] theorem Pic.update_level : p.update.level = p.level := rfl
@[simp] theorem Pic.update_irqEnabled : p.update.irqEnabled = p.irqEnabled := rfl
@[simp] theorem Pic.update_waitcnt : p.update.waitcnt = p.waitcnt := rfl
@[simp] theorem Pic.update_irqOut : p.update.irqOut = aggregate p.master p.level p.irqEnabled := rfl
@[simp] theorem State.picLine_phase : (s.picLine i b).phase = s.phase := rfl
@[simp] theorem State.picLine_regions : (s.picLine i b).regions = s.regions := rfl
@[simp] theorem State.picLine_wiring : (s.picLine i b).wiring = s.wiring := rfl
@[simp] theorem State.picLine_lcd : (s.picLine i b).lcd = s.lcd := rfl
@[simp] theorem State.picLine_out : (s.picLine i b).out = s.out := rfl
@[simp] theorem State.picLine_input : (s.picLine i b).input = s.input := rfl
@[simp] theorem State.picLine_master : (s.picLine i b).pic.master = s.pic.master := rfl
@[simp] theorem State.picLine_level : (s.picLine i b).pic.level = levelAfterLine s.pic.level i b := rfl
@[simp] theorem State.picLine_irqEnabled : (s.picLine i b).pic.irqEnabled = s.pic.irqEnabled := rfl
@[simp] theorem State.picLine_waitcnt : (s.picLine i b).pic.waitcnt = s.pic.waitcnt := rfl
@[simp] theorem State.picLine_irqOut :
    (s.picLine i b).pic.irqOut = aggregate s.pic.master (levelAfterLine s.pic.level i b) s.pic.irqEnabled := rfl

/-- A recomputed output is the aggregate of the fields. -/
theorem Pic.update_consistent : p.update.consistent := rfl
end pic

end Sys2Proof.Machine
end

