-- ==== Sys2Proof/Laws/Ops.lean ====
section
/-! SUPPORT. One law per shared operation: what a guard lets through, what a value on the bus is, what the PIC's and the LCD's
line drives leave, and what an operation on the list of regions leaves. -/

namespace Sys2Proof.Machine

/-! ### Guards -/

section guards
variable {s t : State} {k : Result}

theorem whenRunning_running (h : s.phase = .running) : whenRunning s k = k := by simp [whenRunning, h]

theorem whenRunning_building (h : s.phase = .building) : whenRunning s k = .refused .notBuilt := by simp [whenRunning, h]

theorem whenBuilding_building (h : s.phase = .building) : whenBuilding s k = k := by simp [whenBuilding, h]

theorem whenBuilding_running (h : s.phase = .running) : whenBuilding s k = .refused .alreadyBuilt := by
  simp [whenBuilding, h]

/-- An event of the running block goes on only in the running block. -/
theorem whenRunning_next : whenRunning s k = .next t ↔ s.phase = .running ∧ k = .next t := by
  cases h : s.phase <;> simp [whenRunning, h]

/-- A build-time operation goes on only before the build. -/
theorem whenBuilding_next : whenBuilding s k = .next t ↔ s.phase = .building ∧ k = .next t := by
  cases h : s.phase <;> simp [whenBuilding, h]

theorem whenInside_next {size off : Nat} {n : Size} :
    whenInside size off n k = .next t ↔ off + n.bytes ≤ size ∧ k = .next t := by
  unfold whenInside; split <;> simp [*]

theorem whenStub_next {name : StubName} {off : Nat} {n : Size} :
    whenStub s name off n k = .next t ↔ stubAdmits s name off n = true ∧ k = .next t := by
  unfold whenStub; split <;> simp [*]

/-- A part of a computation that goes on, and the rest that goes on from it. -/
theorem andThen_next {α β : Type} {o : Host.Outcome α Fault Refusal} {f : α → Host.Outcome β Fault Refusal} {b : β} :
    andThen o f = .next b ↔ ∃ a, o = .next a ∧ f a = .next b := by
  cases o <;> simp [andThen]

theorem stubAdmits_iff {name : StubName} {off : Nat} {n : Size} :
    stubAdmits s name off n = true ↔ ∃ w ∈ s.wiring.stubs, w.name = name ∧ off + n.bytes ≤ w.size := by
  simp [stubAdmits]

end guards

/-! ### Bus values -/

theorem busValue_getLsbD (n : Size) (v : Word) (j : Nat) :
    (busValue n v).getLsbD j = (decide (j < 8 * n.bytes) && v.getLsbD j) := by
  have mask : ∀ w : Nat, (BitVec.ofNat 32 (2 ^ w - 1)).getLsbD j = (decide (j < 32) && decide (j < w)) := by
    intro w; rw [BitVec.getLsbD_ofNat, Nat.testBit_two_pow_sub_one]
  have hv : ¬ j < 32 → v.getLsbD j = false := fun h => BitVec.getLsbD_of_ge _ _ (by omega)
  cases n with
  | byte =>
    have m := mask 8
    simp only [Nat.reducePow, Nat.reduceSub] at m
    simp only [busValue, BitVec.getLsbD_and, m, Size.bytes]
    by_cases h : j < 8
    · have : j < 32 := by omega
      simp [h, this]
    · simp [h]
  | half =>
    have m := mask 16
    simp only [Nat.reducePow, Nat.reduceSub] at m
    simp only [busValue, BitVec.getLsbD_and, m, Size.bytes]
    by_cases h : j < 16
    · have : j < 32 := by omega
      simp [h, this]
    · simp [h]
  | word =>
    simp only [busValue, Size.bytes]
    by_cases h : j < 32
    · simp [h]
    · simp [h, hv h]

/-- A value of the access's size is what the bus carries of it. -/
theorem busValue_of_fits {n : Size} {v : Word} (h : n.fits v = true) : busValue n v = v := by
  apply BitVec.eq_of_getLsbD_eq
  intro j hj
  rw [busValue_getLsbD]
  simp only [Size.fits, decide_eq_true_eq] at h
  by_cases hb : j < 8 * n.bytes
  · simp [hb]
  · have : v.getLsbD j = false := by
      rw [BitVec.getLsbD]
      exact Nat.testBit_lt_two_pow (lt_of_lt_of_le h (Nat.pow_le_pow_right (by decide) (by omega)))
    simp [hb, this]

theorem busValue_zero (n : Size) : busValue n 0#32 = 0#32 := by cases n <;> decide

/-! ### The PIC's input line and the LCD's line drive -/

/-- The bits of the pending bitmap after a line moved: its own bit is the line's value, every other bit is as before. -/
theorem levelAfterLine_getLsbD (level : Half) (i : Fin 16) (b : Bool) (j : Nat) (hj : j < 16) :
    (levelAfterLine level i b).getLsbD j = if j = i.val then b else level.getLsbD j := by
  have hi := i.isLt
  have h1 : (1#16 <<< i.val).getLsbD j = decide (j = i.val) := by
    rw [← BitVec.twoPow_eq]
    rw [BitVec.getLsbD_twoPow]
    by_cases h : j = i.val
    · subst h; simp [hi]
    · have : ¬ i.val = j := fun e => h e.symm
      simp [h, this]
  unfold levelAfterLine
  cases b with
  | true =>
    rw [if_pos rfl, BitVec.getLsbD_or, h1]
    by_cases h : j = i.val <;> simp [h]
  | false =>
    rw [if_neg (by decide), BitVec.getLsbD_and, BitVec.getLsbD_not, h1]
    by_cases h : j = i.val <;> simp [h, hj]

section drive
variable (s : State) (k : LcdLine) (b : Bool)

@[simp] theorem State.lcdDrive_phase : (s.lcdDrive k b).phase = s.phase := by
  unfold State.lcdDrive; dsimp only; split <;> rfl
@[simp] theorem State.lcdDrive_regions : (s.lcdDrive k b).regions = s.regions := by
  unfold State.lcdDrive; dsimp only; split <;> rfl
@[simp] theorem State.lcdDrive_wiring : (s.lcdDrive k b).wiring = s.wiring := by
  unfold State.lcdDrive; dsimp only; split <;> rfl
@[simp] theorem State.lcdDrive_lcd : (s.lcdDrive k b).lcd = s.lcd.setLine k b := by
  unfold State.lcdDrive; dsimp only; split <;> rfl
@[simp] theorem State.lcdDrive_out : (s.lcdDrive k b).out = s.out := by
  unfold State.lcdDrive; dsimp only; split <;> rfl
@[simp] theorem State.lcdDrive_input : (s.lcdDrive k b).input = s.input := by
  unfold State.lcdDrive; dsimp only; split <;> rfl
@[simp] theorem State.lcdDrive_master : (s.lcdDrive k b).pic.master = s.pic.master := by
  unfold State.lcdDrive; dsimp only; split <;> rfl
@[simp] theorem State.lcdDrive_irqEnabled : (s.lcdDrive k b).pic.irqEnabled = s.pic.irqEnabled := by
  unfold State.lcdDrive; dsimp only; split <;> rfl
@[simp] theorem State.lcdDrive_waitcnt : (s.lcdDrive k b).pic.waitcnt = s.pic.waitcnt := by
  unfold State.lcdDrive; dsimp only; split <;> rfl

/-- The pending bitmap after a drive (rule R172). -/
@[simp] theorem State.lcdDrive_level :
    (s.lcdDrive k b).pic.level = driven s.wiring.edgeFilter (s.lcd.line k) b (s.wiring.index k) s.pic.level := by
  unfold State.lcdDrive driven
  cases hf : s.wiring.edgeFilter <;> cases ho : s.lcd.line k <;> cases b <;>
    simp [levelAfterLine, BitVec.twoPow_eq]

/-- A drive keeps the published output the aggregate of the PIC's fields (rule R156). -/
theorem State.lcdDrive_consistent (h : s.pic.consistent) : (s.lcdDrive k b).pic.consistent := by
  unfold State.lcdDrive; dsimp only; split
  · exact Pic.update_consistent _
  · exact h

end drive

@[simp] theorem Lcd.setLine_ly (l : Lcd) (k : LcdLine) (b : Bool) : (l.setLine k b).ly = l.ly := by cases k <;> rfl
@[simp] theorem Lcd.setLine_lyc (l : Lcd) (k : LcdLine) (b : Bool) : (l.setLine k b).lyc = l.lyc := by cases k <;> rfl
@[simp] theorem Lcd.setLine_hblank (l : Lcd) (k : LcdLine) (b : Bool) : (l.setLine k b).hblank = l.hblank := by
  cases k <;> rfl
@[simp] theorem Lcd.setLine_irqVbEn (l : Lcd) (k : LcdLine) (b : Bool) : (l.setLine k b).irqVbEn = l.irqVbEn := by
  cases k <;> rfl
@[simp] theorem Lcd.setLine_irqHbEn (l : Lcd) (k : LcdLine) (b : Bool) : (l.setLine k b).irqHbEn = l.irqHbEn := by
  cases k <;> rfl
@[simp] theorem Lcd.setLine_irqVmEn (l : Lcd) (k : LcdLine) (b : Bool) : (l.setLine k b).irqVmEn = l.irqVmEn := by
  cases k <;> rfl
@[simp] theorem Lcd.setLine_deadline (l : Lcd) (k : LcdLine) (b : Bool) : (l.setLine k b).deadline = l.deadline := by
  cases k <;> rfl

/-- With the filter off a drive sets the PIC input's bit to the line's value and leaves the others. -/
theorem driven_getLsbD (old b : Bool) (i : Fin 16) (level : Half) (j : Fin 16) :
    (driven false old b i level).getLsbD j.val = if j = i then b else level.getLsbD j.val := by
  have h := levelAfterLine_getLsbD level i b j.val j.isLt
  have e : driven false old b i level = levelAfterLine level i b := by
    unfold driven levelAfterLine; simp [BitVec.twoPow_eq]
  rw [e, h]
  simp [Fin.ext_iff]

/-! ### Operations on the list of regions -/

/-- Changing region number `i` is setting it to what it is changed to. -/
theorem updateRegion_eq_set (f : Region → Region) : ∀ (i : Nat) (rs : List Region) (r : Region), rs[i]? = some r →
    updateRegion f i rs = rs.set i (f r)
  | _, [], _, h => by simp at h
  | 0, r' :: rs, r, h => by
    simp only [List.getElem?_cons_zero, Option.some.injEq] at h
    subst h; rfl
  | i + 1, r' :: rs, r, h => by
    simp only [updateRegion, List.set_cons_succ]
    rw [updateRegion_eq_set f i rs r (by simpa using h)]

/-- Region number `j` after region number `i` is changed. -/
theorem updateRegion_getElem? (f : Region → Region) : ∀ (i j : Nat) (rs : List Region),
    (updateRegion f i rs)[j]? = if j = i then rs[j]?.map f else rs[j]?
  | _, _, [] => by simp [updateRegion]
  | 0, 0, _ :: _ => by simp [updateRegion]
  | 0, j + 1, _ :: _ => by simp [updateRegion]
  | i + 1, 0, _ :: _ => by simp [updateRegion]
  | i + 1, j + 1, _ :: rs => by simp [updateRegion, updateRegion_getElem? f i j rs]

theorem updateRegion_mem {f : Region → Region} : ∀ {i : Nat} {rs : List Region} {x : Region}, x ∈ updateRegion f i rs →
    x ∈ rs ∨ ∃ r, rs[i]? = some r ∧ x = f r
  | _, [], x, h => by simp [updateRegion] at h
  | 0, r :: rs, x, h => by
    simp only [updateRegion, List.mem_cons] at h
    rcases h with h | h
    · exact .inr ⟨r, rfl, h⟩
    · exact .inl (List.mem_cons_of_mem _ h)
  | i + 1, r :: rs, x, h => by
    simp only [updateRegion, List.mem_cons] at h
    rcases h with h | h
    · exact .inl (by simp [h])
    · rcases updateRegion_mem h with h | ⟨r', hr, hx⟩
      · exact .inl (List.mem_cons_of_mem _ h)
      · exact .inr ⟨r', by simpa using hr, hx⟩

/-- A change that keeps some part of a region keeps that part of every region. -/
theorem updateRegion_map {β : Type} {g : Region → β} {f : Region → Region} (h : ∀ r, g (f r) = g r) :
    ∀ (i : Nat) (rs : List Region), (updateRegion f i rs).map g = rs.map g
  | _, [] => by simp [updateRegion]
  | 0, r :: rs => by simp [updateRegion, h]
  | i + 1, r :: rs => by simp [updateRegion, updateRegion_map h i rs]

/-- The number that a name finds is the number of the first region of that name. -/
theorem regionNamed_some {name : RegionName} : ∀ {rs : List Region} {i : Nat}, regionNamed name rs = some i ↔
    (∃ r, rs[i]? = some r ∧ r.name = name) ∧ ∀ j r, j < i → rs[j]? = some r → r.name ≠ name
  | [], i => by simp [regionNamed]
  | r :: rs, i => by
    unfold regionNamed
    by_cases h : r.name = name
    · simp only [h, if_true, Option.some.injEq]
      constructor
      · rintro rfl; exact ⟨⟨r, rfl, h⟩, fun j _ hj => absurd hj (Nat.not_lt_zero _)⟩
      · rintro ⟨_, h2⟩
        rcases i with _ | i
        · rfl
        · exact absurd h (h2 0 r (Nat.succ_pos _) rfl)
    · simp only [h, if_false, Option.map_eq_some_iff]
      constructor
      · rintro ⟨k, hk, rfl⟩
        obtain ⟨⟨r', hr', hn⟩, h2⟩ := regionNamed_some.mp hk
        refine ⟨⟨r', by simpa using hr', hn⟩, fun j x hj hx => ?_⟩
        rcases j with _ | j
        · simp only [List.getElem?_cons_zero, Option.some.injEq] at hx; rwa [← hx]
        · exact h2 j x (by omega) (by simpa using hx)
      · rintro ⟨⟨r', hr', hn⟩, h2⟩
        rcases i with _ | i
        · simp only [List.getElem?_cons_zero, Option.some.injEq] at hr'; rw [hr'] at h; exact absurd hn h
        · exact ⟨i, regionNamed_some.mpr ⟨⟨r', by simpa using hr', hn⟩, fun j x hj hx =>
            h2 (j + 1) x (by omega) (by simpa using hx)⟩, rfl⟩

/-- No number is found exactly when no region has the name. -/
theorem regionNamed_none {name : RegionName} : ∀ {rs : List Region}, regionNamed name rs = none ↔ ∀ r ∈ rs, r.name ≠ name
  | [] => by simp [regionNamed]
  | r :: rs => by
    unfold regionNamed
    by_cases h : r.name = name
    · simp [h]
    · simp [h, regionNamed_none (rs := rs)]

end Sys2Proof.Machine
end

