-- ==== Sys2Proof/Laws/Build.lean ====
section
/-! SUPPORT. What the parts of a build leave (rules R120 to R124 and R210), and that each keeps every region well formed. -/

namespace Sys2Proof.Machine

/-! ### Creating regions -/

/-- The five conditions of rule R121, over the natural numbers without subtraction. -/
theorem wellFormedRegion_iff {start stop size skip : Nat} : wellFormedRegion start stop size skip = true ↔
    0 < skip ∧ start + size ≤ stop ∧ 0 < size ∧ stop ≤ 4294967296 ∧
      (start + size < stop → start + size + skip ≤ stop ∧ stop + size ≤ 4294967296 + skip) := by
  simp only [wellFormedRegion, Bool.and_eq_true, decide_eq_true_eq, Bool.or_eq_true, Bool.not_eq_true',
    decide_eq_false_iff_not]
  simp only [Config.addressTop]
  omega

theorem createRegion_next {rs rs' : List Region} {r : RegionSpec} : createRegion rs r = .next rs' ↔
    wellFormedRegion r.start r.stop r.size r.skip = true ∧ rs' = rs ++ [Region.blank r false] := by
  unfold createRegion
  split
  · rename_i h
    simp only [Host.Outcome.next.injEq, h, true_and]
    exact eq_comm
  · rename_i h
    simp [h]

/-- Creating the regions of a list goes on exactly when each is well formed, and appends them in order. -/
theorem createRegions_next : ∀ {specs : List RegionSpec} {rs rs' : List Region}, createRegions rs specs = .next rs' ↔
    (∀ r ∈ specs, wellFormedRegion r.start r.stop r.size r.skip = true) ∧
      rs' = rs ++ specs.map fun r => Region.blank r false
  | [], rs, rs' => by
    simp only [createRegions, Host.Outcome.next.injEq, List.not_mem_nil, false_implies, implies_true, List.map_nil,
      List.append_nil, true_and]
    exact eq_comm
  | r :: specs, rs, rs' => by
    simp only [createRegions, andThen_next, createRegion_next, createRegions_next, List.mem_cons, forall_eq_or_imp,
      List.map_cons]
    constructor
    · rintro ⟨a, ⟨h1, rfl⟩, h2, rfl⟩; exact ⟨⟨h1, h2⟩, by simp⟩
    · rintro ⟨⟨h1, h2⟩, rfl⟩; exact ⟨_, ⟨h1, rfl⟩, h2, by simp⟩

/-! ### Loading an image and marking a region -/

/-- Loading goes on exactly when a region has the name, the image is present and the image fits. -/
theorem loadImage_next {rs rs' : List Region} {name : RegionName} {image : Option (List Byte)} :
    loadImage rs name image = .next rs' ↔ ∃ i r bytes, regionNamed name rs = some i ∧ rs[i]? = some r ∧
      image = some bytes ∧ bytes.length ≤ r.size ∧ rs' = rs.set i { r with backing := r.backing.place 0 bytes } := by
  unfold loadImage
  cases hn : regionNamed name rs with
  | none => simp
  | some i =>
    obtain ⟨⟨r, hr, _⟩, _⟩ := regionNamed_some.mp hn
    cases image with
    | none => simp
    | some bytes =>
      simp only [hr]
      split
      · rename_i h
        rw [updateRegion_eq_set _ _ _ _ hr]
        constructor
        · intro e; cases e; exact ⟨i, r, bytes, rfl, hr, rfl, h, rfl⟩
        · rintro ⟨i', r', b', hi, hr', hb, _, rfl⟩
          cases hi; cases hb; rw [hr] at hr'; cases hr'; rfl
      · rename_i h
        constructor
        · intro e; cases e
        · rintro ⟨i', r', b', hi, hr', hb, hl, _⟩
          cases hi; cases hb; rw [hr] at hr'; cases hr'; exact absurd hl h

theorem markReadonly_next {rs rs' : List Region} {name : RegionName} : markReadonly rs name = .next rs' ↔
    ∃ i r, regionNamed name rs = some i ∧ rs[i]? = some r ∧ rs' = rs.set i { r with readonly := true } := by
  unfold markReadonly
  cases hn : regionNamed name rs with
  | none => simp
  | some i =>
    obtain ⟨⟨r, hr, _⟩, _⟩ := regionNamed_some.mp hn
    simp only [updateRegion_eq_set _ _ _ _ hr]
    constructor
    · intro e; cases e; exact ⟨i, r, rfl, hr, rfl⟩
    · rintro ⟨i', r', hi, hr', rfl⟩
      cases hi; rw [hr] at hr'; cases hr'; rfl

/-- Region number `i` after every region whose entry says so is marked. -/
theorem markAll_getElem? : ∀ (specs : List RegionSpec) (rs : List Region) (i : Nat),
    (markAll specs rs)[i]? = match specs[i]?, rs[i]? with
      | some spec, some r => some (if spec.readonly then { r with readonly := true } else r)
      | none, some r => some r
      | _, none => none
  | [], rs, i => by
    simp only [markAll, List.getElem?_nil]
    cases rs[i]? <;> rfl
  | spec :: specs, [], i => by
    simp only [markAll, List.getElem?_nil]
  | spec :: specs, r :: rs, 0 => by simp [markAll]
  | spec :: specs, r :: rs, i + 1 => by simp [markAll, markAll_getElem? specs rs i]

/-! ### Well-formed regions -/

theorem Region.blank_wf {r : RegionSpec} (h : wellFormedRegion r.start r.stop r.size r.skip = true) (b : Bool) :
    (Region.blank r b).wf := ⟨h, rfl, rfl⟩

theorem Region.place_wf {r : Region} (h : r.wf) {bytes : List Byte} (hl : bytes.length ≤ r.size) :
    Region.wf { r with backing := r.backing.place 0 bytes } :=
  ⟨h.1, Memory.place_wf _ _ _ h.2.1, Memory.place_inside r.size _ _ _ h.2.2 (by omega)⟩

theorem Region.readonly_wf {r : Region} (h : r.wf) (b : Bool) : Region.wf { r with readonly := b } := h

theorem set_wf {rs : List Region} (h : ∀ r ∈ rs, r.wf) {i : Nat} {x : Region} (hx : x.wf) : ∀ r ∈ rs.set i x, r.wf := by
  intro r hr
  rcases List.mem_or_eq_of_mem_set hr with hr | rfl
  · exact h r hr
  · exact hx

theorem createRegion_wf {rs rs' : List Region} {r : RegionSpec} (h : ∀ x ∈ rs, x.wf) (hc : createRegion rs r = .next rs') :
    ∀ x ∈ rs', x.wf := by
  obtain ⟨hw, rfl⟩ := createRegion_next.mp hc
  intro x hx
  rcases List.mem_append.mp hx with hx | hx
  · exact h x hx
  · rw [List.mem_singleton] at hx; subst hx; exact Region.blank_wf hw false

theorem createRegions_wf {rs rs' : List Region} {specs : List RegionSpec} (h : ∀ x ∈ rs, x.wf)
    (hc : createRegions rs specs = .next rs') : ∀ x ∈ rs', x.wf := by
  obtain ⟨hw, rfl⟩ := createRegions_next.mp hc
  intro x hx
  rcases List.mem_append.mp hx with hx | hx
  · exact h x hx
  · obtain ⟨r, hr, rfl⟩ := List.mem_map.mp hx
    exact Region.blank_wf (hw r hr) false

theorem loadImage_wf {rs rs' : List Region} {name : RegionName} {image : Option (List Byte)} (h : ∀ x ∈ rs, x.wf)
    (hc : loadImage rs name image = .next rs') : ∀ x ∈ rs', x.wf := by
  obtain ⟨i, r, bytes, _, hr, _, hl, rfl⟩ := loadImage_next.mp hc
  exact set_wf h (Region.place_wf (h r (List.mem_of_getElem? hr)) hl)

theorem markReadonly_wf {rs rs' : List Region} {name : RegionName} (h : ∀ x ∈ rs, x.wf)
    (hc : markReadonly rs name = .next rs') : ∀ x ∈ rs', x.wf := by
  obtain ⟨i, r, _, hr, rfl⟩ := markReadonly_next.mp hc
  exact set_wf h (Region.readonly_wf (h r (List.mem_of_getElem? hr)) true)

theorem markAll_wf : ∀ {specs : List RegionSpec} {rs : List Region}, (∀ x ∈ rs, x.wf) → ∀ x ∈ markAll specs rs, x.wf
  | [], rs, h => by simpa [markAll] using h
  | spec :: specs, [], h => by simp [markAll]
  | spec :: specs, r :: rs, h => by
    simp only [markAll, List.mem_cons, forall_eq_or_imp] at h ⊢
    refine ⟨?_, markAll_wf h.2⟩
    split
    · exact Region.readonly_wf h.1 true
    · exact h.1

/-- The regions that a build makes are well formed. -/
theorem buildRegions_wf {p : BuildParams} {rs : List Region} (h : buildRegions p = .next rs) : ∀ x ∈ rs, x.wf := by
  simp only [buildRegions, andThen_next] at h
  obtain ⟨rs1, h1, rs2, h2, rs3, h3, h4⟩ := h
  cases h4
  exact markAll_wf (loadImage_wf (loadImage_wf (createRegions_wf (by simp) h1) h2) h3)

/-- What a build that goes on leaves, and what it requires of the map it makes. -/
theorem buildSystem_next {p : BuildParams} {s t : State} : buildSystem p s = .next t ↔
    ∃ rs, buildRegions p = .next rs ∧
      wellFormedMap rs (Wiring.ofParams p s.wiring.edgeFilter) = true ∧
      (Wiring.ofParams p s.wiring.edgeFilter).linesDistinct = true ∧ imageRegionsOnly rs = true ∧
      t = { s with phase := .running, regions := rs, wiring := Wiring.ofParams p s.wiring.edgeFilter,
                   pic := Pic.reset, lcd := Lcd.reset } := by
  simp only [buildSystem, andThen_next]
  refine exists_congr fun rs => and_congr_right fun _ => ?_
  split
  · rename_i h
    simp only [Bool.and_eq_true] at h
    simp [h, eq_comm]
  · rename_i h
    simp only [Bool.and_eq_true] at h
    simp only [reduceCtorEq, false_iff]
    rintro ⟨h1, h2, h3, _⟩
    exact h ⟨⟨h1, h2⟩, h3⟩

end Sys2Proof.Machine
end

