-- ==== Sys2Proof/Laws/Map.lean ====
section
/-! SUPPORT. The address decode as a search of one list of labelled ranges, and what admission means: an admitted access lies
inside one mapped range, and in a well-formed map an access inside a mapped range is admitted and decodes to it. -/

namespace Sys2Proof.Machine

/-- A mapped range with what it belongs to: its label, its first address and one past its last. -/
abbrev Labelled := RangeId × Nat × Nat

/-- The range contains the address. -/
def Labelled.has (a : Nat) (x : Labelled) : Bool := decide (x.2.1 ≤ a) && decide (a < x.2.2)

/-- The labelled ranges of region number `i`. -/
def labelledRegion (i : Nat) (r : Region) : List Labelled :=
  (.primary i, r.start, r.start + r.size) ::
    if r.hasAlias then [(.mirror i, r.aliasBase, r.aliasBase + r.size)] else []

/-- The labelled ranges of the regions from number `i` on. -/
def labelledRegions : Nat → List Region → List Labelled
  | _, [] => []
  | i, r :: rs => labelledRegion i r ++ labelledRegions (i + 1) rs

/-- The labelled ranges of the stub windows from number `j` on. -/
def labelledStubs : Nat → List StubWindow → List Labelled
  | _, [] => []
  | j, w :: ws => (.stub w.name j, w.base, w.base + w.size) :: labelledStubs (j + 1) ws

/-- Every mapped range of the block, labelled, in the order of `Decode` (rule R64). -/
def labelled (rs : List Region) (w : Wiring) : List Labelled :=
  labelledRegions 0 rs ++ (.pic, w.picBase, w.picBase + Config.picWindowSize) ::
    (.lcd, w.lcdBase, w.lcdBase + Config.lcdWindowSize) :: labelledStubs 0 w.stubs

theorem labelledRegion_ranges (i : Nat) (r : Region) : (labelledRegion i r).map Prod.snd = r.ranges := by
  unfold labelledRegion Region.ranges
  split <;> rfl

theorem labelledRegions_ranges : ∀ (rs : List Region) (i : Nat),
    (labelledRegions i rs).map Prod.snd = rs.flatMap Region.ranges
  | [], _ => rfl
  | r :: rs, i => by
    simp [labelledRegions, labelledRegion_ranges, labelledRegions_ranges rs (i + 1)]

theorem labelledStubs_ranges : ∀ (ws : List StubWindow) (j : Nat),
    (labelledStubs j ws).map Prod.snd = ws.map fun x => (x.base, x.base + x.size)
  | [], _ => rfl
  | w :: ws, j => by simp [labelledStubs, labelledStubs_ranges ws (j + 1)]

/-- Without their labels, the labelled ranges are the mapped ranges of rule R61. -/
theorem labelled_ranges (rs : List Region) (w : Wiring) : (labelled rs w).map Prod.snd = mappedRanges rs w := by
  simp [labelled, mappedRanges, labelledRegions_ranges, labelledStubs_ranges]

/-- The target of an address in a labelled range. -/
def Labelled.target (a : Nat) (x : Labelled) : Target := ⟨x.1, a - x.2.1⟩

theorem decodeRegions_eq : ∀ (rs : List Region) (i a : Nat),
    decodeRegions i rs a = ((labelledRegions i rs).find? (Labelled.has a)).map (Labelled.target a)
  | [], _, _ => rfl
  | r :: rs, i, a => by
    have ih := decodeRegions_eq rs (i + 1) a
    simp only [decodeRegions, labelledRegions, labelledRegion]
    by_cases hp : r.inPrimary a = true
    · have : Labelled.has a (.primary i, r.start, r.start + r.size) = true := hp
      simp [hp, this, Labelled.target]
    · have h1 : Labelled.has a (.primary i, r.start, r.start + r.size) = false := by
        simpa [Labelled.has, Region.inPrimary] using hp
      by_cases hm : r.inAlias a = true
      · have hal : r.hasAlias = true := by
          simp only [Region.inAlias, Bool.and_eq_true] at hm; exact hm.1.1
        have h2 : Labelled.has a (.mirror i, r.aliasBase, r.aliasBase + r.size) = true := by
          simpa [Labelled.has, Region.inAlias, hal] using hm
        simp [hp, hm, h1, hal, h2, Labelled.target]
      · by_cases hal : r.hasAlias = true
        · have h2 : Labelled.has a (.mirror i, r.aliasBase, r.aliasBase + r.size) = false := by
            simpa [Labelled.has, Region.inAlias, hal] using hm
          simp [hp, hm, h1, hal, h2, ih]
        · simp [hp, hm, h1, hal, ih]

theorem decodeStubs_eq : ∀ (ws : List StubWindow) (j a : Nat),
    decodeStubs j ws a = ((labelledStubs j ws).find? (Labelled.has a)).map (Labelled.target a)
  | [], _, _ => rfl
  | w :: ws, j, a => by
    have ih := decodeStubs_eq ws (j + 1) a
    simp only [decodeStubs, labelledStubs, List.find?_cons]
    by_cases hw : inWindow w.base w.size a = true
    · have : Labelled.has a (.stub w.name j, w.base, w.base + w.size) = true := hw
      simp [hw, this, Labelled.target]
    · have : Labelled.has a (.stub w.name j, w.base, w.base + w.size) = false := by
        simpa [Labelled.has, inWindow] using hw
      simp [hw, this, ih]

/-- `Decode(addr)` is the first labelled range that contains the address. -/
theorem decodeAddr_eq (s : State) (a : Nat) :
    decodeAddr s a = ((labelled s.regions s.wiring).find? (Labelled.has a)).map (Labelled.target a) := by
  simp only [decodeAddr, labelled, List.find?_append, decodeRegions_eq]
  cases (labelledRegions 0 s.regions).find? (Labelled.has a) with
  | some x => simp
  | none =>
    simp only [Option.map_none, Option.none_or, decodeWindows, List.find?_cons]
    by_cases hp : inWindow s.wiring.picBase Config.picWindowSize a = true
    · have : Labelled.has a (.pic, s.wiring.picBase, s.wiring.picBase + Config.picWindowSize) = true := hp
      simp [hp, this, Labelled.target]
    · have h1 : Labelled.has a (.pic, s.wiring.picBase, s.wiring.picBase + Config.picWindowSize) = false := by
        simpa [Labelled.has, inWindow] using hp
      by_cases hl : inWindow s.wiring.lcdBase Config.lcdWindowSize a = true
      · have : Labelled.has a (.lcd, s.wiring.lcdBase, s.wiring.lcdBase + Config.lcdWindowSize) = true := hl
        simp [hp, h1, hl, this, Labelled.target]
      · have h2 : Labelled.has a (.lcd, s.wiring.lcdBase, s.wiring.lcdBase + Config.lcdWindowSize) = false := by
          simpa [Labelled.has, inWindow] using hl
        simp [hp, h1, hl, h2, decodeStubs_eq]

/-! ### Labels name ranges -/

/-- The number in a region's label. -/
theorem labelledRegions_label : ∀ (rs : List Region) (i : Nat) (x : Labelled), x ∈ labelledRegions i rs →
    ∃ k r, rs[k]? = some r ∧
      (x = (.primary (i + k), r.start, r.start + r.size) ∨
        r.hasAlias = true ∧ x = (.mirror (i + k), r.aliasBase, r.aliasBase + r.size))
  | [], _, _, h => by simp [labelledRegions] at h
  | r :: rs, i, x, h => by
    simp only [labelledRegions, labelledRegion, List.mem_append, List.mem_cons] at h
    rcases h with (h | h) | h
    · exact ⟨0, r, rfl, .inl h⟩
    · split at h
      · rename_i hal
        exact ⟨0, r, rfl, .inr ⟨hal, by simpa using h⟩⟩
      · simp at h
    · obtain ⟨k, r', hk, hx⟩ := labelledRegions_label rs (i + 1) x h
      refine ⟨k + 1, r', by simpa using hk, ?_⟩
      have : i + 1 + k = i + (k + 1) := by omega
      rwa [this] at hx

theorem labelledStubs_label : ∀ (ws : List StubWindow) (j : Nat) (x : Labelled), x ∈ labelledStubs j ws →
    ∃ k w, ws[k]? = some w ∧ x = (.stub w.name (j + k), w.base, w.base + w.size)
  | [], _, _, h => by simp [labelledStubs] at h
  | w :: ws, j, x, h => by
    simp only [labelledStubs, List.mem_cons] at h
    rcases h with h | h
    · exact ⟨0, w, rfl, h⟩
    · obtain ⟨k, w', hk, hx⟩ := labelledStubs_label ws (j + 1) x h
      refine ⟨k + 1, w', by simpa using hk, ?_⟩
      have : j + 1 + k = j + (k + 1) := by omega
      rwa [this] at hx

theorem labelledRegions_mem : ∀ (rs : List Region) (i k : Nat) (r : Region), rs[k]? = some r →
    (RangeId.primary (i + k), r.start, r.start + r.size) ∈ labelledRegions i rs ∧
    (r.hasAlias = true → (RangeId.mirror (i + k), r.aliasBase, r.aliasBase + r.size) ∈ labelledRegions i rs)
  | [], _, _, _, h => by simp at h
  | r :: rs, i, 0, r', h => by
    simp only [List.getElem?_cons_zero, Option.some.injEq] at h
    subst h
    simp only [labelledRegions, labelledRegion, Nat.add_zero, List.mem_append, List.mem_cons]
    exact ⟨by simp, fun h => .inl (.inr (by simp [h]))⟩
  | r :: rs, i, k + 1, r', h => by
    obtain ⟨h1, h2⟩ := labelledRegions_mem rs (i + 1) k r' (by simpa using h)
    have : i + 1 + k = i + (k + 1) := by omega
    rw [this] at h1 h2
    simp only [labelledRegions, List.mem_append]
    exact ⟨.inr h1, fun h => .inr (h2 h)⟩

theorem labelledStubs_mem : ∀ (ws : List StubWindow) (j k : Nat) (w : StubWindow), ws[k]? = some w →
    (RangeId.stub w.name (j + k), w.base, w.base + w.size) ∈ labelledStubs j ws
  | [], _, _, _, h => by simp at h
  | w :: ws, j, 0, w', h => by
    simp only [List.getElem?_cons_zero, Option.some.injEq] at h
    subst h
    simp [labelledStubs]
  | w :: ws, j, k + 1, w', h => by
    have := labelledStubs_mem ws (j + 1) k w' (by simpa using h)
    have e : j + 1 + k = j + (k + 1) := by omega
    rw [e] at this
    exact List.mem_cons_of_mem _ this

/-- A mapped range, by its label. -/
theorem labelled_cases {rs : List Region} {w : Wiring} {x : Labelled} (h : x ∈ labelled rs w) :
    (∃ k r, rs[k]? = some r ∧ x = (.primary k, r.start, r.start + r.size)) ∨
    (∃ k r, rs[k]? = some r ∧ r.hasAlias = true ∧ x = (.mirror k, r.aliasBase, r.aliasBase + r.size)) ∨
    x = (.pic, w.picBase, w.picBase + Config.picWindowSize) ∨
    x = (.lcd, w.lcdBase, w.lcdBase + Config.lcdWindowSize) ∨
    (∃ k v, w.stubs[k]? = some v ∧ x = (.stub v.name k, v.base, v.base + v.size)) := by
  simp only [labelled, List.mem_append, List.mem_cons] at h
  rcases h with h | h | h | h
  · obtain ⟨k, r, hk, hx⟩ := labelledRegions_label rs 0 x h
    rw [Nat.zero_add] at hx
    rcases hx with hx | ⟨hal, hx⟩
    · exact .inl ⟨k, r, hk, hx⟩
    · exact .inr (.inl ⟨k, r, hk, hal, hx⟩)
  · exact .inr (.inr (.inl h))
  · exact .inr (.inr (.inr (.inl h)))
  · obtain ⟨k, v, hk, hx⟩ := labelledStubs_label w.stubs 0 x h
    rw [Nat.zero_add] at hx
    exact .inr (.inr (.inr (.inr ⟨k, v, hk, hx⟩)))

/-- Two mapped ranges with one label are one range. -/
theorem labelled_inj {rs : List Region} {w : Wiring} {x y : Labelled} (hx : x ∈ labelled rs w) (hy : y ∈ labelled rs w)
    (h : x.1 = y.1) : x = y := by
  rcases labelled_cases hx with ⟨k, r, hk, rfl⟩ | ⟨k, r, hk, ha, rfl⟩ | rfl | rfl | ⟨k, r, hk, rfl⟩ <;>
  rcases labelled_cases hy with ⟨k', r', hk', rfl⟩ | ⟨k', r', hk', ha', rfl⟩ | rfl | rfl | ⟨k', r', hk', rfl⟩ <;>
  simp at h <;> first
    | rfl
    | (subst h; rw [hk] at hk'; cases hk'; rfl)
    | (obtain ⟨_, h⟩ := h; subst h; rw [hk] at hk'; cases hk'; rfl)

/-! ### A well-formed map -/

theorem pairwiseApart_iff : ∀ l : List (Nat × Nat), pairwiseApart l = true ↔ l.Pairwise fun x y => apart x y = true
  | [] => by simp [pairwiseApart]
  | x :: xs => by simp [pairwiseApart, pairwiseApart_iff xs, List.pairwise_cons]

/-- In a list of pairwise disjoint ranges, the first that contains an address is any that does. -/
theorem find_has {a : Nat} : ∀ {l : List Labelled} {x : Labelled},
    (l.map Prod.snd).Pairwise (fun x y => apart x y = true) → x ∈ l → Labelled.has a x = true →
    l.find? (Labelled.has a) = some x
  | [], _, _, h, _ => by simp at h
  | y :: l, x, hp, hx, ha => by
    simp only [List.map_cons, List.pairwise_cons, List.mem_map] at hp
    rcases List.mem_cons.mp hx with rfl | hx
    · simp [ha]
    · have hy : Labelled.has a y = false := by
        have := hp.1 x.2 ⟨x, hx, rfl⟩
        simp only [apart, Bool.or_eq_true, decide_eq_true_eq] at this
        simp only [Labelled.has, Bool.and_eq_true, decide_eq_true_eq] at ha
        simp only [Labelled.has, Bool.and_eq_false_iff, decide_eq_false_iff_not]
        omega
      simp [hy, find_has hp.2 hx ha]

/-- In a well-formed map, an address of a mapped range decodes to that range (rule R64). -/
theorem decodeAddr_of_mem {s : State} (h : wellFormedMap s.regions s.wiring = true) {x : Labelled}
    (hx : x ∈ labelled s.regions s.wiring) {a : Nat} (ha : x.2.1 ≤ a ∧ a < x.2.2) :
    decodeAddr s a = some ⟨x.1, a - x.2.1⟩ := by
  simp only [wellFormedMap, Bool.and_eq_true] at h
  rw [decodeAddr_eq, find_has (x := x) (by rw [labelled_ranges]; exact (pairwiseApart_iff _).mp h.2) hx
    (by simp [Labelled.has, ha])]
  rfl

/-- An address that decodes lies in the range it decodes to. -/
theorem decodeAddr_mem {s : State} {a : Nat} {t : Target} (h : decodeAddr s a = some t) :
    ∃ x ∈ labelled s.regions s.wiring, t = ⟨x.1, a - x.2.1⟩ ∧ x.2.1 ≤ a ∧ a < x.2.2 := by
  rw [decodeAddr_eq, Option.map_eq_some_iff] at h
  obtain ⟨x, hx, rfl⟩ := h
  have hm := List.mem_of_find?_eq_some hx
  have hh := List.find?_some hx
  simp only [Labelled.has, Bool.and_eq_true, decide_eq_true_eq] at hh
  exact ⟨x, hm, rfl, hh⟩

/-- An address decodes to nothing exactly when no mapped range contains it. -/
theorem decodeAddr_none {s : State} {a : Nat} :
    decodeAddr s a = none ↔ ∀ ρ ∈ mappedRanges s.regions s.wiring, ¬ (ρ.1 ≤ a ∧ a < ρ.2) := by
  rw [decodeAddr_eq, Option.map_eq_none_iff, List.find?_eq_none, ← labelled_ranges]
  simp only [List.mem_map, forall_exists_index, and_imp, forall_apply_eq_imp_iff₂, Labelled.has, Bool.and_eq_true,
    decide_eq_true_eq]

/-! ### Admission -/

/-- An admitted access lies inside one mapped range and the address space, and decodes to that range (rule R65). -/
theorem admitted_inside {s : State} {a n : Nat} (hn : 0 < n) (h : admitted s a n = true) :
    ∃ x ∈ labelled s.regions s.wiring,
      decodeAddr s a = some ⟨x.1, a - x.2.1⟩ ∧ x.2.1 ≤ a ∧ a + n ≤ x.2.2 ∧ a + n ≤ Config.addressTop := by
  simp only [admitted, Bool.and_eq_true, decide_eq_true_eq, List.all_eq_true, List.mem_range, beq_iff_eq] at h
  obtain ⟨⟨htop, hs⟩, hall⟩ := h
  obtain ⟨rid, hrid⟩ := Option.isSome_iff_exists.mp hs
  have hr : rangeAt s a = some rid := hrid
  simp only [rangeAt, Option.map_eq_some_iff] at hr
  obtain ⟨t, ht, htr⟩ := hr
  obtain ⟨x, hx, hxt, hlo, hhi⟩ := decodeAddr_mem ht
  have hlast := hall (n - 1) (by omega)
  rw [hrid] at hlast
  simp only [rangeAt, Option.map_eq_some_iff] at hlast
  obtain ⟨t', ht', htr'⟩ := hlast
  obtain ⟨y, hy, hyt, hylo, hyhi⟩ := decodeAddr_mem ht'
  have hxy : x = y := labelled_inj hx hy (by
    have e1 : x.1 = rid := by rw [← htr, hxt]
    have e2 : y.1 = rid := by rw [← htr', hyt]
    rw [e1, e2])
  subst hxy
  exact ⟨x, hx, by rw [ht, hxt], hlo, by omega, htop⟩

/-- In a well-formed map, an access inside a mapped range is admitted and decodes to that range. -/
theorem admitted_of_inside {s : State} (h : wellFormedMap s.regions s.wiring = true) {x : Labelled}
    (hx : x ∈ labelled s.regions s.wiring) {a n : Nat} (hn : 0 < n) (hlo : x.2.1 ≤ a) (hhi : a + n ≤ x.2.2) :
    admitted s a n = true ∧ decodeAddr s a = some ⟨x.1, a - x.2.1⟩ := by
  have hd : ∀ k, k < n → rangeAt s (a + k) = some x.1 := fun k hk => by
    rw [rangeAt, decodeAddr_of_mem h hx (by omega)]; rfl
  have h0 := hd 0 hn
  rw [Nat.add_zero] at h0
  refine ⟨?_, decodeAddr_of_mem h hx (by omega)⟩
  have htop : x.2.2 ≤ Config.addressTop := by
    simp only [wellFormedMap, Bool.and_eq_true, List.all_eq_true] at h
    have := h.1 x.2 (by rw [← labelled_ranges]; exact List.mem_map_of_mem hx)
    simp only [rangeFits, Bool.and_eq_true, decide_eq_true_eq] at this
    exact this.2
  simp only [admitted, Bool.and_eq_true, decide_eq_true_eq, List.all_eq_true, List.mem_range, beq_iff_eq]
  exact ⟨⟨by omega, by rw [h0]; rfl⟩, fun k hk => by rw [hd k hk, h0]⟩

/-- An access that no mapped range holds whole is not admitted. -/
theorem not_admitted {s : State} {a n : Nat} (hn : 0 < n)
    (h : ∀ ρ ∈ mappedRanges s.regions s.wiring, ¬ (ρ.1 ≤ a ∧ a + n ≤ ρ.2)) : admitted s a n = false := by
  by_contra hc
  obtain ⟨x, hx, _, hlo, hhi, _⟩ := admitted_inside hn (by simpa using hc)
  exact h x.2 (by rw [← labelled_ranges]; exact List.mem_map_of_mem hx) ⟨hlo, hhi⟩

/-- An access has at least one byte. -/
theorem Size.bytes_pos (n : Size) : 0 < n.bytes := by cases n <;> decide

/-! ### Memory accesses -/

/-- Where a memory access goes, when it goes anywhere: a region, and a backing offset at which all its bytes lie inside the
backing store. -/
theorem memoryTarget_next {s : State} {a n : Nat} (hn : 0 < n) {t : Nat × Nat} (h : memoryTarget s a n = .next t) :
    ∃ r, s.regions[t.1]? = some r ∧ t.2 + n ≤ r.size ∧
      (a = r.start + t.2 ∨ r.hasAlias = true ∧ a = r.aliasBase + t.2) := by
  unfold memoryTarget at h
  split at h
  · rename_i had
    obtain ⟨x, hx, hdec, hlo, hhi, _⟩ := admitted_inside hn had
    rw [hdec] at h
    rcases labelled_cases hx with ⟨k, r, hk, rfl⟩ | ⟨k, r, hk, ha, rfl⟩ | rfl | rfl | ⟨k, r, hk, rfl⟩ <;>
      simp only [RangeId.region?] at h
    · cases h
      exact ⟨r, hk, by simp only at hlo hhi; omega, .inl (by simp only at hlo ⊢; omega)⟩
    · cases h
      exact ⟨r, hk, by simp only at hlo hhi; omega, .inr ⟨ha, by simp only at hlo ⊢; omega⟩⟩
    all_goals cases h
  · cases h

/-- In a well-formed map, an access inside the primary range of a region goes to that region at its offset. -/
theorem memoryTarget_primary {s : State} (h : wellFormedMap s.regions s.wiring = true) {i : Nat} {r : Region}
    (hr : s.regions[i]? = some r) {o n : Nat} (hn : 0 < n) (ho : o + n ≤ r.size) :
    memoryTarget s (r.start + o) n = .next (i, o) := by
  have hm := (labelledRegions_mem s.regions 0 i r hr).1
  rw [Nat.zero_add] at hm
  have hx : (RangeId.primary i, r.start, r.start + r.size) ∈ labelled s.regions s.wiring :=
    List.mem_append_left _ hm
  obtain ⟨ha, hd⟩ := admitted_of_inside h hx (a := r.start + o) hn (by simp only; omega) (by simp only; omega)
  simp only [memoryTarget, ha, if_true, hd, RangeId.region?]
  rw [Nat.add_sub_cancel_left]

/-- In a well-formed map, an access inside the alias range of a region goes to that region at its offset. -/
theorem memoryTarget_mirror {s : State} (h : wellFormedMap s.regions s.wiring = true) {i : Nat} {r : Region}
    (hr : s.regions[i]? = some r) (hal : r.hasAlias = true) {o n : Nat} (hn : 0 < n) (ho : o + n ≤ r.size) :
    memoryTarget s (r.aliasBase + o) n = .next (i, o) := by
  have hm := (labelledRegions_mem s.regions 0 i r hr).2 hal
  rw [Nat.zero_add] at hm
  have hx : (RangeId.mirror i, r.aliasBase, r.aliasBase + r.size) ∈ labelled s.regions s.wiring :=
    List.mem_append_left _ hm
  obtain ⟨ha, hd⟩ := admitted_of_inside h hx (a := r.aliasBase + o) hn (by simp only; omega) (by simp only; omega)
  simp only [memoryTarget, ha, if_true, hd, RangeId.region?]
  rw [Nat.add_sub_cancel_left]

end Sys2Proof.Machine
end

