-- ==== Sys2Proof/Laws/Mirror.lean ====
section
/-! SUPPORT. What a memory access does once its target is known: the value of a load, the bytes of a store, and all that a read
and a write that go on can change (rules R66, R67, R125 and R126). -/

namespace Sys2Proof.Machine

/-! ### Values -/

/-- A one-byte load is the byte (rule R67). -/
theorem Memory.load_byte (m : Memory) (o : Nat) : m.load o 1 = BitVec.ofNat 32 (m.read o).toNat := by
  simp [Memory.load, BitVec.ofNat_toNat]

/-- A two-byte load is the little-endian sum (rule R67). -/
theorem Memory.load_half (m : Memory) (o : Nat) :
    m.load o 2 = BitVec.ofNat 32 ((m.read o).toNat + 256 * (m.read (o+1)).toNat) := by
  have h0 := (m.read o).isLt
  have h1 := (m.read (o+1)).isLt
  apply BitVec.eq_of_toNat_eq
  simp [Memory.load, Nat.shiftLeft_eq]
  omega

/-- A four-byte load is the little-endian sum (rule R67). -/
theorem Memory.load_word (m : Memory) (o : Nat) : m.load o 4 =
    BitVec.ofNat 32 ((m.read o).toNat + 256 * (m.read (o + 1)).toNat +
          65536 * (m.read (o + 2)).toNat + 16777216 * (m.read (o + 3)).toNat) := by
  have h0 := (m.read o).isLt
  have h1 := (m.read (o+1)).isLt
  have h2 := (m.read (o+2)).isLt
  have h3 := (m.read (o+3)).isLt
  apply BitVec.eq_of_toNat_eq
  simp [Memory.load, Nat.shiftLeft_eq]
  omega

/-- Byte `k` of a value as a number (rule R66). -/
theorem byteOf_eq (v : Word) (k : Nat) : byteOf v k = BitVec.ofNat 8 (v.toNat / 256 ^ k) := by
  apply BitVec.eq_of_toNat_eq
  have : (256 : Nat) ^ k = 2 ^ (8 * k) := by rw [Nat.pow_mul]
  simp [byteOf, BitVec.extractLsb'_toNat, Nat.shiftRight_eq_div_pow, this]

/-- A number of the access's size is what the bus carries of it. -/
theorem busValue_ofNat {n : Size} {x : Nat} (h : x < 2 ^ (8 * n.bytes)) :
    busValue n (BitVec.ofNat 32 x) = BitVec.ofNat 32 x := by
  apply busValue_of_fits
  simp only [Size.fits, decide_eq_true_eq, BitVec.toNat_ofNat]
  exact lt_of_le_of_lt (Nat.mod_le _ _) h

/-! ### Targets -/

/-- In a well-formed map, an access inside either range of a region goes to that region at its offset. -/
theorem memoryTarget_either {s : State} (h : wellFormedMap s.regions s.wiring = true) {i : Nat} {r : Region}
    {base o n : Nat} (hr : s.regions[i]? = some r)
    (hb : base = r.start ∨ r.start + r.size < r.stop ∧ base = r.stop - r.skip) (hn : 0 < n) (ho : o + n ≤ r.size) :
    memoryTarget s (base + o) n = .next (i, o) := by
  rcases hb with rfl | ⟨hal, rfl⟩
  · exact memoryTarget_primary h hr hn ho
  · exact memoryTarget_mirror h hr (by simpa [Region.hasAlias] using hal) hn ho

/-- In a well-formed map, an address of either range of a region is a number below 2^32. -/
theorem address_either {s : State} (h : wellFormedMap s.regions s.wiring = true) {i : Nat} {r : Region}
    {base o n : Nat} (hr : s.regions[i]? = some r)
    (hb : base = r.start ∨ r.start + r.size < r.stop ∧ base = r.stop - r.skip) (hn : 0 < n) (ho : o + n ≤ r.size) :
    (BitVec.ofNat 32 (base + o)).toNat = base + o := by
  rw [BitVec.toNat_ofNat, Nat.mod_eq_of_lt]
  have hm := labelledRegions_mem s.regions 0 i r hr
  rw [Nat.zero_add] at hm
  simp only [wellFormedMap, Bool.and_eq_true, List.all_eq_true] at h
  rcases hb with rfl | ⟨hal, rfl⟩
  · have := h.1 (r.start, r.start + r.size) (by
      rw [← labelled_ranges]; exact List.mem_map_of_mem (List.mem_append_left _ hm.1))
    simp only [rangeFits, Bool.and_eq_true, decide_eq_true_eq] at this
    simp only [Config.addressTop] at this
    omega
  · have := h.1 (r.aliasBase, r.aliasBase + r.size) (by
      rw [← labelled_ranges]
      exact List.mem_map_of_mem (List.mem_append_left _ (hm.2 (by simpa [Region.hasAlias] using hal))))
    simp only [rangeFits, Bool.and_eq_true, decide_eq_true_eq] at this
    simp only [Config.addressTop, Region.aliasBase] at this
    omega

/-! ### Accesses -/

/-- A read that reaches region `i` at offset `o` gives the load there. -/
theorem memRead_eq {s : State} {n : Size} {addr : Addr} {i o : Nat} {r : Region} (hs : s.phase = .running)
    (ht : memoryTarget s addr.toNat n.bytes = .next (i, o)) (hr : s.regions[i]? = some r) :
    memRead n addr s = .next (s.answer n (r.backing.load o n.bytes)) := by
  simp only [memRead, whenRunning_running hs, ht, andThen, backingOf, hr]

/-- A write that reaches region `i` at offset `o` sets that region to what the write leaves of it. -/
theorem memWrite_eq {s : State} {n : Size} {addr : Addr} {v : Word} {i o : Nat} {r : Region} (hs : s.phase = .running)
    (ht : memoryTarget s addr.toNat n.bytes = .next (i, o)) (hr : s.regions[i]? = some r) :
    memWrite n addr v s = .next (s.withRegions (s.regions.set i (r.writeBytes o v n))) := by
  simp only [memWrite, whenRunning_running hs, ht, andThen, updateRegion_eq_set _ _ _ _ hr]

/-- All that a memory read that goes on does. -/
theorem memRead_next {s t : State} {n : Size} {addr : Addr} (h : memRead n addr s = .next t) :
    s.phase = .running ∧ ∃ v, t = s.answer n v := by
  simp only [memRead, whenRunning_next, andThen_next] at h
  obtain ⟨hs, x, _, ht⟩ := h
  cases ht
  exact ⟨hs, _, rfl⟩

/-- All that a memory write that goes on does: one region is written, at an offset at which every byte lies in its store. -/
theorem memWrite_next {s t : State} {n : Size} {addr : Addr} {v : Word} (h : memWrite n addr v s = .next t) :
    s.phase = .running ∧ ∃ i o r, s.regions[i]? = some r ∧ o + n.bytes ≤ r.size ∧
      t = s.withRegions (s.regions.set i (r.writeBytes o v n)) := by
  have h' := h
  simp only [memWrite, whenRunning_next, andThen_next] at h
  obtain ⟨hs, ⟨i, o⟩, hx, _⟩ := h
  obtain ⟨r, hr, ho, _⟩ := memoryTarget_next (Size.bytes_pos n) hx
  rw [memWrite_eq hs hx hr] at h'
  cases h'
  exact ⟨hs, i, o, r, hr, ho, rfl⟩

/-- Writing bytes into a region keeps it well formed. -/
theorem Region.writeBytes_wf {r : Region} (h : r.wf) {o : Nat} {n : Size} (ho : o + n.bytes ≤ r.size) (v : Word) :
    (r.writeBytes o v n).wf := by
  unfold Region.writeBytes
  split
  · exact h
  · exact ⟨h.1, Memory.store_wf h.2.1 _ _ _, Memory.store_inside (size := r.size) h.2.2 _ _ _ ho⟩

/-- A write into a read-only region is dropped (rule R126). -/
theorem Region.writeBytes_readonly {r : Region} (h : r.readonly = true) (o : Nat) (n : Size) (v : Word) :
    r.writeBytes o v n = r := by simp [Region.writeBytes, h]

/-- A write changes nothing but the backing bytes. -/
theorem Region.writeBytes_layout (r : Region) (o : Nat) (n : Size) (v : Word) :
    (r.writeBytes o v n).layout = r.layout := by
  unfold Region.writeBytes
  split <;> rfl

@[simp] theorem Region.writeBytes_name (r : Region) (o : Nat) (n : Size) (v : Word) :
    (r.writeBytes o v n).name = r.name := by unfold Region.writeBytes; split <;> rfl
@[simp] theorem Region.writeBytes_ro (r : Region) (o : Nat) (n : Size) (v : Word) :
    (r.writeBytes o v n).readonly = r.readonly := by unfold Region.writeBytes; split <;> rfl
@[simp] theorem Region.writeBytes_ranges (r : Region) (o : Nat) (n : Size) (v : Word) :
    (r.writeBytes o v n).ranges = r.ranges := by unfold Region.writeBytes; split <;> rfl

/-- Replacing a region by one that agrees in some part keeps the list of those parts. -/
theorem map_set_of_eq {β : Type} {f : Region → β} {rs : List Region} {i : Nat} {r x : Region} (hr : rs[i]? = some r)
    (h : f x = f r) : (rs.set i x).map f = rs.map f := by
  obtain ⟨hi, rfl⟩ := List.getElem?_eq_some_iff.mp hr
  rw [List.map_set, h]
  have : f rs[i] = (rs.map f)[i]'(by simpa using hi) := by simp
  rw [this, List.set_getElem_self]

end Sys2Proof.Machine
end

