-- ==== Sys2Proof/Laws/Tick.lean ====
section
/-! SUPPORT. What the four steps of a firing of the LCD timer leave, field by field (rule R171). -/

namespace Sys2Proof.Machine

variable (s : State)

/-! ### Step 1 -/

/-- Where a draw phase ends, step 1 does nothing. -/
theorem State.tickLine_draw {s : State} (h : s.lcd.hblank = false) : s.tickLine = s := by simp [State.tickLine, h]

/-- Where an h-blank phase ends, step 1 enters the next line. -/
theorem State.tickLine_hblank {s : State} (h : s.lcd.hblank = true) : s.tickLine = s.enterLine := by
  simp [State.tickLine, h]

@[simp] theorem State.enterLine_phase : s.enterLine.phase = s.phase := by simp [State.enterLine]
@[simp] theorem State.enterLine_regions : s.enterLine.regions = s.regions := by simp [State.enterLine]
@[simp] theorem State.enterLine_wiring : s.enterLine.wiring = s.wiring := by simp [State.enterLine]
@[simp] theorem State.enterLine_out : s.enterLine.out = s.out := by simp [State.enterLine]
@[simp] theorem State.enterLine_input : s.enterLine.input = s.input := by simp [State.enterLine]
@[simp] theorem State.enterLine_master : s.enterLine.pic.master = s.pic.master := by simp [State.enterLine]
@[simp] theorem State.enterLine_irqEnabled : s.enterLine.pic.irqEnabled = s.pic.irqEnabled := by simp [State.enterLine]
@[simp] theorem State.enterLine_waitcnt : s.enterLine.pic.waitcnt = s.pic.waitcnt := by simp [State.enterLine]

/-- The LCD after step 1: the next line, and the two line values for it. -/
@[simp] theorem State.enterLine_lcd : s.enterLine.lcd = { s.lcd with
    ly := (s.lcd.ly + 1) % Config.linesPerFrame
    lineVb := s.lcd.irqVbEn && decide (Config.visibleLines ≤ (s.lcd.ly + 1) % Config.linesPerFrame)
    lineVm := s.lcd.irqVmEn && (s.lcd.ly + 1) % Config.linesPerFrame == s.lcd.lyc.toNat } := by
  simp [State.enterLine, Lcd.setLine, vbValue, vmValue, vcountMatch]
  rfl

/-- The pending bitmap after step 1: the V-blank drive, then the V-counter-match drive. -/
@[simp] theorem State.enterLine_level : s.enterLine.pic.level =
    driven s.wiring.edgeFilter s.lcd.lineVm
      (s.lcd.irqVmEn && (s.lcd.ly + 1) % Config.linesPerFrame == s.lcd.lyc.toNat) s.wiring.vmLine
      (driven s.wiring.edgeFilter s.lcd.lineVb
        (s.lcd.irqVbEn && decide (Config.visibleLines ≤ (s.lcd.ly + 1) % Config.linesPerFrame)) s.wiring.vbLine
        s.pic.level) := by
  simp [State.enterLine, Lcd.setLine, Lcd.line, Wiring.index, vbValue, vmValue, vcountMatch]
  rfl

theorem State.enterLine_consistent {s : State} (h : s.pic.consistent) : s.enterLine.pic.consistent := by
  unfold State.enterLine
  exact State.lcdDrive_consistent _ _ _ (State.lcdDrive_consistent _ _ _ h)

/-! ### Step 2 -/

@[simp] theorem State.tickPhase_phase : s.tickPhase.phase = s.phase := by simp [State.tickPhase]
@[simp] theorem State.tickPhase_regions : s.tickPhase.regions = s.regions := by simp [State.tickPhase]
@[simp] theorem State.tickPhase_wiring : s.tickPhase.wiring = s.wiring := by simp [State.tickPhase]
@[simp] theorem State.tickPhase_out : s.tickPhase.out = s.out := by simp [State.tickPhase]
@[simp] theorem State.tickPhase_input : s.tickPhase.input = s.input := by simp [State.tickPhase]
@[simp] theorem State.tickPhase_master : s.tickPhase.pic.master = s.pic.master := by simp [State.tickPhase]
@[simp] theorem State.tickPhase_irqEnabled : s.tickPhase.pic.irqEnabled = s.pic.irqEnabled := by simp [State.tickPhase]
@[simp] theorem State.tickPhase_waitcnt : s.tickPhase.pic.waitcnt = s.pic.waitcnt := by simp [State.tickPhase]

/-- The LCD after step 2: the other phase, and the H-blank line's value for it. -/
@[simp] theorem State.tickPhase_lcd : s.tickPhase.lcd = { s.lcd with
    hblank := !s.lcd.hblank, lineHb := s.lcd.irqHbEn && !s.lcd.hblank } := by
  simp [State.tickPhase, Lcd.setLine, hbValue]

/-- The pending bitmap after step 2. -/
@[simp] theorem State.tickPhase_level : s.tickPhase.pic.level =
    driven s.wiring.edgeFilter s.lcd.lineHb (s.lcd.irqHbEn && !s.lcd.hblank) s.wiring.hbLine s.pic.level := by
  simp [State.tickPhase, Lcd.line, Wiring.index, hbValue]

theorem State.tickPhase_consistent {s : State} (h : s.pic.consistent) : s.tickPhase.pic.consistent := by
  unfold State.tickPhase
  exact State.lcdDrive_consistent _ _ _ h

/-! ### Steps 3 and 4 -/

/-- Step 3 issues the events of the line, if a draw phase has begun, and changes nothing else. -/
theorem State.tickEmit_eq : s.tickEmit = s.withOut { s.out with
    display := s.out.display ++ if s.lcd.hblank then [] else lineEvents s.lcd.ly } := by
  unfold State.tickEmit lineEvents State.emit
  split
  · simp [*]; rfl
  · split
    · rename_i _ h
      have h' : s.lcd.ly = 159 := h
      simp_all [State.withOut]
    · rename_i _ h
      have h' : ¬ s.lcd.ly = 159 := h
      simp [*]

@[simp] theorem State.tickRearm_phase : s.tickRearm.phase = s.phase := rfl
@[simp] theorem State.tickRearm_regions : s.tickRearm.regions = s.regions := rfl
@[simp] theorem State.tickRearm_wiring : s.tickRearm.wiring = s.wiring := rfl
@[simp] theorem State.tickRearm_pic : s.tickRearm.pic = s.pic := rfl
@[simp] theorem State.tickRearm_out : s.tickRearm.out = s.out := rfl
@[simp] theorem State.tickRearm_input : s.tickRearm.input = s.input := rfl
@[simp] theorem State.tickRearm_lcd : s.tickRearm.lcd = { s.lcd with
    deadline := s.lcd.deadline + if s.lcd.hblank then Config.hblankTime else Config.drawTime } := rfl

/-! ### The whole firing -/

section tick
variable {s : State}

@[simp] theorem State.tick_phase (s : State) : s.tick.phase = s.phase := by
  cases h : s.lcd.hblank <;> simp [State.tick, State.tickEmit_eq, State.tickLine, h]
@[simp] theorem State.tick_regions (s : State) : s.tick.regions = s.regions := by
  cases h : s.lcd.hblank <;> simp [State.tick, State.tickEmit_eq, State.tickLine, h]
@[simp] theorem State.tick_wiring (s : State) : s.tick.wiring = s.wiring := by
  cases h : s.lcd.hblank <;> simp [State.tick, State.tickEmit_eq, State.tickLine, h]
@[simp] theorem State.tick_input (s : State) : s.tick.input = s.input := by
  cases h : s.lcd.hblank <;> simp [State.tick, State.tickEmit_eq, State.tickLine, h]
@[simp] theorem State.tick_master (s : State) : s.tick.pic.master = s.pic.master := by
  cases h : s.lcd.hblank <;> simp [State.tick, State.tickEmit_eq, State.tickLine, h]
@[simp] theorem State.tick_irqEnabled (s : State) : s.tick.pic.irqEnabled = s.pic.irqEnabled := by
  cases h : s.lcd.hblank <;> simp [State.tick, State.tickEmit_eq, State.tickLine, h]
@[simp] theorem State.tick_waitcnt (s : State) : s.tick.pic.waitcnt = s.pic.waitcnt := by
  cases h : s.lcd.hblank <;> simp [State.tick, State.tickEmit_eq, State.tickLine, h]

/-- The LCD after a firing that ends a draw phase. -/
theorem State.tick_lcd_draw (h : s.lcd.hblank = false) : s.tick.lcd = { s.lcd with
    hblank := true, lineHb := s.lcd.irqHbEn, deadline := s.lcd.deadline + Config.hblankTime } := by
  simp [State.tick, State.tickEmit_eq, State.tickLine_draw h, h]

/-- The LCD after a firing that ends an h-blank phase. -/
theorem State.tick_lcd_hblank (h : s.lcd.hblank = true) : s.tick.lcd = { s.lcd with
    ly := (s.lcd.ly + 1) % Config.linesPerFrame, hblank := false
    lineVb := s.lcd.irqVbEn && decide (Config.visibleLines ≤ (s.lcd.ly + 1) % Config.linesPerFrame)
    lineVm := s.lcd.irqVmEn && (s.lcd.ly + 1) % Config.linesPerFrame == s.lcd.lyc.toNat
    lineHb := false, deadline := s.lcd.deadline + Config.drawTime } := by
  simp [State.tick, State.tickEmit_eq, State.tickLine_hblank h, h]

/-- A firing that ends a draw phase issues nothing. -/
theorem State.tick_out_draw (h : s.lcd.hblank = false) : s.tick.out = s.out := by
  simp [State.tick, State.tickEmit_eq, State.tickLine_draw h, h]

/-- A firing that ends an h-blank phase issues the events of the line it enters. -/
theorem State.tick_out_hblank (h : s.lcd.hblank = true) : s.tick.out = { s.out with
    display := s.out.display ++ lineEvents ((s.lcd.ly + 1) % Config.linesPerFrame) } := by
  simp [State.tick, State.tickEmit_eq, State.tickLine_hblank h, h]

/-- A firing keeps the published output the aggregate of the PIC's fields. -/
theorem State.tick_consistent (h : s.pic.consistent) : s.tick.pic.consistent := by
  have hl : s.tickLine.pic.consistent := by
    unfold State.tickLine
    split
    · exact State.enterLine_consistent h
    · exact h
  simp only [State.tick, State.tickEmit_eq, State.tickRearm_pic, State.withOut_pic]
  exact State.tickPhase_consistent hl

end tick

end Sys2Proof.Machine
end

