-- ==== Sys2Proof/Laws/Exec.lean ====
section
/-! SUPPORT. One law per operation: when it goes on, and what it leaves then. Statements over all operations cite these and
unfold no meaning. -/

namespace Sys2Proof.Machine

variable {s t : State}

theorem next_is {x : State} : (Host.Outcome.next x : Result) = .next t ↔ t = x :=
  ⟨fun h => by cases h; rfl, fun h => by rw [h]⟩

/-! ### Memory -/

theorem exec_mrd8 {addr : Addr} (h : exec (.mrd8 addr) s = .next t) : s.phase = .running ∧ ∃ v, t = s.answer .byte v :=
  memRead_next h

theorem exec_mrd16 {addr : Addr} (h : exec (.mrd16 addr) s = .next t) : s.phase = .running ∧ ∃ v, t = s.answer .half v :=
  memRead_next h

theorem exec_mrd32 {addr : Addr} (h : exec (.mrd32 addr) s = .next t) : s.phase = .running ∧ ∃ v, t = s.answer .word v :=
  memRead_next h

theorem exec_mwr8 {addr : Addr} {v : Byte} (h : exec (.mwr8 addr v) s = .next t) :
    s.phase = .running ∧ ∃ i o r, s.regions[i]? = some r ∧ o + 1 ≤ r.size ∧
      t = s.withRegions (s.regions.set i (r.writeBytes o (v.setWidth 32) .byte)) :=
  memWrite_next h

theorem exec_mwr16 {addr : Addr} {v : Half} (h : exec (.mwr16 addr v) s = .next t) :
    s.phase = .running ∧ ∃ i o r, s.regions[i]? = some r ∧ o + 2 ≤ r.size ∧
      t = s.withRegions (s.regions.set i (r.writeBytes o (v.setWidth 32) .half)) :=
  memWrite_next h

theorem exec_mwr32 {addr : Addr} {v : Word} (h : exec (.mwr32 addr v) s = .next t) :
    s.phase = .running ∧ ∃ i o r, s.regions[i]? = some r ∧ o + 4 ≤ r.size ∧
      t = s.withRegions (s.regions.set i (r.writeBytes o v .word)) :=
  memWrite_next h

/-! ### PIC -/

theorem exec_picRdIe {n : Size} : exec (.picRdIe n) s = .next t ↔
    s.phase = .running ∧ t = s.answer n (readIe n s.pic) := by
  simp only [exec, execPicRdIe, whenRunning_next, next_is]

theorem exec_picRdIf {n : Size} : exec (.picRdIf n) s = .next t ↔
    s.phase = .running ∧ t = (s.flagOversized .pic .read 0x02 n 2).answer n (widen s.pic.level) := by
  simp only [exec, execPicRdIf, whenRunning_next, next_is]

theorem exec_picRdWaitcnt {n : Size} : exec (.picRdWaitcnt n) s = .next t ↔
    s.phase = .running ∧ t = s.answer n (s.pic.waitcnt.setWidth 32) := by
  simp only [exec, execPicRdWaitcnt, whenRunning_next, next_is]

theorem exec_picRdIme {n : Size} : exec (.picRdIme n) s = .next t ↔
    s.phase = .running ∧ t = s.answer n (if s.pic.master then 0#32 else 1#32) := by
  simp only [exec, execPicRdIme, whenRunning_next, next_is]

theorem exec_picRdUnknown {off : BitVec 8} {n : Size} : exec (.picRdUnknown off n) s = .next t ↔
    s.phase = .running ∧ off.toNat + n.bytes ≤ Config.picWindowSize ∧ t = readUnlisted s .pic off.toNat n := by
  simp only [exec, execPicRdUnknown, whenRunning_next, whenInside_next, next_is]

theorem exec_picWrIe {n : Size} {v : Word} : exec (.picWrIe n v) s = .next t ↔
    s.phase = .running ∧ t = s.withPic (writeIe n (busValue n v) s.pic).update := by
  simp only [exec, execPicWrIe, whenRunning_next, next_is]

theorem exec_picWrIf {n : Size} {v : Word} : exec (.picWrIf n v) s = .next t ↔
    s.phase = .running ∧ t = (s.flagOversized .pic .write 0x02 n 2).withPic (writeIf (busValue n v) s.pic).update := by
  simp only [exec, execPicWrIf, whenRunning_next, next_is]

theorem exec_picWrWaitcnt {n : Size} {v : Word} : exec (.picWrWaitcnt n v) s = .next t ↔
    s.phase = .running ∧ t = s.withPic (writeWaitcnt (busValue n v) s.pic).update := by
  simp only [exec, execPicWrWaitcnt, whenRunning_next, next_is]

theorem exec_picWrIme {n : Size} {v : Word} : exec (.picWrIme n v) s = .next t ↔
    s.phase = .running ∧ t = s.withPic (writeIme (busValue n v) s.pic).update := by
  simp only [exec, execPicWrIme, whenRunning_next, next_is]

theorem exec_picWrUnknown {off : BitVec 8} {n : Size} {v : Word} : exec (.picWrUnknown off n v) s = .next t ↔
    s.phase = .running ∧ off.toNat + n.bytes ≤ Config.picWindowSize ∧ t = writeUnlisted s .pic off.toNat n := by
  simp only [exec, execPicWrUnknown, whenRunning_next, whenInside_next, next_is]

theorem exec_picLine {i : Fin 16} {b : Bool} : exec (.picLine i b) s = .next t ↔
    s.phase = .running ∧ t = s.picLine i b := by
  simp only [exec, execPicLine, whenRunning_next, next_is]

/-! ### LCD -/

theorem exec_lcdTick : exec (.lcdTick) s = .next t ↔
    s.phase = .running ∧ t = s.tick := by
  simp only [exec, execLcdTick, whenRunning_next, next_is]

theorem exec_lcdRdDispcnt {n : Size} : exec (.lcdRdDispcnt n) s = .next t ↔
    s.phase = .running ∧ t = s.answer n (widen (packDispcnt s.lcd)) := by
  simp only [exec, execLcdRdDispcnt, whenRunning_next, next_is]

theorem exec_lcdRdDispstat {n : Size} : exec (.lcdRdDispstat n) s = .next t ↔
    s.phase = .running ∧ t = (s.flagOversized .lcd .read 0x04 n 2).answer n (widen (packDispstat s.lcd)) := by
  simp only [exec, execLcdRdDispstat, whenRunning_next, next_is]

theorem exec_lcdRdVcount {n : Size} : exec (.lcdRdVcount n) s = .next t ↔
    s.phase = .running ∧ t = (s.flagOversized .lcd .read 0x06 n 2).answer n (BitVec.ofNat 32 s.lcd.ly) := by
  simp only [exec, execLcdRdVcount, whenRunning_next, next_is]

theorem exec_lcdRdUnknown {off : BitVec 7} {n : Size} : exec (.lcdRdUnknown off n) s = .next t ↔
    s.phase = .running ∧ off.toNat + n.bytes ≤ Config.lcdWindowSize ∧ t = readUnlisted s .lcd off.toNat n := by
  simp only [exec, execLcdRdUnknown, whenRunning_next, whenInside_next, next_is]

theorem exec_lcdWrDispcnt {n : Size} {v : Word} : exec (.lcdWrDispcnt n v) s = .next t ↔
    s.phase = .running ∧ t = s.withLcd (unpackDispcnt (lowHalf (busValue n v)) s.lcd) := by
  simp only [exec, execLcdWrDispcnt, whenRunning_next, next_is]

theorem exec_lcdWrDispstat {n : Size} {v : Word} : exec (.lcdWrDispstat n v) s = .next t ↔
    s.phase = .running ∧ t = (s.flagOversized .lcd .write 0x04 n 2).withLcd (writeDispstat n (busValue n v) s.lcd) := by
  simp only [exec, execLcdWrDispstat, whenRunning_next, next_is]

theorem exec_lcdWrLyc {n : Size} {v : Word} : exec (.lcdWrLyc n v) s = .next t ↔
    s.phase = .running ∧ t = (s.flagOversized .lcd .write 0x05 n 1).withLcd { s.lcd with lyc := lowerLyc (busValue n v) } := by
  simp only [exec, execLcdWrLyc, whenRunning_next, next_is]

theorem exec_lcdWrVcount {n : Size} {v : Word} : exec (.lcdWrVcount n v) s = .next t ↔
    s.phase = .running ∧ t = s.flagOversized .lcd .write 0x06 n 2 := by
  simp only [exec, execLcdWrVcount, whenRunning_next, next_is]

theorem exec_lcdWrUnknown {off : BitVec 7} {n : Size} {v : Word} : exec (.lcdWrUnknown off n v) s = .next t ↔
    s.phase = .running ∧ off.toNat + n.bytes ≤ Config.lcdWindowSize ∧ t = writeUnlisted s .lcd off.toNat n := by
  simp only [exec, execLcdWrUnknown, whenRunning_next, whenInside_next, next_is]

/-! ### Stubs -/

theorem exec_stubRd {name : StubName} {off : Nat} {n : Size} : exec (.stubRd name off n) s = .next t ↔
    s.phase = .running ∧ stubAdmits s name off n = true ∧ t = readUnlisted s (.stub name) off n := by
  simp only [exec, execStubRd, whenRunning_next, whenStub_next, next_is]

theorem exec_stubWr {name : StubName} {off : Nat} {n : Size} {v : Word} : exec (.stubWr name off n v) s = .next t ↔
    s.phase = .running ∧ stubAdmits s name off n = true ∧ t = writeUnlisted s (.stub name) off n := by
  simp only [exec, execStubWr, whenRunning_next, whenStub_next, next_is]

/-! ### Build-time operations -/

theorem exec_sysCreateRegion {name : RegionName} {start stop size skip : Nat} :
    exec (.sysCreateRegion name start stop size skip) s = .next t ↔ s.phase = .building ∧
      ∃ rs, createRegion s.regions ⟨name, start, stop, size, skip, false⟩ = .next rs ∧ t = s.withRegions rs := by
  simp only [exec, execSysCreateRegion, whenBuilding_next, andThen_next, next_is]

theorem exec_sysLoadImage {name : RegionName} {image : Option (List Byte)} :
    exec (.sysLoadImage name image) s = .next t ↔ s.phase = .building ∧
      ∃ rs, loadImage s.regions name image = .next rs ∧ t = s.withRegions rs := by
  simp only [exec, execSysLoadImage, whenBuilding_next, andThen_next, next_is]

theorem exec_sysMarkReadonly {name : RegionName} :
    exec (.sysMarkReadonly name) s = .next t ↔ s.phase = .building ∧
      ∃ rs, markReadonly s.regions name = .next rs ∧ t = s.withRegions rs := by
  simp only [exec, execSysMarkReadonly, whenBuilding_next, andThen_next, next_is]

theorem exec_sysBuild {p : BuildParams} :
    exec (.sysBuild p) s = .next t ↔ s.phase = .building ∧ buildSystem p s = .next t := by
  simp only [exec, execSysBuild, whenBuilding_next]

end Sys2Proof.Machine
end

