-- ==== Sys2Proof/Laws/Parse.lean ====
section
/-! SUPPORT. The operand readers undo the operand writers, one lemma per reader: what is written and then read comes back, and
the bytes after it are left over. -/

namespace Sys2Proof

theorem except_bind_ok {ε α β : Type} (a : α) (f : α → Except ε β) : (Except.ok a >>= f) = f a := rfl

theorem except_bind_error {ε α β : Type} (e : ε) (f : α → Except ε β) : ((Except.error e : Except ε α) >>= f) = .error e := rfl

theorem writeNat_length : ∀ (k v : Nat), (writeNat k v).length = k
  | 0, _ => rfl
  | k + 1, v => by simp [writeNat, writeNat_length k]

theorem readNat_writeNat : ∀ (k v : Nat) (rest : List Byte), v < 256 ^ k →
    readNat k (writeNat k v ++ rest) = .ok (v, rest)
  | 0, v, rest, h => by
    have : v = 0 := by simpa using h
    subst this; rfl
  | k + 1, v, rest, h => by
    have hk : v / 256 < 256 ^ k := by
      rw [Nat.div_lt_iff_lt_mul (by decide)]
      rwa [Nat.pow_succ] at h
    simp only [writeNat, List.cons_append, readNat, readNat_writeNat k (v / 256) rest hk, except_bind_ok]
    congr 2
    simp only [BitVec.toNat_ofNat, Nat.reducePow]
    omega

theorem readFlag_writeFlag (b : Bool) (rest : List Byte) : readFlag (writeFlag b ++ rest) = .ok (b, rest) := by
  cases b <;> rfl

theorem Size.code_lt (n : Size) : n.code < 3 := by cases n <;> decide

theorem readSize_code (n : Size) : readSize n.code = .ok n := by cases n <;> rfl

theorem Size.fits_bound {n : Size} {v : Word} (h : n.fits v = true) : v.toNat < 256 ^ n.bytes := by
  simp only [Size.fits, decide_eq_true_eq] at h
  cases n <;> simpa [Size.bytes] using h

theorem readValue_writeValue {n : Size} {v : Word} (h : n.fits v = true) (rest : List Byte) :
    readValue n (writeValue n v ++ rest) = .ok (v, rest) := by
  simp only [readValue, writeValue, readNat_writeNat _ _ _ (Size.fits_bound h), except_bind_ok, BitVec.ofNat_toNat,
    BitVec.setWidth_eq]

theorem readLine_writeNat (i : Fin 16) (rest : List Byte) : readLine (writeNat 1 i.val ++ rest) = .ok (i, rest) := by
  have h : i.val < 256 ^ 1 := by have := i.isLt; omega
  simp [readLine, readNat_writeNat 1 i.val rest h, except_bind_ok, i.isLt]

theorem RegionName.ofCode_code (x : RegionName) : RegionName.ofCode x.code = x := by cases x <;> rfl

theorem StubName.ofCode_code (x : StubName) : StubName.ofCode x.code = x := by cases x <;> rfl

theorem RegionName.code_lt {x : RegionName} (h : x.fits = true) : x.code < 256 ^ 4 := by
  cases x <;> simp_all [RegionName.fits, RegionName.code, fits32]

theorem StubName.code_lt {x : StubName} (h : x.fits = true) : x.code < 256 ^ 4 := by
  cases x <;> simp_all [StubName.fits, StubName.code, fits32]

theorem readRegionName_code {x : RegionName} (h : x.fits = true) (rest : List Byte) :
    readRegionName (writeNat 4 x.code ++ rest) = .ok (x, rest) := by
  simp only [readRegionName, readNat_writeNat _ _ _ (RegionName.code_lt h), except_bind_ok, RegionName.ofCode_code]

theorem readStubName_code {x : StubName} (h : x.fits = true) (rest : List Byte) :
    readStubName (writeNat 4 x.code ++ rest) = .ok (x, rest) := by
  simp only [readStubName, readNat_writeNat _ _ _ (StubName.code_lt h), except_bind_ok, StubName.ofCode_code]

theorem fits32_bound {k : Nat} (h : fits32 k = true) : k < 256 ^ 4 := by simpa [fits32] using h

theorem fits64_bound {k : Nat} (h : fits64 k = true) : k < 256 ^ 8 := by simpa [fits64] using h

theorem readImage_writeImage {x : Option (List Byte)} (h : imageFits x = true) (rest : List Byte) :
    readImage (writeImage x ++ rest) = .ok (x, rest) := by
  cases x with
  | none => simp only [readImage, writeImage, readFlag_writeFlag, except_bind_ok, if_true]
  | some bytes =>
    simp only [readImage, writeImage, List.append_assoc, readFlag_writeFlag, except_bind_ok, Bool.false_eq_true,
      if_false, readNat_writeNat _ _ _ (fits32_bound h), List.length_append, Nat.le_add_right, if_true,
      List.take_left', List.drop_left']

theorem readRegionSpec_write {r : RegionSpec} (h : r.fits = true) (rest : List Byte) :
    readRegionSpec (writeRegionSpec r ++ rest) = .ok (r, rest) := by
  simp only [RegionSpec.fits, Bool.and_eq_true] at h
  obtain ⟨⟨⟨⟨h1, h2⟩, h3⟩, h4⟩, h5⟩ := h
  simp only [readRegionSpec, writeRegionSpec, List.append_assoc, readRegionName_code h1, except_bind_ok,
    readNat_writeNat _ _ _ (fits64_bound h2), readNat_writeNat _ _ _ (fits64_bound h3),
    readNat_writeNat _ _ _ (fits64_bound h4), readNat_writeNat _ _ _ (fits64_bound h5), readFlag_writeFlag]

theorem readStubWindow_write {w : StubWindow} (h : w.fits = true) (rest : List Byte) :
    readStubWindow (writeStubWindow w ++ rest) = .ok (w, rest) := by
  simp only [StubWindow.fits, Bool.and_eq_true] at h
  obtain ⟨⟨h1, h2⟩, h3⟩ := h
  simp only [readStubWindow, writeStubWindow, List.append_assoc, readStubName_code h1, except_bind_ok,
    readNat_writeNat _ _ _ (fits64_bound h2), readNat_writeNat _ _ _ (fits64_bound h3)]

theorem readMany_writeMany {α : Type} {read : List Byte → Except DecodeError (α × List Byte)} {write : α → List Byte} :
    ∀ (xs : List α) (rest : List Byte), (∀ x ∈ xs, ∀ rest, read (write x ++ rest) = .ok (x, rest)) →
      readMany read xs.length (writeMany write xs ++ rest) = .ok (xs, rest)
  | [], _, _ => rfl
  | x :: xs, rest, h => by
    simp only [writeMany, List.length_cons, readMany, List.append_assoc, h x List.mem_cons_self, except_bind_ok,
      readMany_writeMany xs rest (fun y hy => h y (List.mem_cons_of_mem _ hy))]

theorem readBuildParams_write {p : BuildParams} (h : p.fits = true) (rest : List Byte) :
    readBuildParams (writeBuildParams p ++ rest) = .ok (p, rest) := by
  unfold writeBuildParams
  split
  · rename_i hp
    simp only [readBuildParams, readFlag_writeFlag, except_bind_ok, Bool.false_eq_true, if_false, hp]
  · simp only [BuildParams.fits, Bool.and_eq_true, List.all_eq_true] at h
    obtain ⟨⟨⟨⟨⟨⟨⟨h1, h2⟩, h3⟩, h4⟩, h5⟩, h6⟩, h7⟩, h8⟩ := h
    simp only [readBuildParams, List.append_assoc, readFlag_writeFlag, except_bind_ok, if_true,
      readNat_writeNat _ _ _ (fits32_bound h1), readNat_writeNat _ _ _ (fits64_bound h3),
      readNat_writeNat _ _ _ (fits64_bound h4), readNat_writeNat _ _ _ (fits32_bound h5),
      readMany_writeMany p.regions _ (fun r hr rest => readRegionSpec_write (h2 r hr) rest),
      readMany_writeMany p.stubs _ (fun w hw rest => readStubWindow_write (h6 w hw) rest),
      readLine_writeNat, readImage_writeImage h7, readImage_writeImage h8]

/-- The header's fields come back: key, size code, a zero bit 11 and the format code. -/
theorem readHeader (f : Format) {key code : Nat} (hk : key < 512) (hc : code < 4) (rest : List Byte) :
    ∃ h, readNat 2 (header f key code ++ rest) = .ok (h, rest) ∧
      h % 512 = key ∧ h / 512 % 4 = code ∧ h / 2048 % 2 = 0 ∧ h / 4096 = f.code := by
  have hf : f.code < 8 := by cases f <;> decide
  refine ⟨key + 512 * code + 4096 * f.code, readNat_writeNat 2 _ _ (by omega), ?_, ?_, ?_, ?_⟩ <;> omega

/-! ### Selection and the header -/

theorem picWriteAt_unknown {off : BitVec 8} (h : picListed off = false) (n : Size) (v : Word) :
    picWriteAt off n v = .picWrUnknown off n v := by
  simp only [picListed, Bool.or_eq_false_iff, beq_eq_false_iff_ne] at h
  obtain ⟨⟨⟨a, b⟩, c⟩, d⟩ := h
  unfold picWriteAt
  rw [if_neg a, if_neg b, if_neg c, if_neg d]

theorem picReadAt_unknown {off : BitVec 8} (h : picListed off = false) (n : Size) :
    picReadAt off n = .picRdUnknown off n := by
  simp only [picListed, Bool.or_eq_false_iff, beq_eq_false_iff_ne] at h
  obtain ⟨⟨⟨a, b⟩, c⟩, d⟩ := h
  unfold picReadAt
  rw [if_neg a, if_neg b, if_neg c, if_neg d]

theorem lcdReadAt_unknown {off : BitVec 7} (h : lcdReadListed off = false) (n : Size) :
    lcdReadAt off n = .lcdRdUnknown off n := by
  simp only [lcdReadListed, Bool.or_eq_false_iff, beq_eq_false_iff_ne] at h
  obtain ⟨⟨a, b⟩, c⟩ := h
  unfold lcdReadAt
  rw [if_neg a, if_neg b, if_neg c]

theorem lcdWriteAt_unknown {off : BitVec 7} (h : lcdWriteListed off = false) (n : Size) (v : Word) :
    lcdWriteAt off n v = .lcdWrUnknown off n v := by
  simp only [lcdWriteListed, Bool.or_eq_false_iff, beq_eq_false_iff_ne] at h
  obtain ⟨⟨⟨a, b⟩, c⟩, d⟩ := h
  unfold lcdWriteAt
  rw [if_neg a, if_neg b, if_neg c, if_neg d]

/-- Decoding bytes that begin with a header is decoding the rest by the header's format, key and size. -/
theorem decode_header {f : Format} {key code : Nat} (hk : key < 512) (hc : code < 4) (rest bs : List Byte)
    (hbs : bs = header f key code ++ rest) : decode bs =
    match f with
     | .mem => (noSize code >>= fun _ => decodeMem key rest)
     | .pic => (readSize code >>= fun n => decodePic key n rest)
     | .lcd => (readSize code >>= fun n => decodeLcd key n rest)
     | .stub => (readSize code >>= fun n => decodeStub key n rest)
     | .line => (noSize code >>= fun _ => decodeLine key rest)
     | .tick => (noSize code >>= fun _ => decodeTick key rest)
     | .build => (noSize code >>= fun _ => decodeBuild key rest)
     | .access => (readSize code >>= fun n => decodeAccess key n rest) := by
  subst hbs
  obtain ⟨h, h1, h2, h3, h4, h5⟩ := readHeader f hk hc rest
  unfold decode
  rw [h1, except_bind_ok]
  dsimp only
  rw [h2, h3, h4, h5, if_neg (by decide)]
  cases f <;> rfl

end Sys2Proof
end

