-- ==== Sys2Proof/Laws/PerInstr.lean ====
section
/-! SUPPORT. Laws of the instruction as syntax, one lemma per constructor: its encoding begins with a header that carries a
select key of its format and a size code. -/

namespace Sys2Proof.Laws.EncodeHeader

/-- The bytes of the operation begin with a header whose key fits the format's select key and whose size code is a size's. -/
def Statement (i : Instr) : Prop :=
  ∃ (f : Format) (key code : Nat) (rest : List Byte), key < 2 ^ f.keyBits ∧ code < 3 ∧ encode i = header f key code ++ rest

theorem mrd8 (addr : Addr) : Statement (.mrd8 addr) :=
  ⟨.mem, 0x0, 0, _, by decide, by decide, rfl⟩

theorem mrd16 (addr : Addr) : Statement (.mrd16 addr) :=
  ⟨.mem, 0x1, 0, _, by decide, by decide, rfl⟩

theorem mrd32 (addr : Addr) : Statement (.mrd32 addr) :=
  ⟨.mem, 0x2, 0, _, by decide, by decide, rfl⟩

theorem mwr8 (addr : Addr) (v : Byte) : Statement (.mwr8 addr v) :=
  ⟨.mem, 0x4, 0, _, by decide, by decide, rfl⟩

theorem mwr16 (addr : Addr) (v : Half) : Statement (.mwr16 addr v) :=
  ⟨.mem, 0x5, 0, _, by decide, by decide, rfl⟩

theorem mwr32 (addr : Addr) (v : Word) : Statement (.mwr32 addr v) :=
  ⟨.mem, 0x6, 0, _, by decide, by decide, rfl⟩

theorem picRdIe (n : Size) : Statement (.picRdIe n) :=
  ⟨.pic, 0x000, n.code, _, by decide, n.code_lt, (List.append_nil _).symm⟩

theorem picRdIf (n : Size) : Statement (.picRdIf n) :=
  ⟨.pic, 0x002, n.code, _, by decide, n.code_lt, (List.append_nil _).symm⟩

theorem picRdWaitcnt (n : Size) : Statement (.picRdWaitcnt n) :=
  ⟨.pic, 0x004, n.code, _, by decide, n.code_lt, (List.append_nil _).symm⟩

theorem picRdIme (n : Size) : Statement (.picRdIme n) :=
  ⟨.pic, 0x008, n.code, _, by decide, n.code_lt, (List.append_nil _).symm⟩

theorem picRdUnknown (off : BitVec 8) (n : Size) : Statement (.picRdUnknown off n) :=
  ⟨.pic, off.toNat, n.code, _, by have := off.isLt; simp only [Format.keyBits]; omega, n.code_lt, (List.append_nil _).symm⟩

theorem picWrIe (n : Size) (v : Word) : Statement (.picWrIe n v) :=
  ⟨.pic, 0x100, n.code, _, by decide, n.code_lt, rfl⟩

theorem picWrIf (n : Size) (v : Word) : Statement (.picWrIf n v) :=
  ⟨.pic, 0x102, n.code, _, by decide, n.code_lt, rfl⟩

theorem picWrWaitcnt (n : Size) (v : Word) : Statement (.picWrWaitcnt n v) :=
  ⟨.pic, 0x104, n.code, _, by decide, n.code_lt, rfl⟩

theorem picWrIme (n : Size) (v : Word) : Statement (.picWrIme n v) :=
  ⟨.pic, 0x108, n.code, _, by decide, n.code_lt, rfl⟩

theorem picWrUnknown (off : BitVec 8) (n : Size) (v : Word) : Statement (.picWrUnknown off n v) :=
  ⟨.pic, (0x100 + off.toNat), n.code, _, by have := off.isLt; simp only [Format.keyBits]; omega, n.code_lt, rfl⟩

theorem lcdRdDispcnt (n : Size) : Statement (.lcdRdDispcnt n) :=
  ⟨.lcd, 0x00, n.code, _, by decide, n.code_lt, (List.append_nil _).symm⟩

theorem lcdRdDispstat (n : Size) : Statement (.lcdRdDispstat n) :=
  ⟨.lcd, 0x04, n.code, _, by decide, n.code_lt, (List.append_nil _).symm⟩

theorem lcdRdVcount (n : Size) : Statement (.lcdRdVcount n) :=
  ⟨.lcd, 0x06, n.code, _, by decide, n.code_lt, (List.append_nil _).symm⟩

theorem lcdRdUnknown (off : BitVec 7) (n : Size) : Statement (.lcdRdUnknown off n) :=
  ⟨.lcd, off.toNat, n.code, _, by have := off.isLt; simp only [Format.keyBits]; omega, n.code_lt, (List.append_nil _).symm⟩

theorem lcdWrDispcnt (n : Size) (v : Word) : Statement (.lcdWrDispcnt n v) :=
  ⟨.lcd, 0x80, n.code, _, by decide, n.code_lt, rfl⟩

theorem lcdWrDispstat (n : Size) (v : Word) : Statement (.lcdWrDispstat n v) :=
  ⟨.lcd, 0x84, n.code, _, by decide, n.code_lt, rfl⟩

theorem lcdWrLyc (n : Size) (v : Word) : Statement (.lcdWrLyc n v) :=
  ⟨.lcd, 0x85, n.code, _, by decide, n.code_lt, rfl⟩

theorem lcdWrVcount (n : Size) (v : Word) : Statement (.lcdWrVcount n v) :=
  ⟨.lcd, 0x86, n.code, _, by decide, n.code_lt, rfl⟩

theorem lcdWrUnknown (off : BitVec 7) (n : Size) (v : Word) : Statement (.lcdWrUnknown off n v) :=
  ⟨.lcd, (0x80 + off.toNat), n.code, _, by have := off.isLt; simp only [Format.keyBits]; omega, n.code_lt, rfl⟩

theorem stubRd (name : StubName) (off : Nat) (n : Size) : Statement (.stubRd name off n) :=
  ⟨.stub, 0x0, n.code, _, by decide, n.code_lt, rfl⟩

theorem stubWr (name : StubName) (off : Nat) (n : Size) (v : Word) : Statement (.stubWr name off n v) :=
  ⟨.stub, 0x1, n.code, _, by decide, n.code_lt, rfl⟩

theorem picLine (i : Fin 16) (b : Bool) : Statement (.picLine i b) :=
  ⟨.line, (2 * i.val + if b then 1 else 0), 0, _, by have := i.isLt; simp only [Format.keyBits]; cases b <;> simp <;> omega, by decide, (List.append_nil _).symm⟩

theorem lcdTick : Statement (.lcdTick) :=
  ⟨.tick, 0, 0, _, by decide, by decide, (List.append_nil _).symm⟩

theorem sysCreateRegion (name : RegionName) (start stop size skip : Nat) : Statement (.sysCreateRegion name start stop size skip) :=
  ⟨.build, 0, 0, _, by decide, by decide, rfl⟩

theorem sysLoadImage (name : RegionName) (image : Option (List Byte)) : Statement (.sysLoadImage name image) :=
  ⟨.build, 1, 0, _, by decide, by decide, rfl⟩

theorem sysMarkReadonly (name : RegionName) : Statement (.sysMarkReadonly name) :=
  ⟨.build, 2, 0, _, by decide, by decide, rfl⟩

theorem sysBuild (p : BuildParams) : Statement (.sysBuild p) :=
  ⟨.build, 3, 0, _, by decide, by decide, rfl⟩

end Sys2Proof.Laws.EncodeHeader
end

