-- ==== Sys2Proof/Laws/Step.lean ====
section
/-! SUPPORT. What an operation of the running block and a step can do, said once over all operations. -/

namespace Sys2Proof.Machine

theorem nextEvent_op {inp : List Byte} (hi : inp ≠ []) {i : Instr} {rest : List Byte}
    (h : decode inp = .ok (.op i, rest)) : nextEvent inp = .op i rest := by
  cases inp with
  | nil => exact absurd rfl hi
  | cons b bs => simp [nextEvent, h]

theorem nextEvent_access {inp : List Byte} (hi : inp ≠ []) {a : BusAccess} {rest : List Byte}
    (h : decode inp = .ok (.access a, rest)) : nextEvent inp = .access a rest := by
  cases inp with
  | nil => exact absurd rfl hi
  | cons b bs => simp [nextEvent, h]

theorem nextEvent_broken {inp : List Byte} (hi : inp ≠ []) {e : DecodeError} (h : decode inp = .error e) :
    nextEvent inp = .broken e := by
  cases inp with
  | nil => exact absurd rfl hi
  | cons b bs => simp [nextEvent, h]

/-- A step that goes on is an operation that goes on, at the state with some of its input taken. -/
theorem step_next {s t : State} (h : step s = .next t) : ∃ i inp, exec i (s.withInput inp) = .next t := by
  unfold step at h
  split at h
  · exact ⟨.lcdTick, s.input, h⟩
  · exact ⟨_, _, h⟩
  · rw [andThen_next] at h
    obtain ⟨i, _, h⟩ := h
    exact ⟨i, _, h⟩
  · cases h

/-- What an operation of the running block can do to the phase, the wiring and the regions: nothing, but that a memory write
writes bytes into one region. -/
theorem exec_running_map {i : Instr} {s t : State} (hs : s.phase = .running) (h : exec i s = .next t) :
    t.phase = .running ∧ t.wiring = s.wiring ∧ (t.regions = s.regions ∨
      ∃ (k o : Nat) (n : Size) (v : Word) (r : Region), s.regions[k]? = some r ∧ o + n.bytes ≤ r.size ∧
        t.regions = s.regions.set k (r.writeBytes o v n)) := by
  cases i
  case mrd8 => obtain ⟨_, _, rfl⟩ := exec_mrd8 h; simp [hs]
  case mrd16 => obtain ⟨_, _, rfl⟩ := exec_mrd16 h; simp [hs]
  case mrd32 => obtain ⟨_, _, rfl⟩ := exec_mrd32 h; simp [hs]
  case mwr8 =>
    obtain ⟨_, i, o, r, hr, hl, rfl⟩ := exec_mwr8 h
    exact ⟨hs, rfl, .inr ⟨i, o, .byte, _, r, hr, hl, rfl⟩⟩
  case mwr16 =>
    obtain ⟨_, i, o, r, hr, hl, rfl⟩ := exec_mwr16 h
    exact ⟨hs, rfl, .inr ⟨i, o, .half, _, r, hr, hl, rfl⟩⟩
  case mwr32 =>
    obtain ⟨_, i, o, r, hr, hl, rfl⟩ := exec_mwr32 h
    exact ⟨hs, rfl, .inr ⟨i, o, .word, _, r, hr, hl, rfl⟩⟩
  case sysCreateRegion => have := (exec_sysCreateRegion.mp h).1; rw [hs] at this; cases this
  case sysLoadImage => have := (exec_sysLoadImage.mp h).1; rw [hs] at this; cases this
  case sysMarkReadonly => have := (exec_sysMarkReadonly.mp h).1; rw [hs] at this; cases this
  case sysBuild => have := (exec_sysBuild.mp h).1; rw [hs] at this; cases this
  all_goals
    simp only [exec_lcdTick, exec_picRdIe, exec_picRdIf, exec_picRdWaitcnt, exec_picRdIme, exec_picRdUnknown,
      exec_picWrIe, exec_picWrIf, exec_picWrWaitcnt, exec_picWrIme, exec_picWrUnknown, exec_picLine,
      exec_lcdRdDispcnt, exec_lcdRdDispstat, exec_lcdRdVcount, exec_lcdRdUnknown, exec_lcdWrDispcnt,
      exec_lcdWrDispstat, exec_lcdWrLyc, exec_lcdWrVcount, exec_lcdWrUnknown, exec_stubRd, exec_stubWr] at h
  case picRdUnknown => obtain ⟨_, _, rfl⟩ := h; simp [readUnlisted, hs]
  case picWrUnknown => obtain ⟨_, _, rfl⟩ := h; simp [writeUnlisted, hs]
  case lcdRdUnknown => obtain ⟨_, _, rfl⟩ := h; simp [readUnlisted, hs]
  case lcdWrUnknown => obtain ⟨_, _, rfl⟩ := h; simp [writeUnlisted, hs]
  case stubRd => obtain ⟨_, _, rfl⟩ := h; simp [readUnlisted, hs]
  case stubWr => obtain ⟨_, _, rfl⟩ := h; simp [writeUnlisted, hs]
  all_goals obtain ⟨_, rfl⟩ := h
  all_goals simp [hs]

end Sys2Proof.Machine
end

