-- ==== Sys2Proof/Tests/Slice0.lean ====
section
/-! SUPPORT. The model's own tests. Expected results come from spec/95_test_vectors.md (vectors L1.1 to L2.29) and from the
select keys of 30_encoding.md rules R92 and R93; each section says which. The last section shows, for every statement of
Obligations.lean that has hypotheses, concrete values that meet them together. -/

open Sys2Proof Sys2Proof.Machine

namespace Sys2Proof.Tests

/-! ### Helpers -/

/-- The state an operation goes on in. -/
def after (i : Instr) (s : State) : Option State := nextState? (exec i s)

/-- The parameters of vector L2.1, with the images of vector L2.5. -/
def demoParams : BuildParams where
  regions :=
    [ ⟨.bios, 0x0000, 0x0010, 0x10, 0x10, true⟩, ⟨.rom, 0x0100, 0x0110, 0x10, 0x10, true⟩,
      ⟨.other 0, 0x1000, 0x2000, 0x100, 0x100, false⟩, ⟨.other 1, 0x4000, 0x5000, 0x300, 0x400, false⟩,
      ⟨.other 2, 0x6000, 0x6100, 0x100, 0x100, false⟩ ]
  picBase := 0x8000
  lcdBase := 0x9000
  stubs := []
  vbLine := 0
  hbLine := 1
  vmLine := 2
  biosImage := some [0xEA#8, 0x00#8, 0x00#8, 0x12#8]
  romImage := some [0x01#8, 0x02#8, 0x03#8, 0x04#8, 0x05#8]

/-- Region `bios` of vector L2.5. -/
def demoBios : Region := ⟨.bios, 0x0000, 0x0010, 0x10, 0x10, true, [(0, 0xEA#8), (3, 0x12#8)]⟩

/-- Region `rom` of vector L2.5. -/
def demoRom : Region :=
  ⟨.rom, 0x0100, 0x0110, 0x10, 0x10, true, [(0, 0x01#8), (1, 0x02#8), (2, 0x03#8), (3, 0x04#8), (4, 0x05#8)]⟩

/-- Region `w` of vector L2.1, holding the word of vector L2.4 at offset 0x20. -/
def demoW : Region :=
  ⟨.other 0, 0x1000, 0x2000, 0x100, 0x100, false, [(0x20, 0x44#8), (0x21, 0x33#8), (0x22, 0x22#8), (0x23, 0x11#8)]⟩

/-- Region `v` of vector L2.1: holes on both sides of its alias. -/
def demoV : Region := ⟨.other 1, 0x4000, 0x5000, 0x300, 0x400, false, []⟩

/-- Region `x` of vector L2.1: no alias. -/
def demoX : Region := ⟨.other 2, 0x6000, 0x6100, 0x100, 0x100, false, []⟩

/-- The running block of vector L2.1. -/
def demo : State :=
  { State.reset with
    regions := [demoBios, demoRom, demoW, demoV, demoX]
    wiring := { picBase := 0x8000, lcdBase := 0x9000, stubs := [], vbLine := 0, hbLine := 1, vmLine := 2,
                edgeFilter := false } }

/-- The block being built, with the writable region `w` and a region `bios`, both zeros. -/
def half : State := State.unbuilt.withRegions [{ demoBios with readonly := false, backing := [] }, { demoW with backing := [] }]

/-- The reset state with these PIC fields. -/
def picState (master : Bool) (level irqEnabled : Half) : State :=
  State.reset.withPic
    { master := master, level := level, irqEnabled := irqEnabled, waitcnt := 0#15,
      irqOut := master && (level &&& irqEnabled) != 0#16 }

/-- The reset state at a scan position, with these enables and this `lyc`. -/
def lcdState (ly : Nat) (hblank vb hb vm : Bool) (lyc : BitVec 8) : State :=
  State.reset.withLcd { Lcd.reset with ly := ly, hblank := hblank, irqVbEn := vb, irqHbEn := hb, irqVmEn := vm, lyc := lyc }

/-- The fault a result stops with. -/
def faultOf (r : Result) : Option Fault :=
  match r with
  | .next _ => none
  | .fault e => some e
  | .refused _ => none

/-- The refusal a result stops with. -/
def refusalOf (r : Result) : Option Refusal :=
  match r with
  | .next _ => none
  | .fault _ => none
  | .refused e => some e

/-- The records an operation adds to an empty log. -/
def diagsOf (i : Instr) (s : State) : Option (List Diag) := (after i s).map fun t => t.out.diags

/-! ### Which terms are operations of the block: each check of WellFormed refuses an ill-formed term -/

theorem test_wf_value_fits : (Instr.picWrIe .byte 0x100#32).wellFormed = false ∧ (Instr.picWrIe .byte 0xFF#32).wellFormed = true ∧
    (Instr.picWrIf .half 0x10000#32).wellFormed = false ∧ (Instr.picWrWaitcnt .half 0x10000#32).wellFormed = false ∧
    (Instr.picWrIme .byte 0x100#32).wellFormed = false ∧ (Instr.lcdWrDispcnt .byte 0x100#32).wellFormed = false ∧
    (Instr.lcdWrDispstat .half 0x10000#32).wellFormed = false ∧ (Instr.lcdWrLyc .byte 0x100#32).wellFormed = false ∧
    (Instr.lcdWrVcount .byte 0x100#32).wellFormed = false ∧ (Instr.picWrUnknown 0x01#8 .byte 0x100#32).wellFormed = false ∧
    (Instr.lcdWrUnknown 0x01#7 .byte 0x100#32).wellFormed = false ∧ (Instr.stubWr .dma 0 .byte 0x100#32).wellFormed = false ∧
    (BusAccess.write 0#32 .byte 0x100#32).wellFormed = false := by decide

theorem test_wf_unknown_offset : (Instr.picRdUnknown 0x02#8 .half).wellFormed = false ∧
    (Instr.picWrUnknown 0x08#8 .half 0#32).wellFormed = false ∧ (Instr.lcdRdUnknown 0x04#7 .half).wellFormed = false ∧
    (Instr.lcdWrUnknown 0x05#7 .half 0#32).wellFormed = false ∧ (Instr.lcdRdUnknown 0x05#7 .half).wellFormed = true ∧
    (Instr.lcdRdUnknown 0x60#7 .byte).wellFormed = false ∧ (Instr.lcdWrUnknown 0x60#7 .byte 0#32).wellFormed = false := by
  decide

theorem test_wf_field_widths : (Instr.stubRd .dma (2 ^ 32) .byte).wellFormed = false ∧
    (Instr.stubRd (.other (2 ^ 32 - 6)) 0 .byte).wellFormed = false ∧
    (Instr.sysMarkReadonly (.other (2 ^ 32 - 8))).wellFormed = false ∧
    (Instr.sysLoadImage (.other (2 ^ 32 - 8)) none).wellFormed = false ∧
    (Instr.sysCreateRegion .bios (2 ^ 64) 0 0 0).wellFormed = false ∧
    (Instr.sysCreateRegion .bios 0 (2 ^ 64) 0 0).wellFormed = false ∧
    (Instr.sysCreateRegion .bios 0 0 (2 ^ 64) 0).wellFormed = false ∧
    (Instr.sysCreateRegion .bios 0 0 0 (2 ^ 64)).wellFormed = false ∧
    (Instr.sysCreateRegion (.other (2 ^ 32 - 8)) 0 0 0 0).wellFormed = false := by decide

theorem test_wf_build_fields : (Instr.sysBuild demoParams).wellFormed = true ∧
    (Instr.sysBuild { demoParams with picBase := 2 ^ 64 }).wellFormed = false ∧
    (Instr.sysBuild { demoParams with lcdBase := 2 ^ 64 }).wellFormed = false ∧
    (Instr.sysBuild { demoParams with stubs := [⟨.dma, 2 ^ 64, 1⟩] }).wellFormed = false ∧
    (Instr.sysBuild { demoParams with regions := [⟨.bios, 2 ^ 64, 0, 0, 0, true⟩] }).wellFormed = false := by decide

/-! ### Decoding: bytes written out from the select keys of rules R92 and R93 -/

theorem test_decode_mem :
    decode [0x00#8, 0x00#8, 0x78#8, 0x56#8, 0x34#8, 0x12#8] = .ok (.op (.mrd8 0x12345678#32), []) ∧
    decode [0x01#8, 0x00#8, 0x78#8, 0x56#8, 0x34#8, 0x12#8] = .ok (.op (.mrd16 0x12345678#32), []) ∧
    decode [0x02#8, 0x00#8, 0x78#8, 0x56#8, 0x34#8, 0x12#8] = .ok (.op (.mrd32 0x12345678#32), []) ∧
    decode [0x04#8, 0x00#8, 0x78#8, 0x56#8, 0x34#8, 0x12#8, 0xAB#8] = .ok (.op (.mwr8 0x12345678#32 0xAB#8), []) ∧
    decode [0x05#8, 0x00#8, 0x78#8, 0x56#8, 0x34#8, 0x12#8, 0xCD#8, 0xAB#8] =
      .ok (.op (.mwr16 0x12345678#32 0xABCD#16), []) ∧
    decode [0x06#8, 0x00#8, 0x78#8, 0x56#8, 0x34#8, 0x12#8, 0x01#8, 0x23#8, 0x45#8, 0x67#8, 0x99#8] =
      .ok (.op (.mwr32 0x12345678#32 0x67452301#32), [0x99#8]) := by decide

theorem test_decode_pic_reads :
    decode [0x00#8, 0x14#8] = .ok (.op (.picRdIe .word), []) ∧ decode [0x02#8, 0x12#8] = .ok (.op (.picRdIf .half), []) ∧
    decode [0x04#8, 0x10#8] = .ok (.op (.picRdWaitcnt .byte), []) ∧
    decode [0x08#8, 0x12#8] = .ok (.op (.picRdIme .half), []) ∧
    decode [0x03#8, 0x10#8] = .ok (.op (.picRdUnknown 0x03#8 .byte), []) ∧
    decode [0xFF#8, 0x14#8] = .ok (.op (.picRdUnknown 0xFF#8 .word), []) := by decide

/-- The encodings of programs P1 and P5: `(BUS, PIC 0x104, 2, 0x4317)` and its like. -/
theorem test_decode_pic_writes :
    decode [0x00#8, 0x15#8, 0x05#8, 0x10#8, 0x00#8, 0x00#8] = .ok (.op (.picWrIe .word 0x00001005#32), []) ∧
    decode [0x02#8, 0x13#8, 0x0C#8, 0x00#8] = .ok (.op (.picWrIf .half 0x000C#32), []) ∧
    decode [0x04#8, 0x13#8, 0x17#8, 0x43#8] = .ok (.op (.picWrWaitcnt .half 0x4317#32), []) ∧
    decode [0x08#8, 0x13#8, 0x01#8, 0x00#8] = .ok (.op (.picWrIme .half 0x0001#32), []) ∧
    decode [0x0A#8, 0x11#8, 0x12#8] = .ok (.op (.picWrUnknown 0x0A#8 .byte 0x12#32), []) := by decide

/-- Offset 0x05 is LYC for writes and unlisted for reads (rule R105). -/
theorem test_decode_lcd :
    decode [0x00#8, 0x22#8] = .ok (.op (.lcdRdDispcnt .half), []) ∧
    decode [0x04#8, 0x24#8] = .ok (.op (.lcdRdDispstat .word), []) ∧
    decode [0x06#8, 0x20#8] = .ok (.op (.lcdRdVcount .byte), []) ∧
    decode [0x05#8, 0x20#8] = .ok (.op (.lcdRdUnknown 0x05#7 .byte), []) ∧
    decode [0x80#8, 0x22#8, 0x03#8, 0x04#8] = .ok (.op (.lcdWrDispcnt .half 0x0403#32), []) ∧
    decode [0x84#8, 0x20#8, 0x10#8] = .ok (.op (.lcdWrDispstat .byte 0x10#32), []) ∧
    decode [0x85#8, 0x20#8, 0xE4#8] = .ok (.op (.lcdWrLyc .byte 0xE4#32), []) ∧
    decode [0x86#8, 0x22#8, 0x50#8, 0x00#8] = .ok (.op (.lcdWrVcount .half 0x50#32), []) ∧
    decode [0x88#8, 0x22#8, 0x34#8, 0x12#8] = .ok (.op (.lcdWrUnknown 0x08#7 .half 0x1234#32), []) ∧
    decode [0xDF#8, 0x20#8, 0x01#8] = .ok (.op (.lcdWrUnknown 0x5F#7 .byte 0x01#32), []) := by decide

theorem test_decode_stub_line_tick :
    decode [0x00#8, 0x32#8, 0x02#8, 0x00#8, 0x00#8, 0x00#8, 0x04#8, 0x00#8, 0x00#8, 0x00#8] =
      .ok (.op (.stubRd .timer 4 .half), []) ∧
    decode [0x01#8, 0x30#8, 0x05#8, 0x00#8, 0x00#8, 0x00#8, 0x00#8, 0x00#8, 0x00#8, 0x00#8, 0x80#8] =
      .ok (.op (.stubWr .systemControl 0 .byte 0x80#32), []) ∧
    decode [0x05#8, 0x40#8] = .ok (.op (.picLine 2 true), []) ∧ decode [0x1F#8, 0x40#8] = .ok (.op (.picLine 15 true), []) ∧
    decode [0x04#8, 0x40#8] = .ok (.op (.picLine 2 false), []) ∧ decode [0x00#8, 0x50#8] = .ok (.op .lcdTick, []) := by
  decide

theorem test_decode_build_operations :
    decode ([0x00#8, 0x60#8, 0x02#8, 0x00#8, 0x00#8, 0x00#8] ++ writeNat 8 0x03000000 ++ writeNat 8 0x04000000 ++
      writeNat 8 0x8000 ++ writeNat 8 0x9000) = .ok (.op (.sysCreateRegion .iwram 0x03000000 0x04000000 0x8000 0x9000), []) ∧
    decode [0x01#8, 0x60#8, 0x00#8, 0x00#8, 0x00#8, 0x00#8, 0x00#8, 0x02#8, 0x00#8, 0x00#8, 0x00#8, 0x0A#8, 0x0B#8, 0x0C#8] =
      .ok (.op (.sysLoadImage .bios (some [0x0A#8, 0x0B#8])), [0x0C#8]) ∧
    decode [0x01#8, 0x60#8, 0x06#8, 0x00#8, 0x00#8, 0x00#8, 0x01#8] = .ok (.op (.sysLoadImage .rom none), []) ∧
    decode [0x02#8, 0x60#8, 0x09#8, 0x00#8, 0x00#8, 0x00#8] = .ok (.op (.sysMarkReadonly (.other 1)), []) ∧
    decode [0x03#8, 0x60#8, 0x00#8] = .ok (.op (.sysBuild Config.defaultParams), []) := by decide

theorem test_decode_explicit_build :
    decode (encode (.sysBuild demoParams)) = .ok (.op (.sysBuild demoParams), []) := by decide

theorem test_decode_access :
    decode [0x00#8, 0x72#8, 0x00#8, 0x01#8, 0x00#8, 0x04#8] = .ok (.access (.read 0x04000100#32 .half), []) ∧
    decode [0x01#8, 0x70#8, 0x00#8, 0x03#8, 0x00#8, 0x04#8, 0x80#8] =
      .ok (.access (.write 0x04000300#32 .byte 0x80#32), []) := by decide

theorem test_decode_rejects_by_name :
    decode [] = .error .truncated ∧ decode [0x02#8, 0x00#8, 0x10#8] = .error .truncated ∧
    decode [0x00#8, 0x80#8] = .error .reservedFormat ∧ decode [0x00#8, 0x18#8] = .error .reservedBit ∧
    decode [0x00#8, 0x16#8] = .error .reservedSize ∧ decode [0x05#8, 0x42#8] = .error .reservedSize := by decide

theorem test_decode_rejects_keys_and_operands :
    decode [0x03#8, 0x00#8, 0x00#8, 0x00#8, 0x00#8, 0x00#8] = .error .reservedKey ∧
    decode [0x60#8, 0x20#8] = .error .reservedKey ∧ decode [0x20#8, 0x40#8] = .error .reservedKey ∧
    decode [0x01#8, 0x50#8] = .error .reservedKey ∧ decode [0x04#8, 0x60#8] = .error .reservedKey ∧
    decode [0x03#8, 0x60#8, 0x02#8] = .error .reservedOperand := by decide

/-- Line 16 does not exist (rule R93). -/
theorem test_decode_rejects_line_sixteen :
    decode ([0x03#8, 0x60#8, 0x01#8] ++ writeNat 4 0 ++ writeNat 8 0x8000 ++ writeNat 8 0x9000 ++ writeNat 4 0 ++ [0x10#8]) =
      .error .reservedOperand := by decide

/-- No two exact rows of one format share a key, and a default row shares one only with exact rows (rule R92). -/
theorem test_table_rows_do_not_overlap :
    opcodeTable.length = 33 ∧
    (opcodeTable.filter TableRow.exact).Pairwise fun x y => ¬ (x.format = y.format ∧ x.value = y.value) := by decide

/-! ### Table words -/

theorem test_table_words :
    decodeTableWord 16 0x108 = some (.picWrIme .byte 0#32) ∧ decodeTableWord 16 0x002 = some (.picRdIf .byte) ∧
    decodeTableWord 16 0x00C = some (.picRdUnknown 0x0C#8 .byte) ∧ decodeTableWord 8 0x85 = some (.lcdWrLyc .byte 0#32) ∧
    decodeTableWord 8 0x6 = some (.mwr32 0#32 0#32) ∧ decodeTableWord 8 0x3 = some (.sysBuild Config.defaultParams) ∧
    decodeTableWord 8 0xE0 = none ∧ decodeTableWord 0 0 = some .lcdTick ∧ decodeTableWord 24 0 = none := by decide

theorem test_fetch_word_runs : nextState? (step (State.reset.withFetchWord 16 0x108)) =
    some (State.reset.withPic { Pic.reset with master := true }) := by decide

theorem test_fetch_word_builds : nextState? (step (State.unbuilt.withFetchWord 8 0x3)) = some State.reset := by decide

/-! ### Mirror Engine (vectors L2.1 to L2.5) -/

theorem test_decode_address :
    decodeAddr demo 0x1010 = some ⟨.primary 2, 0x10⟩ ∧ decodeAddr demo 0x1F10 = some ⟨.mirror 2, 0x10⟩ ∧
    decodeAddr demo 0x4C04 = some ⟨.mirror 3, 0x004⟩ ∧ decodeAddr demo 0x8002 = some ⟨.pic, 0x02⟩ ∧
    decodeAddr demo 0x9006 = some ⟨.lcd, 0x06⟩ ∧
    [0x0FFF, 0x1100, 0x1EFF, 0x2000, 0x4300, 0x4BFF, 0x4F00, 0x4FFF, 0x6100, 0x9060].all
      (fun a => decodeAddr demo a == none) = true := by decide

theorem test_mrd8_through_the_second_range : readBack (.mrd8 0x1F23#32) demo = some 0x11#32 := by decide
theorem test_mrd8_hole : faultOf (exec (.mrd8 0x4BFF#32) demo) = some .unmapped := by decide
theorem test_mrd16_unaligned : readBack (.mrd16 0x1021#32) demo = some 0x2233#32 := by decide
theorem test_mrd16_window_is_no_memory : refusalOf (exec (.mrd16 0x8000#32) demo) = some .notMemory := by decide
theorem test_mrd32_boot_image : readBack (.mrd32 0x0000#32) demo = some 0x120000EA#32 := by decide
theorem test_mrd32_straddles :
    faultOf (exec (.mrd32 0x10FE#32) demo) = some .unmapped ∧ faultOf (exec (.mrd32 0x1FFE#32) demo) = some .unmapped ∧
    faultOf (exec (.mrd32 0xFFFFFFFE#32) demo) = some .unmapped ∧ readBack (.mrd32 0x10FC#32) demo = some 0#32 := by decide

theorem test_mwr8_middle_byte :
    (after (.mwr8 0x1021#32 0xAB#8) demo).bind (readBack (.mrd32 0x1020#32)) = some 0x1122AB44#32 := by decide
theorem test_mwr8_zero_leaves_canonical_form :
    (after (.mwr8 0x1022#32 0x00#8) demo).map State.regions =
      some [demoBios, demoRom, { demoW with backing := [(0x20, 0x44#8), (0x21, 0x33#8), (0x23, 0x11#8)] }, demoV, demoX] := by
  decide
theorem test_mwr16_through_the_second_range :
    (after (.mwr16 0x1F22#32 0xCDEF#16) demo).bind (readBack (.mrd32 0x1020#32)) = some 0xCDEF3344#32 := by decide
theorem test_mwr32_across_holes :
    (after (.mwr32 0x4C04#32 0xCAFEF00D#32) demo).bind (readBack (.mrd16 0x4005#32)) = some 0xFEF0#32 := by decide
theorem test_mwr32_read_only_is_dropped : after (.mwr32 0x0000#32 0xFFFFFFFF#32) demo = some demo := by decide

/-! ### Interrupt controller (vectors L1.2 to L1.4 and L2.9 to L2.15) -/

theorem test_aggregate_rows :
    aggregate true 0x0009#16 0x0005#16 = true ∧ aggregate true 0x0009#16 0x0006#16 = false ∧
    aggregate false 0x0009#16 0x0005#16 = false ∧ aggregate true 0x8000#16 0x8000#16 = true ∧
    aggregate true 0x0001#16 0xFFFE#16 = false := by decide

theorem test_pic_rd_ie_widths : readBack (.picRdIe .byte) (picState false 0xABCD#16 0x1234#16) = some 0x34#32 ∧
    readBack (.picRdIe .word) (picState false 0xABCD#16 0x1234#16) = some 0xABCD1234#32 := by decide
theorem test_pic_rd_if_oversized : readBack (.picRdIf .word) (picState false 0xABCD#16 0x1234#16) = some 0x0000ABCD#32 ∧
    diagsOf (.picRdIf .word) (picState false 0xABCD#16 0x1234#16) = some [.oversizedAccess .pic .read 0x02 .word] := by decide
theorem test_pic_rd_waitcnt : readBack (.picRdWaitcnt .byte) (State.reset.withPic { Pic.reset with waitcnt := 0x7FFF#15 }) =
    some 0xFF#32 := by decide
theorem test_pic_rd_ime : readBack (.picRdIme .half) State.reset = some 1#32 ∧
    readBack (.picRdIme .word) (picState true 0#16 0#16) = some 0#32 := by decide
theorem test_pic_rd_unknown_last_byte : readBack (.picRdUnknown 0xFF#8 .byte) State.reset = some 0#32 ∧
    diagsOf (.picRdUnknown 0xFF#8 .byte) State.reset = some [.unimplementedRegister .pic .read 0xFF .byte] := by decide
theorem test_pic_rd_unknown_straddles : faultOf (exec (.picRdUnknown 0xFE#8 .word) State.reset) = some .unmapped := by decide
theorem test_pic_wr_ie_narrow : after (.picWrIe .byte 0x04#32) (picState true 0x0004#16 0xFFFB#16) =
    some (picState true 0x0004#16 0x0004#16) := by decide
theorem test_pic_wr_ie_acknowledges : after (.picWrIe .word 0x00010005#32) (picState true 0x0009#16 0#16) =
    some (picState true 0x0008#16 0x0005#16) := by decide
theorem test_pic_wr_if_clears : after (.picWrIf .half 0x0005#32) (picState true 0x000D#16 0x0004#16) =
    some (picState true 0x0008#16 0x0004#16) := by decide
theorem test_pic_wr_waitcnt_top_bit : (after (.picWrWaitcnt .half 0xFFFF#32) State.reset).map (fun t => t.pic.waitcnt) =
    some 0x7FFF#15 := by decide
theorem test_pic_wr_ime_even_enables : after (.picWrIme .half 0xFFFE#32) (picState false 0x0004#16 0x0004#16) =
    some (picState true 0x0004#16 0x0004#16) := by decide
theorem test_pic_wr_ime_odd_disables : after (.picWrIme .half 0x0003#32) (picState true 0x0004#16 0x0004#16) =
    some (picState false 0x0004#16 0x0004#16) := by decide
theorem test_pic_wr_unknown : after (.picWrUnknown 0x03#8 .byte 0xFF#32) (picState true 0x0009#16 0x0005#16) =
    some ((picState true 0x0009#16 0x0005#16).diag (.unimplementedRegister .pic .write 0x03 .byte)) := by decide
theorem test_pic_line_sets : after (.picLine 2 true) (picState true 0#16 0x0004#16) =
    some (picState true 0x0004#16 0x0004#16) := by decide
theorem test_pic_line_clears : after (.picLine 2 false) (picState false 0x8004#16 0#16) =
    some (picState false 0x8000#16 0#16) := by decide

/-! ### Display controller (vectors L2.16 to L2.24) -/

theorem test_lcd_rd_dispcnt_reset : readBack (.lcdRdDispcnt .half) State.reset = some 0x0040#32 := by decide
theorem test_lcd_wr_dispcnt_bit_three : (after (.lcdWrDispcnt .half 0xFFFF#32) State.reset).bind (readBack (.lcdRdDispcnt .half)) =
    some 0xFFF7#32 := by decide
theorem test_lcd_wr_dispcnt_fields : after (.lcdWrDispcnt .half 0x0403#32) State.reset =
    some (State.reset.withLcd { Lcd.reset with bgMode := 3#3, displayBg2 := true, objVramMap2d := true }) := by decide
theorem test_lcd_rd_dispstat_in_blank : readBack (.lcdRdDispstat .half) (lcdState 160 false true false false 0#8) =
    some 0x0009#32 := by decide
theorem test_lcd_rd_dispstat_line_227 : readBack (.lcdRdDispstat .half) (lcdState 227 true true false false 0#8) =
    some 0x000A#32 := by decide
theorem test_lcd_rd_vcount : readBack (.lcdRdVcount .word) (lcdState 160 false false false false 0#8) = some 0x000000A0#32 ∧
    diagsOf (.lcdRdVcount .word) State.reset = some [.oversizedAccess .lcd .read 0x06 .word] := by decide
theorem test_lcd_rd_unknown_lyc : readBack (.lcdRdUnknown 0x05#7 .byte) (lcdState 0 false false false false 9#8) = some 0#32 := by
  decide
theorem test_lcd_rd_unknown_straddles : faultOf (exec (.lcdRdUnknown 0x5F#7 .half) State.reset) = some .unmapped := by decide
theorem test_lcd_wr_dispstat_half : after (.lcdWrDispstat .half 0x0528#32) State.reset =
    some (lcdState 0 false true false true 5#8) := by decide
theorem test_lcd_wr_dispstat_byte_keeps_lyc : after (.lcdWrDispstat .byte 0x10#32) (lcdState 0 false true false true 5#8) =
    some (lcdState 0 false false true false 5#8) := by decide
theorem test_lcd_wr_lyc_oversized : after (.lcdWrLyc .half 0x1234#32) State.reset =
    some ((lcdState 0 false false false false 0x34#8).diag (.oversizedAccess .lcd .write 0x05 .half)) := by decide
theorem test_lcd_wr_vcount_ignored : after (.lcdWrVcount .half 0x0050#32) State.reset = some State.reset := by decide
theorem test_lcd_wr_unknown : after (.lcdWrUnknown 0x02#7 .half 0xFFFF#32) State.reset =
    some (State.reset.diag (.unimplementedRegister .lcd .write 0x02 .half)) := by decide

/-- Vector L2.20, the first firing. -/
theorem test_tick_first : after .lcdTick State.reset =
    some (State.reset.withLcd { Lcd.reset with hblank := true, deadline := 73433 }) := by decide

/-- Vector L2.24, firing 322: the line stays high and the acknowledged bit is set again, but not with the filter on. -/
theorem test_tick_pends_again :
    let s := State.reset.withLcd { Lcd.reset with ly := 160, hblank := true, irqVbEn := true, lineVb := true, deadline := 11822713 }
    (after .lcdTick s).map (fun t => (t.pic.level, t.lcd.ly, t.lcd.deadline, t.out.display)) =
      some (0x0001#16, 161, 11879934, [.emitLine 161]) ∧
    (after .lcdTick (s.withWiring { s.wiring with edgeFilter := true })).map (fun t => t.pic.level) = some 0#16 := by decide

/-! ### Stubs, dispatch and build (vectors L2.6 to L2.8 and L2.29) -/

theorem test_stub_rd : after (.stubRd .timer 0 .half) State.reset =
    some ((State.reset.diag (.unimplementedRegister (.stub .timer) .read 0 .half)).answer .half 0#32) := by decide
theorem test_stub_rd_absent : faultOf (exec (.stubRd .timer 0 .half) demo) = some .unmapped := by decide
theorem test_stub_wr : after (.stubWr .systemControl 0 .byte 0x80#32) State.reset =
    some (State.reset.diag (.unimplementedRegister (.stub .systemControl) .write 0 .byte)) := by decide

/-- Rows of vector L2.7, by address through the event stream. -/
theorem test_step_access_dispatches :
    (nextState? (step (State.reset.withInput [0x00#8, 0x72#8, 0x08#8, 0x02#8, 0x00#8, 0x04#8]))).map (fun t => t.out.result) =
      some (some 0x0001#32) ∧
    (nextState? (step (State.reset.withInput [0x00#8, 0x72#8, 0x60#8, 0x00#8, 0x00#8, 0x04#8]))).map (fun t => t.out.diags) =
      some [.unimplementedRegister (.stub .sound) .read 0 .half] ∧
    faultOf (step (State.reset.withInput [0x00#8, 0x72#8, 0x5F#8, 0x00#8, 0x00#8, 0x04#8])) = some .unmapped := by decide

theorem test_step_idle_ticks : nextState? (step State.reset) = some State.reset.tick := by decide

/-- Vector L2.6, row by row. -/
theorem test_region_rows :
    wellFormedRegion 0x1000 0x2000 0x100 0x100 = true ∧ wellFormedRegion 0x1000 0x1100 0x100 0x999 = true ∧
    wellFormedRegion 0x1000 0x2000 0x100 0 = false ∧ wellFormedRegion 0x1000 0x1080 0x100 0x100 = false ∧
    wellFormedRegion 0x1000 0x2000 0 0x100 = false ∧ wellFormedRegion 0x1000 0x1180 0x100 0x100 = false ∧
    wellFormedRegion 0x1000 0x2000 0x100 0x1000 = false ∧ wellFormedRegion 0x1000 0x2000 0x100 0x2000 = false ∧
    wellFormedRegion 0x1000 0x2000 0x100 0x80 = true ∧ wellFormedRegion 0xFFFFF000 0x100000000 0x100 0x100 = true ∧
    wellFormedRegion 0xFFFFF000 0x100000000 0x100 0x80 = false := by decide

theorem test_create_region_appends : (after (.sysCreateRegion (.other 1) 0x4000 0x5000 0x300 0x400) half).map State.regions =
    some (half.regions ++ [demoV]) := by decide
theorem test_create_region_refused : refusalOf (exec (.sysCreateRegion (.other 1) 0x4000 0x5000 0x300 0) half) = some .illFormedRegion := by
  decide
theorem test_load_image : (after (.sysLoadImage .bios (some [0xEA#8, 0x00#8, 0x00#8, 0x12#8])) half).map State.regions =
    some [{ demoBios with readonly := false }, { demoW with backing := [] }] := by decide
theorem test_load_image_absent : faultOf (exec (.sysLoadImage .bios none) half) = some (.startupFailure .bios) := by decide
theorem test_mark_readonly : (after (.sysMarkReadonly (.other 0)) half).map State.regions =
    some [{ demoBios with readonly := false, backing := [] }, { demoW with backing := [], readonly := true }] := by decide
theorem test_build : (after (.sysBuild demoParams) State.unbuilt) =
    some (demo.withRegions [demoBios, demoRom, { demoW with backing := [] }, demoV, demoX]) := by decide
theorem test_build_fails :
    faultOf (exec (.sysBuild { demoParams with biosImage := none }) State.unbuilt) = some (.startupFailure .bios) ∧
    refusalOf (exec (.sysBuild { demoParams with romImage := some (List.replicate 17 0#8) }) State.unbuilt) = some .imageTooLong ∧
    refusalOf (exec (.sysBuild { demoParams with lcdBase := 0x80FF }) State.unbuilt) = some .illFormedMap ∧
    refusalOf (exec (.sysBuild { demoParams with vmLine := 1 }) State.unbuilt) = some .illFormedMap := by decide

/-! ### Witnesses: concrete values that meet the hypotheses of each statement together, each clause at the edge of its range -/

/-- An operation goes on. -/
def runs (i : Instr) (s : State) : Prop := ∃ t, exec i s = .next t

/-- A step goes on. -/
def steps (s : State) : Prop := ∃ t, step s = .next t

theorem runs_tick : runs .lcdTick State.reset := ⟨_, rfl⟩

/-- The map of `demo` with the PIC window right after region `x`, which has no second range. -/
def demoNext : State := { demo with wiring := { demo.wiring with picBase := 0x6100 } }

/-- The map of `demo` with a stub window. -/
def demoStub : State := { demo with wiring := { demo.wiring with stubs := [⟨.timer, 0xA000, 0x10⟩] } }

/-- `demoStub` with a bus read of `n` bytes at `0x0000ba00 + k` as the next event. -/
def reading (b k : Byte) (n : Size) : State :=
  demoStub.withInput [0x00#8, 0x70#8 + 2#8 * BitVec.ofNat 8 n.code, k, b, 0x00#8, 0x00#8]

/-- `demoStub` with a bus write of one byte at `0x0000ba00 + k` as the next event. -/
def writing (b k : Byte) : State := demoStub.withInput [0x01#8, 0x70#8, k, b, 0x00#8, 0x00#8, 0x07#8]

theorem test_witness_BuildReachesResetState :
    State.unbuilt.phase = .building ∧ demoParams.biosImage = some [0xEA#8, 0x00#8, 0x00#8, 0x12#8] ∧
    demoParams.romImage = some [0x01#8, 0x02#8, 0x03#8, 0x04#8, 0x05#8] ∧
    (∀ r ∈ demoParams.regions, wellFormedRegion r.start r.stop r.size r.skip = true) ∧
    (∀ r ∈ demoParams.regions, (r.name = .bios → 4 ≤ r.size) ∧ (r.name = .rom → 5 ≤ r.size)) ∧
    (∀ r ∈ demoParams.regions, r.readonly = true ↔ r.name = .bios ∨ r.name = .rom) ∧
    (demoParams.regions.map RegionSpec.name).count .bios = 1 ∧ (demoParams.regions.map RegionSpec.name).count .rom = 1 ∧
    wellFormedMap (demoParams.regions.map fun r => Region.blank r false)
      (Wiring.ofParams demoParams State.unbuilt.wiring.edgeFilter) = true ∧
    demoParams.vbLine ≠ demoParams.hbLine ∧ demoParams.vbLine ≠ demoParams.vmLine ∧
    demoParams.hbLine ≠ demoParams.vmLine := by decide

theorem test_witness_BuildWithoutImageFails :
    State.unbuilt.phase = .building ∧
    (∀ r ∈ demoParams.regions, wellFormedRegion r.start r.stop r.size r.skip = true) ∧
    (∃ r ∈ demoParams.regions, r.name = .bios) ∧ (∃ r ∈ demoParams.regions, r.name = .rom) ∧
    (∀ r ∈ demoParams.regions, r.name = .bios → [0xEA#8].length ≤ r.size) ∧
    ({ demoParams with biosImage := none } : BuildParams).biosImage = none ∧
    ({ demoParams with romImage := none } : BuildParams).romImage = none := by decide

/-- The first clause at `end = 2^32`, the second at a `skip` of 0. -/
theorem test_witness_CreateRegionAppendsOrRefuses : half.phase = .building ∧
    ((0 : Int) < (0x100 : Nat) ∧ ((0x100 : Nat) : Int) ≤ (0x100000000 : Nat) - (0xFFFFF000 : Nat) ∧ (0 : Int) < (0x100 : Nat) ∧
      ((0x100000000 : Nat) : Int) ≤ 2 ^ 32 ∧ (((0x100000000 : Nat) : Int) > (0xFFFFF000 : Nat) + (0x100 : Nat) →
        ((0xFFFFF000 : Nat) : Int) + (0x100 : Nat) ≤ (0x100000000 : Nat) - (0x100 : Nat) ∧
        ((0x100000000 : Nat) : Int) - (0x100 : Nat) + (0x100 : Nat) ≤ 2 ^ 32)) ∧
    ¬ ((0 : Int) < (0 : Nat)) := by decide

/-- An image as long as the region, and one a byte longer. -/
theorem test_witness_LoadImageFillsRegion : half.phase = .building ∧
    half.regions[0]? = some { demoBios with readonly := false, backing := [] } ∧
    (∀ (j : Nat) (r' : Region), j < 0 → half.regions[j]? = some r' → r'.name ≠ .bios) ∧
    Memory.wf [] = true ∧ (List.replicate 16 1#8).length ≤ demoBios.size ∧ demoBios.size < (List.replicate 17 1#8).length :=
  ⟨rfl, rfl, fun j _ hj => absurd hj (Nat.not_lt_zero j), by decide⟩

theorem test_witness_MarkReadonlySetsAttribute : half.phase = .building ∧
    half.regions[1]? = some { demoW with backing := [] } ∧
    (∀ (j : Nat) (r' : Region), j < 1 → half.regions[j]? = some r' → r'.name ≠ .other 0) := by
  refine ⟨rfl, rfl, fun j r' hj h => ?_⟩
  obtain rfl : j = 0 := by omega
  obtain rfl := Option.some.inj h
  decide

theorem test_witness_PhasesExcludeEachOther :
    (phaseOf (.sysMarkReadonly .bios) = .building ∧ State.reset.phase = .running) ∧
    (phaseOf .lcdTick = .running ∧ State.unbuilt.phase = .building) := by decide

/-- The first and the last address of a range. -/
theorem test_witness_WellFormedMapIsUnambiguous : wellFormedMap demo.regions demo.wiring = true ∧
    (mappedRanges demo.regions demo.wiring)[3]? = some (0x1F00, 0x2000) ∧
    (0x1F00 ≤ 0x1F00 ∧ 0x1F00 < 0x2000) ∧ (0x1F00 ≤ 0x1FFF ∧ 0x1FFF < 0x2000) := by decide

/-- Each clause at the last address of its range, and the one past all of them at the first address after a range. -/
theorem test_witness_DecodeFindsEachRange : wellFormedMap demoStub.regions demoStub.wiring = true ∧
    (demoStub.regions[2]? = some demoW ∧ demoW.start ≤ 0x10FF ∧ 0x10FF < demoW.start + demoW.size) ∧
    (demoW.start + demoW.size < demoW.stop ∧ demoW.stop - demoW.skip ≤ 0x1FFF ∧ 0x1FFF < demoW.stop - demoW.skip + demoW.size) ∧
    (demoStub.wiring.picBase ≤ 0x80FF ∧ 0x80FF < demoStub.wiring.picBase + 0x100) ∧
    (demoStub.wiring.lcdBase ≤ 0x905F ∧ 0x905F < demoStub.wiring.lcdBase + 0x60) ∧
    (demoStub.wiring.stubs[0]? = some ⟨.timer, 0xA000, 0x10⟩ ∧ 0xA000 ≤ 0xA00F ∧ 0xA00F < 0xA000 + 0x10) ∧
    (∀ x ∈ mappedRanges demoStub.regions demoStub.wiring, ¬ (x.1 ≤ 0x9060 ∧ 0x9060 < x.2)) := by decide

/-- Both ranges, at the last offset each width admits. -/
theorem test_witness_MemoryReadGivesBackingBytes : demo.phase = .running ∧ wellFormedMap demo.regions demo.wiring = true ∧
    demo.regions[2]? = some demoW ∧ 0x1000 = demoW.start ∧
    (demoW.start + demoW.size < demoW.stop ∧ 0x1F00 = demoW.stop - demoW.skip) ∧
    0xFF + 1 ≤ demoW.size ∧ 0xFE + 2 ≤ demoW.size ∧ 0xFC + 4 ≤ demoW.size := by decide

theorem test_witness_MemoryWriteStoresBytes : demo.phase = .running ∧ wellFormedMap demo.regions demo.wiring = true ∧
    demo.regions[2]? = some demoW ∧ demoW.readonly = false ∧ demoW.backing.wf = true ∧ 0x1000 = demoW.start ∧
    (demoW.start + demoW.size < demoW.stop ∧ 0x1F00 = demoW.stop - demoW.skip) ∧
    0xFF + 1 ≤ demoW.size ∧ 0xFE + 2 ≤ demoW.size ∧ 0xFC + 4 ≤ demoW.size := by decide

theorem test_witness_ReadOnlyWriteIsDropped : demo.phase = .running ∧ wellFormedMap demo.regions demo.wiring = true ∧
    demo.regions[0]? = some demoBios ∧ demoBios.readonly = true ∧ 0 = demoBios.start ∧
    0xF + 1 ≤ demoBios.size ∧ 0xE + 2 ≤ demoBios.size ∧ 0xC + 4 ≤ demoBios.size := by decide

/-- A hole, an access that straddles the end of a range and one that passes the last address. -/
theorem test_witness_AccessOutsideEveryRangeIsUnmapped : demo.phase = .running ∧
    (∀ x ∈ mappedRanges demo.regions demo.wiring, ¬ (x.1 ≤ (0x1100#32).toNat ∧ (0x1100#32).toNat + 1 ≤ x.2)) ∧
    (∀ x ∈ mappedRanges demo.regions demo.wiring, ¬ (x.1 ≤ (0x10FF#32).toNat ∧ (0x10FF#32).toNat + 2 ≤ x.2)) ∧
    (∀ x ∈ mappedRanges demo.regions demo.wiring, ¬ (x.1 ≤ (0xFFFFFFFE#32).toNat ∧ (0xFFFFFFFE#32).toNat + 4 ≤ x.2)) := by
  decide

/-- The clauses of a region with a second range, and those of one without, whose address `end` is the first of the PIC window. -/
theorem test_witness_AliasCoherence :
    wellFormedMap demoNext.regions demoNext.wiring = true ∧ demoNext.regions[3]? = some demoV ∧
    demoV.start + demoV.size < demoV.stop ∧ 0x2FF + 1 ≤ demoV.size ∧ 0x2FE + 2 ≤ demoV.size ∧ 0x2FC + 4 ≤ demoV.size ∧
    demoNext.regions[4]? = some demoX ∧ demoX.stop = demoX.start + demoX.size ∧
    decodeAddr demoNext demoX.stop = some ⟨.pic, 0⟩ ∧ decodeAddr demoNext 0x60FF = some ⟨.primary 4, 0xFF⟩ := by decide

theorem test_witness_WrittenWordReadsBack : demo.phase = .running ∧ wellFormedMap demo.regions demo.wiring = true ∧
    demo.regions[2]? = some demoW ∧ demoW.readonly = false ∧ demoW.backing.wf = true ∧ 0xFC + 4 ≤ demoW.size ∧
    0x1000 = demoW.start ∧ (demoW.start + demoW.size < demoW.stop ∧ 0x1F00 = demoW.stop - demoW.skip) ∧
    runs (.mwr32 (BitVec.ofNat 32 (0x1000 + 0xFC)) 0x11223344#32) demo :=
  ⟨rfl, by decide, rfl, rfl, by decide, by decide, rfl, by decide, _, rfl⟩

/-- `InputLineMovesItsPendingBit`, `PicRegisterReads`, `DispcntReadPacksFields` and `DispstatReadPacksStatus` ask for the
running phase alone. -/
theorem test_witness_running : State.reset.phase = .running := by decide

/-- Offsets of both unlisted kinds: between registers, and the last ones of the window. -/
theorem test_witness_PicUnknownOffsets : State.reset.phase = .running ∧
    (picListed 0x01#8 = false ∧ (0x01#8).toNat + Size.word.bytes ≤ 0x100) ∧
    (picListed 0xFC#8 = false ∧ (0xFC#8).toNat + Size.word.bytes ≤ 0x100) ∧
    (picListed 0xFF#8 = false ∧ (0xFF#8).toNat + Size.byte.bytes ≤ 0x100) := by decide

/-- The write statements of both units ask for a value that fits: the largest of each size. -/
theorem test_witness_register_writes : State.reset.phase = .running ∧ Size.byte.fits 0xFF#32 = true ∧
    Size.half.fits 0xFFFF#32 = true ∧ Size.word.fits 0xFFFFFFFF#32 = true := by decide

theorem test_witness_EveryStepKeepsOutputAggregated :
    (State.reset.pic.irqOut = (State.reset.pic.master && (State.reset.pic.level &&& State.reset.pic.irqEnabled) != 0#16)) ∧
    steps State.reset := ⟨by decide, _, rfl⟩

/-- A four-byte write at IE meets three of the clauses, a half-word one the fourth. -/
theorem test_witness_PicFieldsHaveTheirWriters : State.reset.phase = .running ∧
    runs (.picWrIe .word 0x00010005#32) State.reset ∧ runs (.picWrIe .half 0x0005#32) State.reset ∧
    (∀ n v, Instr.picWrIe .word 0x00010005#32 ≠ .picWrIme n v) ∧ (∀ n v, Instr.picWrIme .half 0#32 ≠ .picWrIe n v) ∧
    runs (.picWrIme .half 0#32) State.reset ∧ (∀ n v, Instr.picWrIe .word 0x00010005#32 ≠ .picWrWaitcnt n v) ∧
    (∀ k b, Instr.picWrIe .half 0x0005#32 ≠ .picLine k b) ∧ (∀ n v, Instr.picWrIe .half 0x0005#32 ≠ .picWrIf n v) ∧
    (∀ v, Instr.picWrIe .half 0x0005#32 ≠ .picWrIe .word v) ∧ Instr.picWrIe .half 0x0005#32 ≠ .lcdTick :=
  ⟨rfl, ⟨_, rfl⟩, ⟨_, rfl⟩, nofun, nofun, ⟨_, rfl⟩, nofun, nofun, nofun, nofun, nofun⟩

theorem test_witness_TickEntersHblank : (lcdState 227 false true true true 0#8).phase = .running ∧
    (lcdState 227 false true true true 0#8).lcd.hblank = false ∧
    (lcdState 227 false true true true 0#8).pic.irqOut = ((lcdState 227 false true true true 0#8).pic.master &&
      ((lcdState 227 false true true true 0#8).pic.level &&& (lcdState 227 false true true true 0#8).pic.irqEnabled) != 0#16) := by
  decide

/-- The line before the first blanking line, the last line of the frame and the line whose end is the end of the frame. -/
theorem test_witness_TickEntersNextLine :
    ∀ ly ∈ [158, 159, 227], (lcdState ly true true true true 0#8).phase = .running ∧
      (lcdState ly true true true true 0#8).lcd.hblank = true ∧
      (lcdState ly true true true true 0#8).pic.irqOut = ((lcdState ly true true true true 0#8).pic.master &&
        ((lcdState ly true true true true 0#8).pic.level &&& (lcdState ly true true true true 0#8).pic.irqEnabled) != 0#16) := by
  decide

theorem test_witness_LineEntryDrivesThreePendingBits : (lcdState 159 true true true true 160#8).lcd.hblank = true ∧
    (lcdState 159 true true true true 160#8).wiring.edgeFilter = false ∧
    (lcdState 159 true true true true 160#8).wiring.linesDistinct = true ∧
    runs .lcdTick (lcdState 159 true true true true 160#8) ∧
    ((15 : Fin 16) ≠ (lcdState 159 true true true true 160#8).wiring.vbLine ∧
      (15 : Fin 16) ≠ (lcdState 159 true true true true 160#8).wiring.vmLine ∧
      (15 : Fin 16) ≠ (lcdState 159 true true true true 160#8).wiring.hbLine) :=
  ⟨rfl, rfl, by decide, ⟨_, rfl⟩, by decide⟩

/-- `RunOfLinesFollowsSchedule` and `LinesFollowTheScan`, at the first and the last line. -/
theorem test_witness_runs_of_lines : ∀ ly ∈ [0, 227], (lcdState ly false true true true 0#8).phase = .running ∧
    (lcdState ly false true true true 0#8).input = [] ∧ (lcdState ly false true true true 0#8).lcd.hblank = false ∧
    (lcdState ly false true true true 0#8).lcd.ly < 228 := by decide

theorem test_witness_VcountReadGivesLine : State.reset.phase = .running ∧
    (lcdState 227 true false false false 0#8).lcd.ly < 228 := by decide

/-- Offset 0x05 for a read, 0x07 for a write, and the last ones of the window. -/
theorem test_witness_LcdUnknownOffsets : State.reset.phase = .running ∧
    ((0x05#7).toNat + Size.half.bytes ≤ 0x60 ∧ lcdReadListed 0x05#7 = false) ∧
    ((0x07#7).toNat + Size.byte.bytes ≤ 0x60 ∧ lcdWriteListed 0x07#7 = false) ∧
    ((0x5C#7).toNat + Size.word.bytes ≤ 0x60 ∧ lcdReadListed 0x5C#7 = false ∧ lcdWriteListed 0x5C#7 = false) ∧
    ((0x5F#7).toNat + Size.byte.bytes ≤ 0x60 ∧ lcdReadListed 0x5F#7 = false ∧ lcdWriteListed 0x5F#7 = false) := by decide

theorem test_witness_DispcntReadsBackWrite : Size.half.fits 0xFFFF#32 = true ∧
    runs (.lcdWrDispcnt .half 0xFFFF#32) State.reset := ⟨by decide, _, rfl⟩

theorem test_witness_OnlyTickMovesTheScan : State.reset.phase = .running ∧ Instr.picLine 0 true ≠ .lcdTick ∧
    runs (.picLine 0 true) State.reset := ⟨rfl, nofun, _, rfl⟩

/-- The firing meets all clauses; a one-byte DISPSTAT write meets the second and the third. -/
theorem test_witness_LcdFieldsHaveTheirWriters : State.reset.phase = .running ∧ runs .lcdTick State.reset ∧
    (∀ n v, Instr.lcdTick ≠ .lcdWrDispstat n v) ∧ (∀ n v, Instr.lcdTick ≠ .lcdWrDispcnt n v) ∧
    runs (.lcdWrDispstat .byte 0xFF#32) State.reset ∧
    (∀ n v, n ≠ .byte → Instr.lcdWrDispstat .byte 0xFF#32 ≠ .lcdWrDispstat n v) ∧
    (∀ n v, Instr.lcdWrDispstat .byte 0xFF#32 ≠ .lcdWrLyc n v) :=
  ⟨rfl, runs_tick, nofun, nofun, ⟨_, rfl⟩, fun _ _ h e => h (by cases e; rfl), nofun⟩

/-- The last half-word of a stub window. -/
theorem test_witness_StubAccesses : State.reset.phase = .running ∧
    (∃ w ∈ State.reset.wiring.stubs, w.name = .timer ∧ 0x0E + Size.half.bytes ≤ w.size) := by decide

/-- One byte past the end of each window. -/
theorem test_witness_AccessPastWindowEndIsUnmapped : State.reset.phase = .running ∧
    0x100 < (0xFF#8).toNat + Size.half.bytes ∧ 0x60 < (0x5F#7).toNat + Size.half.bytes ∧
    (∀ w ∈ State.reset.wiring.stubs, w.name = .timer → w.size < 0x0F + Size.half.bytes) := by decide

theorem test_witness_ReadsChangeNoState : demo.phase = .running ∧ runs (.mrd32 0x10FC#32) demo ∧
    (∃ a, Instr.mrd32 0x10FC#32 = .mrd32 a) := ⟨rfl, ⟨_, rfl⟩, _, rfl⟩

theorem test_witness_AtMostOneDiagnostic : runs (.picRdIf .word) State.reset := ⟨_, rfl⟩

/-- An operation that gives out a result and a record, one that gives out neither, one that faults and one that is refused. -/
theorem test_witness_OutputsAreNeverRead : runs (.picRdIf .word) State.reset ∧ runs .lcdTick State.reset ∧
    exec (.mrd8 0x4BFF#32) demo = .fault .unmapped ∧ exec (.picLine 0 true) State.unbuilt = .refused .notBuilt :=
  ⟨⟨_, rfl⟩, runs_tick, rfl, rfl⟩

theorem test_witness_StepKeepsTheMap : demo.phase = .running ∧ steps demo := ⟨rfl, _, rfl⟩

theorem test_witness_OnlyMemoryWritesChangeMemory : demo.phase = .running ∧ steps demo ∧
    demo.regions[1]? = some demoRom ∧ demoRom.readonly = true ∧ runs .lcdTick demo ∧
    (∀ a v, Instr.lcdTick ≠ .mwr8 a v) ∧ (∀ a v, Instr.lcdTick ≠ .mwr16 a v) ∧ (∀ a v, Instr.lcdTick ≠ .mwr32 a v) :=
  ⟨rfl, ⟨_, rfl⟩, rfl, rfl, ⟨_, rfl⟩, nofun, nofun, nofun⟩

theorem test_witness_WaitcntIsOpaque : State.reset.phase = .running ∧
    (∀ n, Instr.picWrIme .half 0#32 ≠ .picRdWaitcnt n) ∧ runs (.picWrIme .half 0#32) State.reset := ⟨rfl, nofun, _, rfl⟩

theorem test_witness_DecodeEncodeRoundTrip : (Instr.lcdWrUnknown 0x5F#7 .word 0xFFFFFFFF#32).wellFormed = true ∧
    (Instr.sysBuild demoParams).wellFormed = true ∧ (BusAccess.write 0xFFFFFFFF#32 .byte 0xFF#32).wellFormed = true := by
  decide

theorem test_witness_DecodeGivesWellFormed : decode [0x00#8, 0x50#8] = .ok (.op .lcdTick, []) ∧
    decode [0x00#8, 0x70#8, 0xFF#8, 0xFF#8, 0xFF#8, 0xFF#8] = .ok (.access (.read 0xFFFFFFFF#32 .byte), []) := by decide

/-- Bytes that are an operation, bytes that are none, and no bytes. -/
theorem test_witness_StepRunsTheNextEvent :
    ([0x05#8, 0x40#8] ≠ [] ∧ decode [0x05#8, 0x40#8] = .ok (.op (.picLine 2 true), [])) ∧
    ([0x00#8, 0xF0#8] ≠ [] ∧ decode [0x00#8, 0xF0#8] = .error .reservedFormat) ∧ State.reset.input = [] := by decide

/-- Every clause of `BusAccessSelectsPicRegister`: each register's offset, and the last one of the window. -/
theorem test_witness_BusAccessSelectsPicRegister : demoStub.phase = .running ∧
    wellFormedMap demoStub.regions demoStub.wiring = true ∧
    (∀ off ∈ [0x00, 0x02, 0x04, 0x08, 0xFC], (BitVec.ofNat 32 (0x8000 + off)).toNat = demoStub.wiring.picBase + off ∧
      off + Size.word.bytes ≤ 0x100 ∧
      decode (reading 0x80#8 (BitVec.ofNat 8 off) .word).input =
        .ok (.access (.read (BitVec.ofNat 32 (0x8000 + off)) .word), []) ∧
      decode (writing 0x80#8 (BitVec.ofNat 8 off)).input =
        .ok (.access (.write (BitVec.ofNat 32 (0x8000 + off)) .byte 7#32), [])) ∧
    (0xFC ≠ 0x00 ∧ 0xFC ≠ 0x02 ∧ 0xFC ≠ 0x04 ∧ 0xFC ≠ 0x08) := by decide

theorem test_witness_BusAccessSelectsLcdRegister : demoStub.phase = .running ∧
    wellFormedMap demoStub.regions demoStub.wiring = true ∧
    (∀ off ∈ [0x00, 0x04, 0x05, 0x06, 0x5E], (BitVec.ofNat 32 (0x9000 + off)).toNat = demoStub.wiring.lcdBase + off ∧
      off + Size.half.bytes ≤ 0x60 ∧
      decode (reading 0x90#8 (BitVec.ofNat 8 off) .half).input =
        .ok (.access (.read (BitVec.ofNat 32 (0x9000 + off)) .half), []) ∧
      decode (writing 0x90#8 (BitVec.ofNat 8 off)).input =
        .ok (.access (.write (BitVec.ofNat 32 (0x9000 + off)) .byte 7#32), [])) ∧
    (0x5E ≠ 0x00 ∧ 0x5E ≠ 0x04 ∧ 0x5E ≠ 0x05 ∧ 0x5E ≠ 0x06) := by decide

/-- The last byte of a primary range, of a second range and of a stub window, and the first byte after one. -/
theorem test_witness_BusAccessReachesMemoryOrStub : demoStub.phase = .running ∧
    wellFormedMap demoStub.regions demoStub.wiring = true ∧
    (∃ r ∈ demoStub.regions, r.start ≤ (0x10FF#32).toNat ∧ (0x10FF#32).toNat + Size.byte.bytes ≤ r.start + r.size) ∧
    (∃ r ∈ demoStub.regions, r.start + r.size < r.stop ∧ r.stop - r.skip ≤ (0x1FFF#32).toNat ∧
      (0x1FFF#32).toNat + Size.byte.bytes ≤ r.stop - r.skip + r.size) ∧
    (∃ w ∈ demoStub.wiring.stubs, (0xA00F#32).toNat = w.base + 0x0F ∧ 0x0F + Size.byte.bytes ≤ w.size) ∧
    (∀ x ∈ mappedRanges demoStub.regions demoStub.wiring,
      ¬ (x.1 ≤ (0xA010#32).toNat ∧ (0xA010#32).toNat + Size.byte.bytes ≤ x.2)) ∧
    decode (reading 0x10#8 0xFF#8 .byte).input = .ok (.access (.read 0x10FF#32 .byte), []) ∧
    decode (writing 0x1F#8 0xFF#8).input = .ok (.access (.write 0x1FFF#32 .byte 7#32), []) ∧
    decode (reading 0xA0#8 0x0F#8 .byte).input = .ok (.access (.read 0xA00F#32 .byte), []) ∧
    decode (writing 0xA0#8 0x10#8).input = .ok (.access (.write 0xA010#32 .byte 7#32), []) := by decide

/-- A state other than reset that meets the invariant, from which a step goes on. -/
theorem test_witness_EveryStepKeepsInvariant : demo.Inv ∧ steps demo := by
  refine ⟨⟨rfl, ⟨0, by decide⟩, ⟨by decide, by decide⟩, fun r hr => ?_, fun _ => ⟨by decide, by decide, by decide⟩⟩, _, rfl⟩
  have h : ∀ r ∈ demo.regions, (wellFormedRegion r.start r.stop r.size r.skip && r.backing.wf && r.backing.inside r.size) = true := by
    decide
  simpa [Region.wf, and_assoc] using h r hr

end Sys2Proof.Tests
end

section
/-! ### Decode of an address of each kind of range

The labelled ranges of a map, one membership rule per kind, and from them what `Decode` gives. -/

namespace Sys2Proof.Machine

section
variable {rs : List Region} {w : Wiring}

theorem primary_mem_labelled {i : Nat} {r : Region} (hr : rs[i]? = some r) :
    (.primary i, r.start, r.start + r.size) ∈ labelled rs w := by
  have hm := (labelledRegions_mem rs 0 i r hr).1
  rw [Nat.zero_add] at hm
  exact List.mem_append_left _ hm

theorem mirror_mem_labelled {i : Nat} {r : Region} (hr : rs[i]? = some r) (hal : r.hasAlias = true) :
    (.mirror i, r.aliasBase, r.aliasBase + r.size) ∈ labelled rs w := by
  have hm := (labelledRegions_mem rs 0 i r hr).2 hal
  rw [Nat.zero_add] at hm
  exact List.mem_append_left _ hm

theorem pic_mem_labelled : (.pic, w.picBase, w.picBase + Config.picWindowSize) ∈ labelled rs w :=
  List.mem_append_right _ List.mem_cons_self

theorem lcd_mem_labelled : (.lcd, w.lcdBase, w.lcdBase + Config.lcdWindowSize) ∈ labelled rs w :=
  List.mem_append_right _ (List.mem_cons_of_mem _ List.mem_cons_self)

theorem stub_mem_labelled {j : Nat} {v : StubWindow} (hv : w.stubs[j]? = some v) :
    (.stub v.name j, v.base, v.base + v.size) ∈ labelled rs w := by
  have hm := labelledStubs_mem w.stubs 0 j v hv
  rw [Nat.zero_add] at hm
  exact List.mem_append_right _ (List.mem_cons_of_mem _ (List.mem_cons_of_mem _ hm))

end

/-- Settles O10: each kind of range is a labelled range, and an address of a labelled range decodes to it. -/
theorem decodeFindsEachRange : Obligations.DecodeFindsEachRange := by
  intro s a hmap
  refine ⟨fun i r hr hlo hhi => ?primary, fun i r hr hal hlo hhi => ?mirror, fun hlo hhi => ?pic, fun hlo hhi => ?lcd,
    fun j v hv hlo hhi => ?stub, decodeAddr_none.mpr⟩
  case primary => exact decodeAddr_of_mem hmap (primary_mem_labelled hr) ⟨hlo, hhi⟩
  case mirror => exact decodeAddr_of_mem hmap (mirror_mem_labelled hr (decide_eq_true hal)) ⟨hlo, hhi⟩
  case pic => exact decodeAddr_of_mem hmap pic_mem_labelled ⟨hlo, hhi⟩
  case lcd => exact decodeAddr_of_mem hmap lcd_mem_labelled ⟨hlo, hhi⟩
  case stub => exact decodeAddr_of_mem hmap (stub_mem_labelled hv) ⟨hlo, hhi⟩

end Sys2Proof.Machine
end

section
/-! ### The interrupt controller (42_interrupt_controller.md)

What a bus access of each width carries of a register, how the halves of a write value and the pending bits read bit by
bit, and from these the rules of the input line and of each register of the PIC window. -/

namespace Sys2Proof.Machine

/-! #### Reads -/

/-- A register that fits the access is read whole. -/
theorem busValue_setWidth {w : Nat} {n : Size} (hw : w ≤ 8 * n.bytes) (x : BitVec w) :
    busValue n (x.setWidth 32) = x.setWidth 32 := by
  refine busValue_of_fits (decide_eq_true ?_)
  calc (x.setWidth 32).toNat ≤ x.toNat := by rw [BitVec.toNat_setWidth]; exact Nat.mod_le _ _
    _ < 2 ^ w := x.isLt
    _ ≤ 2 ^ (8 * n.bytes) := Nat.pow_le_pow_right (by decide) hw

theorem busValue_half_widen (h : Half) : busValue .half (widen h) = h.setWidth 32 := busValue_setWidth (by decide) h

/-- The IME value is a single bit, which every access carries. -/
theorem busValue_ime (n : Size) (master : Bool) :
    busValue n (if master then 0#32 else 1#32) = if master then 0#32 else 1#32 := by
  cases n <;> cases master <;> rfl

/-- A four-byte read at IE gives IF above IE (rule R145). -/
theorem readIe_word (p : Pic) : readIe .word p = p.level ++ p.irqEnabled := by
  apply BitVec.eq_of_getLsbD_eq
  intro j hj
  simp only [readIe, widen, BitVec.getLsbD_or, BitVec.getLsbD_shiftLeft, BitVec.getLsbD_setWidth, BitVec.getLsbD_append]
  by_cases h : j < 16
  · simp [h, hj]
  · have hie : p.irqEnabled.getLsbD j = false := BitVec.getLsbD_of_ge _ _ (by omega)
    have hif : j - 16 < 32 := by omega
    simp [h, hj, hie, hif]

/-- Only a four-byte access of a half-word register is flagged (rule R74). -/
theorem flagOversized_two (s : State) (u : DiagUnit) (dir : Dir) (off : Nat) (n : Size) :
    s.flagOversized u dir off n 2 = s.withOut { s.out with
      diags := s.out.diags ++ if n = .word then [.oversizedAccess u dir off .word] else [] } := by
  rw [State.flagOversized_eq]
  cases n <;> rfl

/-! #### Write values -/

theorem lowHalf_eq_setWidth (v : Word) : lowHalf v = v.setWidth 16 :=
  (BitVec.setWidth_eq_extractLsb' (by decide)).symm

theorem highHalf_eq_setWidth (v : Word) : highHalf v = (v >>> 16).setWidth 16 := by
  apply BitVec.eq_of_toNat_eq
  simp [highHalf]

theorem acknowledge_lowHalf_getLsbD (level : Half) (v : Word) (j : Fin 16) :
    (acknowledge level (lowHalf v)).getLsbD j.val = (level.getLsbD j.val && !v.getLsbD j.val) := by
  simp [acknowledge, lowHalf_eq_setWidth]

/-- Bit 0 of a write value tells its parity. -/
theorem not_getLsbD_zero (v : Word) : (!v.getLsbD 0) = decide (v.toNat % 2 = 0) := by
  rw [BitVec.getLsbD, Nat.testBit_zero, ← decide_not]
  exact decide_eq_decide.mpr Nat.mod_two_not_eq_one

/-! #### The input line -/

/-- Settles O17: the level the line leaves is `levelAfterLine`, which moves bit `i` alone. -/
theorem inputLineMovesItsPendingBit : Obligations.InputLineMovesItsPendingBit := by
  intro i b s hrun
  refine ⟨levelAfterLine s.pic.level i b, exec_picLine.mpr ⟨hrun, rfl⟩, fun j => ?_⟩
  simp only [levelAfterLine_getLsbD _ _ _ _ j.isLt, Fin.ext_iff]

/-! #### The registers -/

/-- Settles O18: a one-byte read keeps the low byte, and a half-word or wider one carries a register of at most 16 bits whole. -/
theorem picRegisterReads : Obligations.PicRegisterReads := by
  intro n s hrun
  refine ⟨exec_picRdIe.mpr ⟨hrun, ?ie⟩, exec_picRdIf.mpr ⟨hrun, ?pending⟩, exec_picRdWaitcnt.mpr ⟨hrun, ?waitcnt⟩,
    exec_picRdIme.mpr ⟨hrun, ?ime⟩⟩
  case ie =>
    cases n with
    | byte => rfl
    | half => rw [State.answer, readIe, busValue_half_widen]
    | word => rw [readIe_word]; rfl
  case pending =>
    rw [flagOversized_two]
    cases n with
    | byte => rfl
    | half => rw [State.answer, busValue_half_widen]; rfl
    | word => rfl
  case waitcnt =>
    cases n with
    | byte => rfl
    | half => rw [State.answer, busValue_setWidth (by decide)]
    | word => rfl
  case ime => rw [State.answer, busValue_ime]

/-- Settles O19: an unlisted access inside the window goes on with its record alone, and a read answers 0 at every width. -/
theorem picUnknownOffsets : Obligations.PicUnknownOffsets := by
  intro off n v s hrun _ hin
  refine ⟨exec_picRdUnknown.mpr ⟨hrun, hin, ?_⟩, exec_picWrUnknown.mpr ⟨hrun, hin, rfl⟩⟩
  rw [readUnlisted, State.answer, busValue_zero]
  rfl

/-- Settles O20: the mask is the low half of the value, and the acknowledge of a four-byte write its high half. -/
theorem ieWriteSetsMaskAndAcknowledges : Obligations.IeWriteSetsMaskAndAcknowledges := by
  intro n v s hrun hfits
  refine exec_picWrIe.mpr ⟨hrun, ?_⟩
  rw [busValue_of_fits hfits, ← highHalf_eq_setWidth, ← lowHalf_eq_setWidth]
  cases n <;> rfl

/-- Settles O21: the level left is the acknowledge of the named bits, and only a four-byte write is flagged. -/
theorem ifWriteClearsNamedBits : Obligations.IfWriteClearsNamedBits := by
  intro n v s hrun hfits
  refine ⟨acknowledge s.pic.level (lowHalf v), exec_picWrIf.mpr ⟨hrun, ?_⟩, acknowledge_lowHalf_getLsbD _ v⟩
  rw [busValue_of_fits hfits, flagOversized_two]
  rfl

/-- Settles O22: the write replaces WAITCNT and recomputes the output from fields it leaves alone. -/
theorem waitcntWriteStoresFifteenBits : Obligations.WaitcntWriteStoresFifteenBits := by
  intro n v s hrun hfits
  refine exec_picWrWaitcnt.mpr ⟨hrun, ?_⟩
  rw [busValue_of_fits hfits, BitVec.setWidth_eq_extractLsb' (by decide)]
  rfl

/-- Settles O23: the master enable is the inverse of bit 0, which is set exactly in an odd value. -/
theorem imeWriteInvertsBitZero : Obligations.ImeWriteInvertsBitZero := by
  intro n v s hrun hfits
  refine exec_picWrIme.mpr ⟨hrun, ?_⟩
  rw [busValue_of_fits hfits, ← not_getLsbD_zero]
  rfl

end Sys2Proof.Machine
end

section
/-! ### The display controller's registers (43_display_controller.md)

How a packed register reads bit by bit, what a read of each width carries of it, what the fields of a write value are, and
from these the rules of each register of the LCD window. -/

namespace Sys2Proof.Machine

/-! #### Reads -/

/-- The number of a flag has the flag as its bit 0 and no other bit. -/
@[simp] theorem bit_getLsbD (b : Bool) (j : Nat) : (bit b).getLsbD j = (decide (j = 0) && b) := by
  cases b <;> simp [bit]

@[simp] theorem bit_getElem (b : Bool) {j : Nat} (hj : j < 16) : (bit b)[j] = (decide (j = 0) && b) :=
  bit_getLsbD b j

/-- A read carries the bits of a half-word register that its width admits. -/
theorem busValue_widen_getLsbD (n : Size) (h : Half) (j : Nat) :
    (busValue n (widen h)).getLsbD j = (decide (j < 8 * n.bytes) && h.getLsbD j) := by
  rw [busValue_getLsbD, widen, BitVec.getLsbD_setWidth]
  by_cases hj : j < 32
  · simp [hj]
  · simp [BitVec.getLsbD_of_ge h j (by omega)]

/-- The upper byte of DISPSTAT is `lyc` (rule R101). -/
theorem packDispstat_getLsbD_upper (l : Lcd) (j : Nat) : (packDispstat l).getLsbD (j + 8) = l.lyc.getLsbD j := by
  by_cases hj : j < 8
  · have inHalf : j + 8 < 16 := by omega
    simp [packDispstat, hj, inHalf]
  · rw [BitVec.getLsbD_of_ge _ _ (by omega), BitVec.getLsbD_of_ge _ _ (by omega)]

/-- The status bit of V-blank is set on the blanking lines but the last (rule R38). -/
theorem inVblank_eq (l : Lcd) : inVblank l = decide (160 ≤ l.ly ∧ l.ly ≤ 226) := (Bool.decide_and _ _).symm

theorem vcountMatch_eq (l : Lcd) : vcountMatch l = decide (l.ly = l.lyc.toNat) := rfl

/-- Every line number fits the narrowest access. -/
theorem busValue_line {ly : Nat} (n : Size) (h : ly < 228) : busValue n (BitVec.ofNat 32 ly) = BitVec.ofNat 32 ly := by
  refine busValue_of_fits (decide_eq_true ?_)
  calc (BitVec.ofNat 32 ly).toNat ≤ ly := by rw [BitVec.toNat_ofNat]; exact Nat.mod_le _ _
    _ < 2 ^ 8 := by omega
    _ ≤ 2 ^ (8 * n.bytes) := Nat.pow_le_pow_right (by decide) (by cases n <;> decide)

/-- A read at an unlisted offset adds its record and answers 0 at every width (rule R231). -/
theorem readUnlisted_eq (s : State) (u : DiagUnit) (off : Nat) (n : Size) :
    readUnlisted s u off n = s.withOut { s.out with
      result := some 0#32, diags := s.out.diags ++ [.unimplementedRegister u .read off n] } := by
  rw [readUnlisted, State.answer, busValue_zero]
  rfl

/-- Settles O31: below bit 16 each bit of the packed register is the one field placed there, and from bit 16 up it is 0. -/
theorem dispcntReadPacksFields : Obligations.DispcntReadPacksFields := by
  intro n s hrun
  refine ⟨_, exec_lcdRdDispcnt.mpr ⟨hrun, rfl⟩, fun j => ?_⟩
  rw [busValue_widen_getLsbD]
  congr 1
  obtain hj | hj := Nat.lt_or_ge j 16
  · interval_cases j <;> simp [packDispcnt]
  · obtain ⟨i, rfl⟩ := Nat.exists_eq_add_of_le' hj
    exact BitVec.getLsbD_of_ge _ _ hj

/-- Settles O32: the low byte of the packed register holds the status and the enables bit by bit, the upper byte `lyc`. -/
theorem dispstatReadPacksStatus : Obligations.DispstatReadPacksStatus := by
  intro n s hrun
  refine ⟨busValue n (widen (packDispstat s.lcd)), exec_lcdRdDispstat.mpr ⟨hrun, ?_⟩, fun j => ?_⟩
  · rw [flagOversized_two]; rfl
  rw [busValue_widen_getLsbD]
  congr 1
  obtain hj | hj := Nat.lt_or_ge j 8
  · interval_cases j <;> simp [packDispstat, inVblank_eq, vcountMatch_eq]
  · obtain ⟨i, rfl⟩ := Nat.exists_eq_add_of_le' hj
    exact packDispstat_getLsbD_upper s.lcd i

/-- Settles O33: the line fits every access, so that each width carries it whole. -/
theorem vcountReadGivesLine : Obligations.VcountReadGivesLine := by
  intro n s hrun hly
  refine exec_lcdRdVcount.mpr ⟨hrun, ?_⟩
  rw [flagOversized_two, State.answer, busValue_line n hly]
  rfl

/-- Settles O34: an unlisted access inside the window goes on with its record alone, and a read answers 0. -/
theorem lcdUnknownOffsets : Obligations.LcdUnknownOffsets := by
  intro off n v s hrun hin
  exact ⟨fun _ => exec_lcdRdUnknown.mpr ⟨hrun, hin, (readUnlisted_eq s .lcd off.toNat n).symm⟩,
    fun _ => exec_lcdWrUnknown.mpr ⟨hrun, hin, rfl⟩⟩

/-! #### Writes -/

theorem upperLyc_eq_setWidth (v : Word) : upperLyc v = (v >>> 8).setWidth 8 := by
  apply BitVec.eq_of_toNat_eq
  simp [upperLyc]

/-- The display-mode fields of a write lie in the low half of the value, so that they are read off the value itself. -/
theorem unpackDispcnt_lowHalf (v : Word) (l : Lcd) :
    unpackDispcnt (lowHalf v) l = { l with
      bgMode := v.setWidth 3, bgm45Frame := v.getLsbD 4, hbIntvlFree := v.getLsbD 5, objVramMap2d := !v.getLsbD 6
      forcedBlank := v.getLsbD 7, displayBg0 := v.getLsbD 8, displayBg1 := v.getLsbD 9, displayBg2 := v.getLsbD 10
      displayBg3 := v.getLsbD 11, displayObj := v.getLsbD 12, displayWnd0 := v.getLsbD 13, displayWnd1 := v.getLsbD 14
      displayOwnd := v.getLsbD 15 } := by
  have mode : (v.setWidth 16).extractLsb' 0 3 = v.setWidth 3 := by
    rw [← BitVec.setWidth_eq_extractLsb' (by decide), BitVec.setWidth_setWidth_of_le v (by decide)]
  simp [unpackDispcnt, mode, lowHalf_eq_setWidth]

/-- A DISPSTAT write leaves the enables from bits 3 to 5, and `lyc` from bits 15:8 but for the one-byte width (rule R185). -/
theorem writeDispstat_eq (n : Size) (v : Word) (l : Lcd) :
    writeDispstat n v l = { l with
      irqVbEn := v.getLsbD 3, irqHbEn := v.getLsbD 4, irqVmEn := v.getLsbD 5
      lyc := if n = .byte then l.lyc else (v >>> 8).setWidth 8 } := by
  rw [← upperLyc_eq_setWidth]
  cases n <;> rfl

/-- Settles O35: a value that fits reaches the register whole, and the fields are those of its low half. -/
theorem dispcntWriteSetsFields : Obligations.DispcntWriteSetsFields := by
  intro n v s hrun hfits
  refine exec_lcdWrDispcnt.mpr ⟨hrun, ?_⟩
  rw [busValue_of_fits hfits, unpackDispcnt_lowHalf]

/-- Settles O37: the write sets the enables and `lyc` of the LCD, and only a four-byte one is flagged. -/
theorem dispstatWriteSetsEnables : Obligations.DispstatWriteSetsEnables := by
  intro n v s hrun hfits
  refine exec_lcdWrDispstat.mpr ⟨hrun, ?_⟩
  rw [busValue_of_fits hfits, flagOversized_two, writeDispstat_eq]
  rfl

end Sys2Proof.Machine
end

section
/-! ### System composition (44_system_composition.md)

The stub peripherals: an access inside a stub window is admitted, and what it leaves is an unlisted access's outcome. -/

namespace Sys2Proof.Machine

/-- Settles O41: the window admits the access, which goes on with its record alone, and a read answers 0. -/
theorem stubAccesses : Obligations.StubAccesses := by
  intro name off n v s hrun hwindow
  have admits : stubAdmits s name off n = true := stubAdmits_iff.mpr hwindow
  exact ⟨exec_stubRd.mpr ⟨hrun, admits, (readUnlisted_eq s (.stub name) off n).symm⟩,
    exec_stubWr.mpr ⟨hrun, admits, rfl⟩⟩

end Sys2Proof.Machine
end

section
/-! ### What one operation does

An operation that goes on has one of few effects: a read answers, a write that stores nothing leaves a record at most, and
every other operation changes one part of the state. The claims over all operations are case analyses of the effect. -/

namespace Sys2Proof

/-- What sort of effect an operation has. -/
inductive OpKind where
  | read          -- a bus read of memory, of a register or of a stub window
  | ignoredWrite  -- a bus write that stores nothing: at VCOUNT, at an unlisted offset or in a stub window
  | memWrite      -- a write of memory
  | regionSetup   -- a build-time operation that changes the list of regions alone
  | own           -- one of its own

/-- The sort of each operation. -/
def Instr.kind : Instr → OpKind
  | .mrd8 _ | .mrd16 _ | .mrd32 _ => .read
  | .picRdIe _ | .picRdIf _ | .picRdWaitcnt _ | .picRdIme _ | .picRdUnknown _ _ => .read
  | .lcdRdDispcnt _ | .lcdRdDispstat _ | .lcdRdVcount _ | .lcdRdUnknown _ _ | .stubRd _ _ _ => .read
  | .picWrUnknown _ _ _ | .lcdWrVcount _ _ | .lcdWrUnknown _ _ _ | .stubWr _ _ _ _ => .ignoredWrite
  | .mwr8 _ _ | .mwr16 _ _ | .mwr32 _ _ => .memWrite
  | .sysCreateRegion _ _ _ _ _ | .sysLoadImage _ _ | .sysMarkReadonly _ => .regionSetup
  | _ => .own

end Sys2Proof

namespace Sys2Proof.Machine

/-- The state with a record at the end of its log, where there is one (rule R15). -/
def State.log (s : State) (d : Option Diag) : State := s.withOut { s.out with diags := s.out.diags ++ d.toList }

@[simp] theorem State.log_none (s : State) : s.log none = s := by
  simp [State.log]
  rfl

/-- The record of an access wider than its register (rules R73 and R74). -/
def oversized (u : DiagUnit) (dir : Dir) (off : Nat) (n : Size) (w : Nat) : Option Diag :=
  if w < n.bytes then some (.oversizedAccess u dir off n) else none

theorem State.flagOversized_log (s : State) (u : DiagUnit) (dir : Dir) (off : Nat) (n : Size) (w : Nat) :
    s.flagOversized u dir off n w = s.log (oversized u dir off n w) := by
  unfold State.flagOversized oversized
  split
  · rfl
  · exact s.log_none.symm

/-- `Effect s i t`: that `t` is a state in which operation `i` may leave `s`. -/
inductive Effect (s : State) : Instr → State → Prop
  | read {i : Instr} (hi : i.kind = .read) (d : Option Diag) (n : Size) (v : Word) : Effect s i ((s.log d).answer n v)
  | ignored {i : Instr} (hi : i.kind = .ignoredWrite) (d : Option Diag) : Effect s i (s.log d)
  | store {i : Instr} (hi : i.kind = .memWrite) {k o : Nat} {n : Size} (v : Word) {r : Region}
      (hr : s.regions[k]? = some r) (ho : o + n.bytes ≤ r.size) :
      Effect s i (s.withRegions (s.regions.set k (r.writeBytes o v n)))
  | wrIe (n : Size) (v : Word) : Effect s (.picWrIe n v) (s.withPic (writeIe n (busValue n v) s.pic).update)
  | wrIf (n : Size) (v : Word) (d : Option Diag) :
      Effect s (.picWrIf n v) ((s.log d).withPic (writeIf (busValue n v) s.pic).update)
  | wrWaitcnt (n : Size) (v : Word) :
      Effect s (.picWrWaitcnt n v) (s.withPic (writeWaitcnt (busValue n v) s.pic).update)
  | wrIme (n : Size) (v : Word) : Effect s (.picWrIme n v) (s.withPic (writeIme (busValue n v) s.pic).update)
  | wrDispcnt (n : Size) (v : Word) :
      Effect s (.lcdWrDispcnt n v) (s.withLcd (unpackDispcnt (lowHalf (busValue n v)) s.lcd))
  | wrDispstat (n : Size) (v : Word) (d : Option Diag) :
      Effect s (.lcdWrDispstat n v) ((s.log d).withLcd (writeDispstat n (busValue n v) s.lcd))
  | wrLyc (n : Size) (v : Word) (d : Option Diag) :
      Effect s (.lcdWrLyc n v) ((s.log d).withLcd { s.lcd with lyc := lowerLyc (busValue n v) })
  | line (k : Fin 16) (b : Bool) : Effect s (.picLine k b) (s.picLine k b)
  | tick : Effect s .lcdTick s.tick
  | setup {i : Instr} (hi : i.kind = .regionSetup) (hs : s.phase = .building) {rs : List Region}
      (hrs : (∀ r ∈ s.regions, r.wf) → ∀ r ∈ rs, r.wf) : Effect s i (s.withRegions rs)
  | build {p : BuildParams} {t : State} (hs : s.phase = .building) (ht : buildSystem p s = .next t) :
      Effect s (.sysBuild p) t

theorem Effect.answer {s : State} {i : Instr} (hi : i.kind = .read) (n : Size) (v : Word) : Effect s i (s.answer n v) := by
  have e := Effect.read (s := s) hi none n v
  rwa [State.log_none] at e

theorem Effect.flaggedAnswer {s : State} {i : Instr} (hi : i.kind = .read) (u : DiagUnit) (dir : Dir) (off w : Nat)
    (n : Size) (v : Word) : Effect s i ((s.flagOversized u dir off n w).answer n v) := by
  rw [State.flagOversized_log]
  exact .read hi _ n v

/-- Whatever operation goes on, it goes on by one of the effects. -/
theorem exec_effect {i : Instr} {s t : State} (h : exec i s = .next t) : Effect s i t := by
  cases i
  case mrd8 => obtain ⟨_, _, rfl⟩ := exec_mrd8 h; exact .answer rfl _ _
  case mrd16 => obtain ⟨_, _, rfl⟩ := exec_mrd16 h; exact .answer rfl _ _
  case mrd32 => obtain ⟨_, _, rfl⟩ := exec_mrd32 h; exact .answer rfl _ _
  case mwr8 => obtain ⟨_, _, _, _, hr, ho, rfl⟩ := exec_mwr8 h; exact .store rfl _ hr ho
  case mwr16 => obtain ⟨_, _, _, _, hr, ho, rfl⟩ := exec_mwr16 h; exact .store rfl _ hr ho
  case mwr32 => obtain ⟨_, _, _, _, hr, ho, rfl⟩ := exec_mwr32 h; exact .store rfl _ hr ho
  case picRdIe => obtain ⟨_, rfl⟩ := exec_picRdIe.mp h; exact .answer rfl _ _
  case picRdIf => obtain ⟨_, rfl⟩ := exec_picRdIf.mp h; exact .flaggedAnswer rfl ..
  case picRdWaitcnt => obtain ⟨_, rfl⟩ := exec_picRdWaitcnt.mp h; exact .answer rfl _ _
  case picRdIme => obtain ⟨_, rfl⟩ := exec_picRdIme.mp h; exact .answer rfl _ _
  case picRdUnknown => obtain ⟨_, _, rfl⟩ := exec_picRdUnknown.mp h; exact .read rfl (some _) _ _
  case picWrIe => obtain ⟨_, rfl⟩ := exec_picWrIe.mp h; exact .wrIe _ _
  case picWrIf n v =>
    obtain ⟨_, rfl⟩ := exec_picWrIf.mp h
    rw [State.flagOversized_log]
    exact .wrIf n v _
  case picWrWaitcnt => obtain ⟨_, rfl⟩ := exec_picWrWaitcnt.mp h; exact .wrWaitcnt _ _
  case picWrIme => obtain ⟨_, rfl⟩ := exec_picWrIme.mp h; exact .wrIme _ _
  case picWrUnknown => obtain ⟨_, _, rfl⟩ := exec_picWrUnknown.mp h; exact .ignored rfl (some _)
  case lcdRdDispcnt => obtain ⟨_, rfl⟩ := exec_lcdRdDispcnt.mp h; exact .answer rfl _ _
  case lcdRdDispstat => obtain ⟨_, rfl⟩ := exec_lcdRdDispstat.mp h; exact .flaggedAnswer rfl ..
  case lcdRdVcount => obtain ⟨_, rfl⟩ := exec_lcdRdVcount.mp h; exact .flaggedAnswer rfl ..
  case lcdRdUnknown => obtain ⟨_, _, rfl⟩ := exec_lcdRdUnknown.mp h; exact .read rfl (some _) _ _
  case lcdWrDispcnt => obtain ⟨_, rfl⟩ := exec_lcdWrDispcnt.mp h; exact .wrDispcnt _ _
  case lcdWrDispstat n v =>
    obtain ⟨_, rfl⟩ := exec_lcdWrDispstat.mp h
    rw [State.flagOversized_log]
    exact .wrDispstat n v _
  case lcdWrLyc n v =>
    obtain ⟨_, rfl⟩ := exec_lcdWrLyc.mp h
    rw [State.flagOversized_log]
    exact .wrLyc n v _
  case lcdWrVcount n v =>
    obtain ⟨_, rfl⟩ := exec_lcdWrVcount.mp h
    rw [State.flagOversized_log]
    exact .ignored rfl _
  case lcdWrUnknown => obtain ⟨_, _, rfl⟩ := exec_lcdWrUnknown.mp h; exact .ignored rfl (some _)
  case stubRd => obtain ⟨_, _, rfl⟩ := exec_stubRd.mp h; exact .read rfl (some _) _ _
  case stubWr => obtain ⟨_, _, rfl⟩ := exec_stubWr.mp h; exact .ignored rfl (some _)
  case picLine => obtain ⟨_, rfl⟩ := exec_picLine.mp h; exact .line _ _
  case lcdTick => obtain ⟨_, rfl⟩ := exec_lcdTick.mp h; exact .tick
  case sysCreateRegion =>
    obtain ⟨hs, _, hc, rfl⟩ := exec_sysCreateRegion.mp h
    exact .setup rfl hs fun hwf => createRegion_wf hwf hc
  case sysLoadImage =>
    obtain ⟨hs, _, hc, rfl⟩ := exec_sysLoadImage.mp h
    exact .setup rfl hs fun hwf => loadImage_wf hwf hc
  case sysMarkReadonly =>
    obtain ⟨hs, _, hc, rfl⟩ := exec_sysMarkReadonly.mp h
    exact .setup rfl hs fun hwf => markReadonly_wf hwf hc
  case sysBuild => obtain ⟨hs, ht⟩ := exec_sysBuild.mp h; exact .build hs ht


section log
variable (s : State) (d : Option Diag)
@[simp] theorem State.log_phase : (s.log d).phase = s.phase := rfl
@[simp] theorem State.log_regions : (s.log d).regions = s.regions := rfl
@[simp] theorem State.log_wiring : (s.log d).wiring = s.wiring := rfl
@[simp] theorem State.log_pic : (s.log d).pic = s.pic := rfl
@[simp] theorem State.log_lcd : (s.log d).lcd = s.lcd := rfl
@[simp] theorem State.log_display : (s.log d).out.display = s.out.display := rfl
@[simp] theorem State.log_diags : (s.log d).out.diags = s.out.diags ++ d.toList := rfl
end log

/-! #### Who writes what -/

/-- Only the firing and a build move the scan position, the deadline or an output line. -/
theorem Effect.scan {s t : State} {i : Instr} (e : Effect s i t) (htick : i ≠ .lcdTick)
    (hbuild : ∀ p, i ≠ .sysBuild p) :
    t.lcd.ly = s.lcd.ly ∧ t.lcd.hblank = s.lcd.hblank ∧ t.lcd.deadline = s.lcd.deadline ∧
    t.lcd.lineVb = s.lcd.lineVb ∧ t.lcd.lineHb = s.lcd.lineHb ∧ t.lcd.lineVm = s.lcd.lineVm ∧
    t.out.display = s.out.display := by
  cases e
  case tick => exact absurd rfl htick
  case build => exact absurd rfl (hbuild _)
  case wrDispstat n v d => rw [writeDispstat_eq]; exact ⟨rfl, rfl, rfl, rfl, rfl, rfl, rfl⟩
  all_goals exact ⟨rfl, rfl, rfl, rfl, rfl, rfl, rfl⟩

/-- No operation of the running block is a build. -/
theorem ne_sysBuild_of_running {i : Instr} {s t : State} (hs : s.phase = .running) (h : exec i s = .next t)
    (p : BuildParams) : i ≠ .sysBuild p := by
  rintro rfl
  have := (exec_sysBuild.mp h).1
  simp [hs] at this

/-- Settles O39: no effect but the firing's and a build's touches the scan, and the running block has no build. -/
theorem onlyTickMovesTheScan : Obligations.OnlyTickMovesTheScan := by
  intro i s t hs htick h
  exact (exec_effect h).scan htick (ne_sysBuild_of_running hs h)

/-- Settles O25: each effect that touches the PIC names its operation. -/
theorem picFieldsHaveTheirWriters : Obligations.PicFieldsHaveTheirWriters := by
  intro i s t hs h
  cases exec_effect h
  case wrIe n v =>
    refine ⟨fun _ => ?master, fun hi => absurd rfl (hi n v), fun _ => ?waitcnt, fun _ _ hi _ => ?level⟩
    case master => cases n <;> rfl
    case waitcnt => cases n <;> rfl
    case level =>
      cases n with
      | byte => rfl
      | half => rfl
      | word => exact absurd rfl (hi v)
  case wrIf n v d => exact ⟨fun _ => rfl, fun _ => rfl, fun _ => rfl, fun _ hi _ _ => absurd rfl (hi n v)⟩
  case wrWaitcnt n v => exact ⟨fun _ => rfl, fun _ => rfl, fun hi => absurd rfl (hi n v), fun _ _ _ _ => rfl⟩
  case wrIme n v => exact ⟨fun hi => absurd rfl (hi n v), fun _ => rfl, fun _ => rfl, fun _ _ _ _ => rfl⟩
  case line k b => exact ⟨fun _ => rfl, fun _ => rfl, fun _ => rfl, fun hi _ _ _ => absurd rfl (hi k b)⟩
  case tick =>
    exact ⟨fun _ => s.tick_master, fun _ => s.tick_irqEnabled, fun _ => s.tick_waitcnt, fun _ _ _ hi => absurd rfl hi⟩
  case build hb _ => simp [hs] at hb
  all_goals exact ⟨fun _ => rfl, fun _ => rfl, fun _ => rfl, fun _ _ _ _ => rfl⟩

/-- Settles O40: each effect that touches the LCD's registers names its operation, and the firing touches none of them. -/
theorem lcdFieldsHaveTheirWriters : Obligations.LcdFieldsHaveTheirWriters := by
  intro i s t hs h
  cases exec_effect h
  case wrDispcnt n v => exact ⟨fun _ => ⟨rfl, rfl, rfl⟩, fun _ _ => rfl, fun hi => absurd rfl (hi n v)⟩
  case wrDispstat n v d =>
    refine ⟨fun hi => absurd rfl (hi n v), fun hi _ => ?_, fun _ => ?_⟩
    · cases n
      case byte => rfl
      all_goals exact absurd rfl (hi _ v (by decide))
    · rw [writeDispstat_eq]; simp
  case wrLyc n v d => exact ⟨fun _ => ⟨rfl, rfl, rfl⟩, fun _ hi => absurd rfl (hi n v), fun _ => by simp⟩
  case tick =>
    cases hb : s.lcd.hblank
    · rw [State.tick_lcd_draw hb]; simp
    · rw [State.tick_lcd_hblank hb]; simp
  case build hb _ => simp [hs] at hb
  all_goals exact ⟨fun _ => ⟨rfl, rfl, rfl⟩, fun _ _ => rfl, fun _ => by simp⟩

/-- Settles O43: the effect of a read is a result and a record at most. -/
theorem readsChangeNoState : Obligations.ReadsChangeNoState := by
  intro i s t _ h hread
  have hi : i.kind = .read := by
    obtain ⟨_, rfl⟩ | ⟨_, rfl⟩ | ⟨_, rfl⟩ | ⟨_, rfl⟩ | ⟨_, rfl⟩ | ⟨_, rfl⟩ | ⟨_, rfl⟩ | ⟨_, _, rfl⟩ | ⟨_, rfl⟩ | ⟨_, rfl⟩ |
      ⟨_, rfl⟩ | ⟨_, _, rfl⟩ | ⟨_, _, _, rfl⟩ := hread <;> rfl
  cases exec_effect h
  case read d n v _ => exact ⟨_, d.toList, rfl⟩
  case ignored hi' => cases hi.symm.trans hi'
  case store hi' => cases hi.symm.trans hi'
  case setup hi' => cases hi.symm.trans hi'
  all_goals cases hi

theorem buildSystem_out {p : BuildParams} {s t : State} (h : buildSystem p s = .next t) : t.out = s.out := by
  obtain ⟨rs, _, _, _, _, rfl⟩ := buildSystem_next.mp h
  rfl

theorem State.tick_diags (s : State) : s.tick.out.diags = s.out.diags := by
  cases hb : s.lcd.hblank
  · rw [State.tick_out_draw hb]
  · rw [State.tick_out_hblank hb]

/-- Settles O44: an effect adds to the log a record or none. -/
theorem atMostOneDiagnostic : Obligations.AtMostOneDiagnostic := by
  intro i s t h
  have hgrows : ∃ d : Option Diag, t.out.diags = s.out.diags ++ d.toList := by
    cases exec_effect h
    case read d n v _ => exact ⟨d, rfl⟩
    case ignored d _ => exact ⟨d, rfl⟩
    case wrIf d => exact ⟨d, rfl⟩
    case wrDispstat d => exact ⟨d, rfl⟩
    case wrLyc d => exact ⟨d, rfl⟩
    case tick => exact ⟨none, by simp [State.tick_diags]⟩
    case build ht => exact ⟨none, by simp [buildSystem_out ht]⟩
    all_goals exact ⟨none, (List.append_nil _).symm⟩
  obtain ⟨d, hd⟩ := hgrows
  cases d with
  | none => exact .inl (by simpa using hd)
  | some d => exact .inr ⟨d, hd⟩

/-! #### The map and the memory -/

/-- A step of the running block performs an operation from that block with some of its input taken. -/
theorem step_running_map {s t : State} (hs : s.phase = .running) (h : step s = .next t) :
    t.phase = .running ∧ t.wiring = s.wiring ∧ (t.regions = s.regions ∨
      ∃ (k o : Nat) (n : Size) (v : Word) (r : Region), s.regions[k]? = some r ∧ o + n.bytes ≤ r.size ∧
        t.regions = s.regions.set k (r.writeBytes o v n)) := by
  obtain ⟨i, inp, h⟩ := step_next h
  exact exec_running_map (s := s.withInput inp) hs h

/-- Settles O45: the bytes a memory write leaves are no part of a region's layout. -/
theorem stepKeepsTheMap : Obligations.StepKeepsTheMap := by
  intro s s' hs h
  obtain ⟨hphase, hwiring, hsame | ⟨k, o, n, v, r, hr, _, hset⟩⟩ := step_running_map hs h
  · exact ⟨hphase, hwiring, by rw [hsame]⟩
  · exact ⟨hphase, hwiring, by rw [hset, map_set_of_eq hr (r.writeBytes_layout o n v)]⟩

/-- A memory write leaves every read-only region as it was (rule R126). -/
theorem set_writeBytes_readonly {rs : List Region} {k i o : Nat} {n : Size} {v : Word} {r x : Region} (hr : rs[k]? = some r)
    (hx : rs[i]? = some x) (hro : x.readonly = true) : (rs.set k (r.writeBytes o v n))[i]? = some x := by
  by_cases hk : k = i
  · subst hk
    obtain rfl : r = x := Option.some.inj (hr.symm.trans hx)
    rw [Region.writeBytes_readonly hro, List.getElem?_set_self' , hx]
    rfl
  · rw [List.getElem?_set_ne hk, hx]

/-- Settles O46: a memory write into a read-only region is dropped, and no other effect touches the regions. -/
theorem onlyMemoryWritesChangeMemory : Obligations.OnlyMemoryWritesChangeMemory := by
  refine ⟨fun s s' hs h i r hr hro => ?_, fun i s t hs h h8 h16 h32 => ?_⟩
  · obtain ⟨_, _, hsame | ⟨k, o, n, v, x, hx, _, hset⟩⟩ := step_running_map hs h
    · rwa [hsame]
    · rw [hset, set_writeBytes_readonly hx hr hro]
  · cases exec_effect h
    case store hi =>
      cases i <;> cases hi
      · exact absurd rfl (h8 _ _)
      · exact absurd rfl (h16 _ _)
      · exact absurd rfl (h32 _ _)
    case tick => exact s.tick_regions
    case setup hb _ _ _ => simp [hs] at hb
    case build hb _ => simp [hs] at hb
    all_goals rfl

/-! #### The invariant -/

/-- Every effect leaves the output the aggregate of the PIC's fields. -/
theorem Effect.consistent {s t : State} {i : Instr} (e : Effect s i t) (h : s.pic.consistent) : t.pic.consistent := by
  cases e
  case tick => exact State.tick_consistent h
  case build ht => obtain ⟨_, _, _, _, _, rfl⟩ := buildSystem_next.mp ht; rfl
  case wrIe | wrIf | wrWaitcnt | wrIme | line => exact Pic.update_consistent _
  all_goals exact h

/-- Settles O24: a step is an operation, and each effect keeps the output aggregated. -/
theorem everyStepKeepsOutputAggregated : Obligations.EveryStepKeepsOutputAggregated := by
  intro s s' hout h
  obtain ⟨i, inp, h⟩ := step_next h
  exact (exec_effect h).consistent hout

/-- A firing keeps the scan on schedule (rules R177 and R178): the line's number `m` grows where the h-blank phase ends. -/
theorem State.tick_onSchedule {s : State} (h : s.lcd.onSchedule) : s.tick.lcd.onSchedule := by
  obtain ⟨m, hly, hdeadline⟩ := h
  cases hb : s.lcd.hblank
  · refine ⟨m, ?_, ?_⟩
    · rw [State.tick_lcd_draw hb]; exact hly
    · simp [State.tick_lcd_draw hb, hdeadline, hb, linePeriod, Nat.add_assoc]
  · refine ⟨m + 1, ?_, ?_⟩
    · simp [State.tick_lcd_hblank hb, hly]
    · simp [State.tick_lcd_hblank hb, hdeadline, hb, Nat.mul_succ]

/-- A firing keeps the lines in agreement with the scan (rules R174 and R176). -/
theorem State.tick_linesAgree {s : State} (h : s.lcd.linesAgree) : s.tick.lcd.linesAgree := by
  cases hb : s.lcd.hblank
  · rw [State.tick_lcd_draw hb]
    exact ⟨fun _ => rfl, h.2⟩
  · simp [State.tick_lcd_hblank hb, Lcd.linesAgree]

theorem Lcd.reset_scanInv : Lcd.reset.onSchedule ∧ Lcd.reset.linesAgree := ⟨⟨0, by decide⟩, by decide, by decide⟩

/-- The schedule and the lines' agreement are facts about the scan, which the firing and a build alone move. -/
theorem Effect.scanInv {s t : State} {i : Instr} (e : Effect s i t) (h : s.lcd.onSchedule ∧ s.lcd.linesAgree) :
    t.lcd.onSchedule ∧ t.lcd.linesAgree := by
  cases e
  case tick => exact ⟨State.tick_onSchedule h.1, State.tick_linesAgree h.2⟩
  case build ht =>
    obtain ⟨_, _, _, _, _, rfl⟩ := buildSystem_next.mp ht
    exact Lcd.reset_scanInv
  case wrDispstat => rw [writeDispstat_eq]; exact h
  all_goals exact h

/-- Every effect keeps the regions well formed and their stores in canonical form. -/
theorem Effect.regionsWf {s t : State} {i : Instr} (e : Effect s i t) (h : ∀ r ∈ s.regions, r.wf) :
    ∀ r ∈ t.regions, r.wf := by
  cases e
  case store v r hr ho _ => exact set_wf h (Region.writeBytes_wf (h r (List.mem_of_getElem? hr)) ho v)
  case tick => rwa [State.tick_regions]
  case setup hrs _ => exact hrs h
  case build ht =>
    obtain ⟨_, hbuilt, _, _, _, rfl⟩ := buildSystem_next.mp ht
    exact buildRegions_wf hbuilt
  all_goals exact h

theorem mappedRanges_layout (rs : List Region) (w : Wiring) :
    mappedRanges (rs.map Region.layout) w = mappedRanges rs w := by
  rw [mappedRanges, List.flatMap_map]
  rfl

theorem imageRegionsOnly_layout (rs : List Region) : imageRegionsOnly (rs.map Region.layout) = imageRegionsOnly rs := by
  rw [imageRegionsOnly, List.map_map, List.all_map]
  rfl

/-- Well-formedness of the map looks at the wiring and the layout of the regions alone. -/
theorem State.mapWf_congr {s t : State} (hw : t.wiring = s.wiring)
    (hlayout : t.regions.map Region.layout = s.regions.map Region.layout) (h : s.mapWf) : t.mapWf := by
  simp only [State.mapWf, wellFormedMap] at h ⊢
  rw [← mappedRanges_layout t.regions, ← imageRegionsOnly_layout t.regions, hw, hlayout]
  rwa [mappedRanges_layout, imageRegionsOnly_layout]

/-- Every effect keeps the map of a running block well formed. -/
theorem Effect.mapWf {s t : State} {i : Instr} (e : Effect s i t) (h : s.phase = .running → s.mapWf) :
    t.phase = .running → t.mapWf := by
  cases e
  case store o n v r hr _ _ =>
    intro hs
    exact State.mapWf_congr (s := s) rfl (map_set_of_eq hr (r.writeBytes_layout o n v)) (h hs)
  case tick => simpa [State.mapWf] using h
  case setup hb _ _ _ => intro hs; cases hb.symm.trans hs
  case build ht =>
    obtain ⟨_, _, hmap, hlines, himages, rfl⟩ := buildSystem_next.mp ht
    exact fun _ => ⟨hmap, hlines, himages⟩
  all_goals exact h

/-- Settles O57: the step is an operation, and each effect keeps each part of the invariant. -/
theorem everyStepKeepsInvariant : Obligations.EveryStepKeepsInvariant := by
  intro s s' ⟨output, schedule, lines, regions, map⟩ h
  obtain ⟨i, inp, h⟩ := step_next h
  have e := exec_effect h
  obtain ⟨schedule, lines⟩ := e.scanInv ⟨schedule, lines⟩
  exact ⟨e.consistent output, schedule, lines, e.regionsWf regions, e.mapWf map⟩

/-- Settles O56: the reset scan is line 0 of the schedule, and each default region is well formed with an empty store. -/
theorem resetSatisfiesInvariant : Obligations.ResetSatisfiesInvariant := by
  refine ⟨rfl, Lcd.reset_scanInv.1, Lcd.reset_scanInv.2, fun r hr => ?_, fun _ => ⟨by decide, by decide, by decide⟩⟩
  obtain ⟨spec, hspec, rfl⟩ := List.mem_map.mp hr
  have hwf : ∀ x ∈ Config.defaultRegions, wellFormedRegion x.start x.stop x.size x.skip = true := by decide
  exact Region.blank_wf (hwf spec hspec) _

end Sys2Proof.Machine
end

section
/-! ### What operations do not look at

Two states that agree in what an operation looks at are taken to related results: the guards let both through or stop
both, and so does the address decode. For the outputs (rule R15) and for WAITCNT (rule R29) the rest is one fact per
operation. -/

namespace Sys2Proof.Machine

/-- Both results go on, in related states, or both stop for one reason. -/
inductive Related (R : State → State → Prop) : Result → Result → Prop
  | next {t t' : State} (h : R t t') : Related R (.next t) (.next t')
  | fault (e : Fault) : Related R (.fault e) (.fault e)
  | refused (e : Refusal) : Related R (.refused e) (.refused e)

section
variable {R : State → State → Prop} {s s' : State} {k k' : Result}

theorem Related.running (hphase : s'.phase = s.phase) (h : Related R k k') :
    Related R (whenRunning s k) (whenRunning s' k') := by
  rw [whenRunning, whenRunning, hphase]
  split
  · exact h
  · exact .refused _

theorem Related.building (hphase : s'.phase = s.phase) (h : Related R k k') :
    Related R (whenBuilding s k) (whenBuilding s' k') := by
  rw [whenBuilding, whenBuilding, hphase]
  split
  · exact h
  · exact .refused _

theorem Related.inside (size off : Nat) (n : Size) (h : Related R k k') :
    Related R (whenInside size off n k) (whenInside size off n k') := by
  unfold whenInside
  split
  · exact h
  · exact .fault _

theorem Related.stub (hwiring : s'.wiring = s.wiring) (name : StubName) (off : Nat) (n : Size) (h : Related R k k') :
    Related R (whenStub s name off n k) (whenStub s' name off n k') := by
  rw [whenStub, whenStub, stubAdmits, stubAdmits, hwiring]
  split
  · exact h
  · exact .fault _

theorem Related.andThen {α : Type} (o : Host.Outcome α Fault Refusal) {f f' : α → Result}
    (h : ∀ a, Related R (f a) (f' a)) :
    Related R (andThen o f) (andThen o f') := by
  cases o with
  | next a => exact h a
  | fault e => exact .fault e
  | refused e => exact .refused e

end

/-- The recomputation of the PIC by `f` does the same whatever WAITCNT holds, but for what it leaves in WAITCNT. -/
def WaitcntBlind (f : Pic → Pic) : Prop := ∀ p w, ∃ w', f { p with waitcnt := w } = { f p with waitcnt := w' }

/-- `Unseen R`: related states agree in all that an operation other than a read of WAITCNT looks at, and stay related under
every update that an operation makes. -/
structure Unseen (R : State → State → Prop) : Prop where
  phase       : ∀ {s s'}, R s s' → s'.phase = s.phase
  regions     : ∀ {s s'}, R s s' → s'.regions = s.regions
  wiring      : ∀ {s s'}, R s s' → s'.wiring = s.wiring
  lcd         : ∀ {s s'}, R s s' → s'.lcd = s.lcd
  pic         : ∀ {s s'}, R s s' → ∃ w, s'.pic = { s.pic with waitcnt := w }
  answer      : ∀ {s s'}, R s s' → ∀ n v, R (s.answer n v) (s'.answer n v)
  log         : ∀ {s s'}, R s s' → ∀ d, R (s.log d) (s'.log d)
  emit        : ∀ {s s'}, R s s' → ∀ e, R (s.emit e) (s'.emit e)
  withPhase   : ∀ {s s'}, R s s' → ∀ x, R (s.withPhase x) (s'.withPhase x)
  withRegions : ∀ {s s'}, R s s' → ∀ x, R (s.withRegions x) (s'.withRegions x)
  withWiring  : ∀ {s s'}, R s s' → ∀ x, R (s.withWiring x) (s'.withWiring x)
  withLcd     : ∀ {s s'}, R s s' → ∀ x, R (s.withLcd x) (s'.withLcd x)
  withPic     : ∀ {s s'}, R s s' → ∀ {f}, WaitcntBlind f → R (s.withPic (f s.pic)) (s'.withPic (f s'.pic))

theorem waitcntBlind_writeIe (n : Size) (v : Word) : WaitcntBlind fun p => (writeIe n v p).update := by
  intro p w
  cases n <;> exact ⟨w, rfl⟩

section
variable {R : State → State → Prop} (hR : Unseen R) {s s' : State}
include hR

theorem Unseen.flagged (h : R s s') (u : DiagUnit) (dir : Dir) (off : Nat) (n : Size) (w : Nat) :
    R (s.flagOversized u dir off n w) (s'.flagOversized u dir off n w) := by
  rw [State.flagOversized_log, State.flagOversized_log]
  exact hR.log h _

/-! #### The firing -/

theorem Unseen.picLine (h : R s s') (i : Fin 16) (b : Bool) : R (s.picLine i b) (s'.picLine i b) :=
  hR.withPic h (f := fun p => Pic.update { p with level := levelAfterLine p.level i b }) fun _ w => ⟨w, rfl⟩

theorem Unseen.changeLcd (h : R s s') (f : Lcd → Lcd) : R (s.withLcd (f s.lcd)) (s'.withLcd (f s'.lcd)) := by
  rw [hR.lcd h]
  exact hR.withLcd h _

/-- A line driven to a value that the LCD tells. -/
theorem Unseen.lcdDrive (h : R s s') (k : LcdLine) (value : Lcd → Bool) :
    R (s.lcdDrive k (value s.lcd)) (s'.lcdDrive k (value s'.lcd)) := by
  have driven := hR.withLcd h (s.lcd.setLine k (value s.lcd))
  simp only [State.lcdDrive, hR.lcd h, hR.wiring h]
  split
  · exact hR.picLine driven _ _
  · exact driven

theorem Unseen.enterLine (h : R s s') : R s.enterLine s'.enterLine :=
  have next := hR.changeLcd h fun l => { l with ly := (l.ly + 1) % Config.linesPerFrame }
  hR.lcdDrive (hR.lcdDrive next .vb vbValue) .vm vmValue

theorem Unseen.tickLine (h : R s s') : R s.tickLine s'.tickLine := by
  rw [State.tickLine, State.tickLine, hR.lcd h]
  split
  · exact hR.enterLine h
  · exact h

theorem Unseen.tickPhase (h : R s s') : R s.tickPhase s'.tickPhase :=
  hR.lcdDrive (hR.changeLcd h fun l => { l with hblank := !l.hblank }) .hb hbValue

theorem Unseen.tickEmit (h : R s s') : R s.tickEmit s'.tickEmit := by
  rw [State.tickEmit, State.tickEmit, hR.lcd h]
  split
  · exact h
  · split
    · exact hR.emit (hR.emit h _) _
    · exact hR.emit h _

theorem Unseen.tickRearm (h : R s s') : R s.tickRearm s'.tickRearm :=
  hR.changeLcd h fun l =>
    { l with deadline := l.deadline + if l.hblank then Config.hblankTime else Config.drawTime }

theorem Unseen.tick (h : R s s') : R s.tick s'.tick :=
  hR.tickRearm (hR.tickEmit (hR.tickPhase (hR.tickLine h)))

/-! #### Memory -/

theorem Unseen.memoryTarget (h : R s s') (a n : Nat) : memoryTarget s' a n = memoryTarget s a n := by
  have hdec : decodeAddr s' = decodeAddr s := by
    funext a
    rw [decodeAddr, decodeAddr, hR.regions h, hR.wiring h]
  have hadm : admitted s' = admitted s := by
    funext a n
    simp only [admitted, rangeAt, hdec]
  simp only [Machine.memoryTarget, hdec, hadm]

theorem Unseen.memRead (h : R s s') (n : Size) (addr : Addr) : Related R (memRead n addr s) (memRead n addr s') := by
  refine .running (hR.phase h) ?_
  rw [hR.memoryTarget h]
  refine .andThen _ fun t => .next ?_
  rw [backingOf, backingOf, hR.regions h]
  exact hR.answer h n _

theorem Unseen.memWrite (h : R s s') (n : Size) (addr : Addr) (v : Word) :
    Related R (memWrite n addr v s) (memWrite n addr v s') := by
  refine .running (hR.phase h) ?_
  rw [hR.memoryTarget h, hR.regions h]
  exact .andThen _ fun t => .next (hR.withRegions h _)

/-! #### Every operation -/

theorem Unseen.readUnlisted (h : R s s') (u : DiagUnit) (off : Nat) (n : Size) :
    R (readUnlisted s u off n) (readUnlisted s' u off n) :=
  hR.answer (hR.log h (some _)) n 0#32

theorem Unseen.writeUnlisted (h : R s s') (u : DiagUnit) (off : Nat) (n : Size) :
    R (writeUnlisted s u off n) (writeUnlisted s' u off n) :=
  hR.log h (some _)

/-- A build-time operation that works on the list of regions. -/
theorem Unseen.setup (h : R s s') (f : List Region → Host.Outcome (List Region) Fault Refusal) :
    Related R (whenBuilding s (Machine.andThen (f s.regions) fun rs => .next (s.withRegions rs)))
      (whenBuilding s' (Machine.andThen (f s'.regions) fun rs => .next (s'.withRegions rs))) := by
  refine .building (hR.phase h) ?_
  rw [hR.regions h]
  exact .andThen _ fun rs => .next (hR.withRegions h rs)

theorem Unseen.buildSystem (h : R s s') (p : BuildParams) : Related R (buildSystem p s) (buildSystem p s') := by
  rw [Machine.buildSystem, Machine.buildSystem, hR.wiring h]
  refine .andThen _ fun rs => ?_
  dsimp only
  split
  · exact .next (hR.withLcd (hR.withPic (f := fun _ => Pic.reset)
      (hR.withWiring (hR.withRegions (hR.withPhase h .running) rs) _) fun _ _ => ⟨0#15, rfl⟩) Lcd.reset)
  · exact .refused _

/-- The answer to a read of a value that the PIC tells without WAITCNT. -/
theorem Unseen.answerPic (h : R s s') {t t' : State} (ht : R t t') (n : Size) {value : Pic → Word}
    (hvalue : ∀ p w, value { p with waitcnt := w } = value p) :
    R (t.answer n (value s.pic)) (t'.answer n (value s'.pic)) := by
  obtain ⟨w, hpic⟩ := hR.pic h
  have hsame : value s'.pic = value s.pic := by rw [hpic]; exact hvalue s.pic w
  rw [hsame]
  exact hR.answer ht n _

/-- The answer to a read of a value that the LCD tells. -/
theorem Unseen.answerLcd (h : R s s') {t t' : State} (ht : R t t') (n : Size) (value : Lcd → Word) :
    R (t.answer n (value s.lcd)) (t'.answer n (value s'.lcd)) := by
  rw [hR.lcd h]
  exact hR.answer ht n _

/-- A write of the PIC. -/
theorem Unseen.changePic (h : R s s') {f : Pic → Pic} (hf : WaitcntBlind f) :
    Related R (whenRunning s (.next (s.withPic (f s.pic)))) (whenRunning s' (.next (s'.withPic (f s'.pic)))) :=
  .running (hR.phase h) (.next (hR.withPic h hf))

/-- Every operation but a read of WAITCNT takes related states to related results. -/
theorem Unseen.exec (h : R s s') {i : Instr} (hi : ∀ n, i ≠ .picRdWaitcnt n) : Related R (exec i s) (exec i s') := by
  have hphase := hR.phase h
  have hwiring := hR.wiring h
  cases i
  case mrd8 addr => exact hR.memRead h .byte addr
  case mrd16 addr => exact hR.memRead h .half addr
  case mrd32 addr => exact hR.memRead h .word addr
  case mwr8 addr v => exact hR.memWrite h .byte addr _
  case mwr16 addr v => exact hR.memWrite h .half addr _
  case mwr32 addr v => exact hR.memWrite h .word addr v
  case picRdIe n =>
    exact .running hphase (.next (hR.answerPic h h n (value := readIe n) fun _ _ => by cases n <;> rfl))
  case picRdIf n =>
    exact .running hphase (.next
      (hR.answerPic h (hR.flagged h ..) n (value := fun p => widen p.level) fun _ _ => rfl))
  case picRdWaitcnt n => exact absurd rfl (hi n)
  case picRdIme n =>
    exact .running hphase (.next
      (hR.answerPic h h n (value := fun p => if p.master then 0#32 else 1#32) fun _ _ => rfl))
  case picRdUnknown off n => exact .running hphase (.inside _ _ n (.next (hR.readUnlisted h .pic _ n)))
  case picWrIe n v => exact hR.changePic h (waitcntBlind_writeIe n _)
  case picWrIf n v =>
    have hwrite := hR.withPic (hR.flagged h .pic .write 0x02 n 2)
      (f := fun p => (writeIf (busValue n v) p).update) fun _ w => ⟨w, rfl⟩
    simp only [State.flagOversized_pic] at hwrite
    exact .running hphase (.next hwrite)
  case picWrWaitcnt n v => exact hR.changePic h (f := fun p => (writeWaitcnt (busValue n v) p).update) fun _ _ => ⟨_, rfl⟩
  case picWrIme n v => exact hR.changePic h (f := fun p => (writeIme (busValue n v) p).update) fun _ w => ⟨w, rfl⟩
  case picWrUnknown off n v => exact .running hphase (.inside _ _ n (.next (hR.writeUnlisted h .pic _ n)))
  case lcdRdDispcnt n => exact .running hphase (.next (hR.answerLcd h h n fun l => widen (packDispcnt l)))
  case lcdRdDispstat n =>
    exact .running hphase (.next (hR.answerLcd h (hR.flagged h ..) n fun l => widen (packDispstat l)))
  case lcdRdVcount n =>
    exact .running hphase (.next (hR.answerLcd h (hR.flagged h ..) n fun l => BitVec.ofNat 32 l.ly))
  case lcdRdUnknown off n => exact .running hphase (.inside _ _ n (.next (hR.readUnlisted h .lcd _ n)))
  case lcdWrDispcnt n v => exact .running hphase (.next (hR.changeLcd h _))
  case lcdWrDispstat n v =>
    have hwrite := hR.changeLcd (hR.flagged h .lcd .write 0x04 n 2) (writeDispstat n (busValue n v))
    simp only [State.flagOversized_lcd] at hwrite
    exact .running hphase (.next hwrite)
  case lcdWrLyc n v =>
    have hwrite := hR.changeLcd (hR.flagged h .lcd .write 0x05 n 1) fun l => { l with lyc := lowerLyc (busValue n v) }
    simp only [State.flagOversized_lcd] at hwrite
    exact .running hphase (.next hwrite)
  case lcdWrVcount n v => exact .running hphase (.next (hR.flagged h ..))
  case lcdWrUnknown off n v => exact .running hphase (.inside _ _ n (.next (hR.writeUnlisted h .lcd _ n)))
  case stubRd name off n => exact .running hphase (.stub hwiring name off n (.next (hR.readUnlisted h _ off n)))
  case stubWr name off n v => exact .running hphase (.stub hwiring name off n (.next (hR.writeUnlisted h _ off n)))
  case picLine k b => exact .running hphase (.next (hR.picLine h k b))
  case lcdTick => exact .running hphase (.next (hR.tick h))
  case sysCreateRegion name start stop size skip => exact hR.setup h fun rs => createRegion rs _
  case sysLoadImage name image => exact hR.setup h fun rs => loadImage rs name image
  case sysMarkReadonly name => exact hR.setup h fun rs => markReadonly rs name
  case sysBuild p => exact .building hphase (hR.buildSystem h p)

end

/-! #### WAITCNT -/

/-- Two states that differ in WAITCNT at most. -/
def SameButWaitcnt (s s' : State) : Prop := ∃ w, s' = s.withPic { s.pic with waitcnt := w }

theorem sameButWaitcnt_unseen : Unseen SameButWaitcnt where
  phase := by rintro s _ ⟨w, rfl⟩; rfl
  regions := by rintro s _ ⟨w, rfl⟩; rfl
  wiring := by rintro s _ ⟨w, rfl⟩; rfl
  lcd := by rintro s _ ⟨w, rfl⟩; rfl
  pic := by rintro s _ ⟨w, rfl⟩; exact ⟨w, rfl⟩
  answer := by rintro s _ ⟨w, rfl⟩ n v; exact ⟨w, rfl⟩
  log := by rintro s _ ⟨w, rfl⟩ d; exact ⟨w, rfl⟩
  emit := by rintro s _ ⟨w, rfl⟩ e; exact ⟨w, rfl⟩
  withPhase := by rintro s _ ⟨w, rfl⟩ x; exact ⟨w, rfl⟩
  withRegions := by rintro s _ ⟨w, rfl⟩ x; exact ⟨w, rfl⟩
  withWiring := by rintro s _ ⟨w, rfl⟩ x; exact ⟨w, rfl⟩
  withLcd := by rintro s _ ⟨w, rfl⟩ x; exact ⟨w, rfl⟩
  withPic := by
    rintro s _ ⟨w, rfl⟩ f hf
    obtain ⟨w', hw'⟩ := hf s.pic w
    exact ⟨w', congrArg s.withPic hw'⟩

/-- Settles O48: no operation but a read of WAITCNT tells two states apart that differ there alone. -/
theorem waitcntIsOpaque : Obligations.WaitcntIsOpaque := by
  intro i s t w _ hi h
  have hrel := sameButWaitcnt_unseen.exec (s := s) (s' := s.withPic { s.pic with waitcnt := w }) ⟨w, rfl⟩ hi
  rw [h] at hrel
  generalize exec i (s.withPic { s.pic with waitcnt := w }) = r' at hrel ⊢
  cases hrel with
  | next hsame =>
    obtain ⟨w', rfl⟩ := hsame
    exact ⟨w', rfl⟩

/-! #### The outputs -/

/-- The outputs `a` with a read result, where there is one, and with records and events at their ends. -/
def Outputs.extend (a : Outputs) (result : Option Word) (ds : List Diag) (es : List DisplayEvent) : Outputs :=
  { result := result.or a.result, diags := a.diags ++ ds, display := a.display ++ es }

/-- Two states alike but for their outputs, which extend `a` and `b` by the same. -/
def GivesAlike (a b : Outputs) (s s' : State) : Prop :=
  ∃ result ds es, s.out = a.extend result ds es ∧ s' = s.withOut (b.extend result ds es)

theorem givesAlike_unseen (a b : Outputs) : Unseen (GivesAlike a b) where
  phase := by rintro s _ ⟨r, ds, es, hs, rfl⟩; rfl
  regions := by rintro s _ ⟨r, ds, es, hs, rfl⟩; rfl
  wiring := by rintro s _ ⟨r, ds, es, hs, rfl⟩; rfl
  lcd := by rintro s _ ⟨r, ds, es, hs, rfl⟩; rfl
  pic := by rintro s _ ⟨r, ds, es, hs, rfl⟩; exact ⟨s.pic.waitcnt, rfl⟩
  answer := by
    rintro s _ ⟨r, ds, es, hs, rfl⟩ n v
    exact ⟨some (busValue n v), ds, es, by rw [State.answer, hs]; rfl, rfl⟩
  log := by
    rintro s _ ⟨r, ds, es, hs, rfl⟩ d
    exact ⟨r, ds ++ d.toList, es, by simp [State.log, hs, Outputs.extend], by simp [State.log, Outputs.extend]⟩
  emit := by
    rintro s _ ⟨r, ds, es, hs, rfl⟩ e
    exact ⟨r, ds, es ++ [e], by simp [State.emit, hs, Outputs.extend], by simp [State.emit, Outputs.extend]⟩
  withPhase := by rintro s _ ⟨r, ds, es, hs, rfl⟩ x; exact ⟨r, ds, es, hs, rfl⟩
  withRegions := by rintro s _ ⟨r, ds, es, hs, rfl⟩ x; exact ⟨r, ds, es, hs, rfl⟩
  withWiring := by rintro s _ ⟨r, ds, es, hs, rfl⟩ x; exact ⟨r, ds, es, hs, rfl⟩
  withLcd := by rintro s _ ⟨r, ds, es, hs, rfl⟩ x; exact ⟨r, ds, es, hs, rfl⟩
  withPic := by rintro s _ ⟨r, ds, es, hs, rfl⟩ f hf; exact ⟨r, ds, es, hs, rfl⟩

theorem givesAlike_start (s : State) (o : Outputs) : GivesAlike s.out o s (s.withOut o) :=
  ⟨none, [], [], by simp [Outputs.extend], by simp [Outputs.extend]⟩

/-- Every operation gives out the same whatever has been given out. -/
theorem exec_givesAlike (i : Instr) (s : State) (o : Outputs) :
    Related (GivesAlike s.out o) (exec i s) (exec i (s.withOut o)) := by
  have hR := givesAlike_unseen s.out o
  have h := givesAlike_start s o
  by_cases hi : ∃ n, i = .picRdWaitcnt n
  · obtain ⟨n, rfl⟩ := hi
    exact .running rfl (.next (hR.answer h n _))
  · exact hR.exec h (not_exists.mp hi)

/-- Settles O47: the results are related, so that both go on and give out the same, or both stop alike. -/
theorem outputsAreNeverRead : Obligations.OutputsAreNeverRead := by
  intro i s o
  have hrel := exec_givesAlike i s o
  generalize exec i (s.withOut o) = r' at hrel ⊢
  generalize exec i s = r at hrel ⊢
  refine ⟨fun t h => ?next, fun e h => ?fault, fun e h => ?refused⟩
  case next =>
    subst h
    cases hrel
    case next halike =>
    obtain ⟨result, ds, es, hout, rfl⟩ := halike
    refine ⟨_, rfl, rfl, ?_, ds, es, ?_⟩
    · rw [hout]
      cases result with
      | none => exact .inr ⟨rfl, rfl⟩
      | some w => exact .inl ⟨w, rfl, rfl⟩
    · rw [hout]
      exact ⟨rfl, rfl, rfl, rfl⟩
  case fault => subst h; cases hrel; rfl
  case refused => subst h; cases hrel; rfl

end Sys2Proof.Machine
end

section
/-! ### The layout of operations as bytes (30_encoding.md)

One rule per format for bytes that begin with a header of it, and from these the round trip. In the other direction each
reader takes a front part of its bytes and gives values in its operand's range. -/

namespace Sys2Proof

/-! #### The round trip -/

section
variable {key : Nat} (n : Size) (rest : List Byte)

theorem decode_mem (hk : key < 512) : decode (header .mem key 0 ++ rest) = decodeMem key rest :=
  decode_header hk (by decide) rest _ rfl

theorem decode_line (hk : key < 512) : decode (header .line key 0 ++ rest) = decodeLine key rest :=
  decode_header hk (by decide) rest _ rfl

theorem decode_build (hk : key < 512) : decode (header .build key 0 ++ rest) = decodeBuild key rest :=
  decode_header hk (by decide) rest _ rfl

theorem readSize_bind {β : Type} (f : Size → Except DecodeError β) : (readSize n.code >>= f) = f n := by
  rw [readSize_code, except_bind_ok]

theorem decode_pic (hk : key < 512) : decode (header .pic key n.code ++ rest) = decodePic key n rest :=
  (decode_header hk (Nat.lt_succ_of_lt n.code_lt) rest _ rfl).trans (readSize_bind n _)

theorem decode_lcd (hk : key < 512) : decode (header .lcd key n.code ++ rest) = decodeLcd key n rest :=
  (decode_header hk (Nat.lt_succ_of_lt n.code_lt) rest _ rfl).trans (readSize_bind n _)

theorem decode_stub (hk : key < 512) : decode (header .stub key n.code ++ rest) = decodeStub key n rest :=
  (decode_header hk (Nat.lt_succ_of_lt n.code_lt) rest _ rfl).trans (readSize_bind n _)

theorem decode_access (hk : key < 512) : decode (header .access key n.code ++ rest) = decodeAccess key n rest :=
  (decode_header hk (Nat.lt_succ_of_lt n.code_lt) rest _ rfl).trans (readSize_bind n _)

/-- The key of a read of the PIC window is the offset. -/
theorem decode_picRead (off : BitVec 8) :
    decode (header .pic off.toNat n.code ++ rest) = .ok (.op (picReadAt off n), rest) := by
  have hoff := off.isLt
  rw [decode_pic n rest (by omega), decodePic, if_pos hoff, BitVec.ofNat_toNat, BitVec.setWidth_eq]

/-- The key of a write of the PIC window is the offset with bit 8 set. -/
theorem decode_picWrite (off : BitVec 8) {v : Word} (hv : n.fits v = true) :
    decode (header .pic (0x100 + off.toNat) n.code ++ writeValue n v ++ rest) = .ok (.op (picWriteAt off n v), rest) := by
  have hoff := off.isLt
  have hkey : BitVec.ofNat 8 (0x100 + off.toNat) = off := by
    apply BitVec.eq_of_toNat_eq
    rw [BitVec.toNat_ofNat]
    omega
  rw [List.append_assoc, decode_pic n _ (by omega), decodePic, if_neg (by omega), readValue_writeValue hv,
    except_bind_ok, hkey]

/-- The key of a read of the LCD window is the offset. -/
theorem decode_lcdRead {off : BitVec 7} (hoff : lcdInWindow off = true) :
    decode (header .lcd off.toNat n.code ++ rest) = .ok (.op (lcdReadAt off n), rest) := by
  have hin : off.toNat < 0x60 := of_decide_eq_true hoff
  rw [decode_lcd n rest (by omega), decodeLcd, if_neg (by simp only [Config.lcdWindowSize]; omega), if_pos (by omega),
    BitVec.ofNat_toNat, BitVec.setWidth_eq]

/-- The key of a write of the LCD window is the offset with bit 7 set. -/
theorem decode_lcdWrite {off : BitVec 7} (hoff : lcdInWindow off = true) {v : Word} (hv : n.fits v = true) :
    decode (header .lcd (0x80 + off.toNat) n.code ++ writeValue n v ++ rest) = .ok (.op (lcdWriteAt off n v), rest) := by
  have hin : off.toNat < 0x60 := of_decide_eq_true hoff
  have hkey : BitVec.ofNat 7 (0x80 + off.toNat) = off := by
    apply BitVec.eq_of_toNat_eq
    rw [BitVec.toNat_ofNat]
    omega
  rw [List.append_assoc, decode_lcd n _ (by omega), decodeLcd, if_neg (by simp only [Config.lcdWindowSize]; omega),
    if_neg (by omega), readValue_writeValue hv, except_bind_ok, hkey]

/-- The key of a line event is the line and the value (rule R93). -/
theorem decode_picLine (i : Fin 16) (b : Bool) :
    decode (header .line (2 * i.val + if b then 1 else 0) 0 ++ rest) = .ok (.op (.picLine i b), rest) := by
  have hkey : (2 * i.val + if b then 1 else 0) < 32 := by split <;> omega
  have hline : (2 * i.val + if b then 1 else 0) / 2 = i.val := by split <;> omega
  have hvalue : ((2 * i.val + if b then 1 else 0) % 2 == 1) = b := by cases b <;> simp
  rw [decode_line rest (by omega), decodeLine, dif_pos hkey]
  simp only [hline, hvalue]

end

theorem readNat_toNat {w k : Nat} (hw : 2 ^ w = 256 ^ k) (x : BitVec w) (rest : List Byte) :
    readNat k (writeNat k x.toNat ++ rest) = .ok (x.toNat, rest) :=
  readNat_writeNat k _ rest (hw ▸ x.isLt)

/-- Every well-formed operation decodes to itself. -/
theorem decode_encode (i : Instr) (rest : List Byte) (h : i.wellFormed = true) :
    decode (encode i ++ rest) = .ok (.op i, rest) := by
  cases i
  case picRdIe n => exact decode_picRead n rest 0x00#8
  case picRdIf n => exact decode_picRead n rest 0x02#8
  case picRdWaitcnt n => exact decode_picRead n rest 0x04#8
  case picRdIme n => exact decode_picRead n rest 0x08#8
  case picWrIe n v => exact decode_picWrite n rest 0x00#8 h
  case picWrIf n v => exact decode_picWrite n rest 0x02#8 h
  case picWrWaitcnt n v => exact decode_picWrite n rest 0x04#8 h
  case picWrIme n v => exact decode_picWrite n rest 0x08#8 h
  case lcdRdDispcnt n => exact decode_lcdRead n rest (off := 0x00#7) rfl
  case lcdRdDispstat n => exact decode_lcdRead n rest (off := 0x04#7) rfl
  case lcdRdVcount n => exact decode_lcdRead n rest (off := 0x06#7) rfl
  case lcdWrDispcnt n v => exact decode_lcdWrite n rest (off := 0x00#7) rfl h
  case lcdWrDispstat n v => exact decode_lcdWrite n rest (off := 0x04#7) rfl h
  case lcdWrLyc n v => exact decode_lcdWrite n rest (off := 0x05#7) rfl h
  case lcdWrVcount n v => exact decode_lcdWrite n rest (off := 0x06#7) rfl h
  case picLine k b => exact decode_picLine rest k b
  case lcdTick => exact decode_header (f := .tick) (key := 0) (code := 0) (by decide) (by decide) rest _ rfl
  all_goals simp only [Instr.wellFormed, Bool.and_eq_true, Bool.not_eq_true'] at h
  case picRdUnknown off n => exact (decode_picRead n rest off).trans (by rw [picReadAt_unknown h])
  case picWrUnknown off n v => exact (decode_picWrite n rest off h.2).trans (by rw [picWriteAt_unknown h.1])
  case lcdRdUnknown off n => exact (decode_lcdRead n rest h.1).trans (by rw [lcdReadAt_unknown h.2])
  case lcdWrUnknown off n v => exact (decode_lcdWrite n rest h.1.1 h.2).trans (by rw [lcdWriteAt_unknown h.1.2])
  all_goals simp only [encode, List.append_assoc]
  case stubRd name off n =>
    rw [decode_stub n _ (by decide)]
    simp only [decodeStub, readStubName_code h.1, readNat_writeNat _ _ _ (fits32_bound h.2), except_bind_ok]
  case stubWr name off n v =>
    obtain ⟨⟨hname, hoff⟩, hv⟩ := h
    rw [decode_stub n _ (by decide)]
    simp only [decodeStub, readStubName_code hname, readNat_writeNat _ _ _ (fits32_bound hoff), readValue_writeValue hv,
      except_bind_ok]
  case sysCreateRegion name start stop size skip =>
    obtain ⟨⟨⟨⟨hname, hstart⟩, hstop⟩, hsize⟩, hskip⟩ := h
    rw [decode_build _ (by decide)]
    simp only [decodeBuild, readRegionName_code hname, readNat_writeNat _ _ _ (fits64_bound hstart),
      readNat_writeNat _ _ _ (fits64_bound hstop), readNat_writeNat _ _ _ (fits64_bound hsize),
      readNat_writeNat _ _ _ (fits64_bound hskip), except_bind_ok]
  case sysLoadImage name image =>
    rw [decode_build _ (by decide)]
    simp only [decodeBuild, readRegionName_code h.1, readImage_writeImage h.2, except_bind_ok]
  case sysMarkReadonly name =>
    rw [decode_build _ (by decide)]
    simp only [decodeBuild, readRegionName_code h, except_bind_ok]
  case sysBuild p =>
    rw [decode_build _ (by decide)]
    simp only [decodeBuild, readBuildParams_write h, except_bind_ok]
  all_goals
    rw [decode_mem _ (by decide)]
    simp only [decodeMem, readNat_toNat (w := 32) (k := 4) rfl, readNat_toNat (w := 16) (k := 2) rfl,
      readNat_toNat (w := 8) (k := 1) rfl, except_bind_ok, BitVec.ofNat_toNat, BitVec.setWidth_eq]

/-- Every bus access decodes to itself. -/
theorem decode_encodeAccess (a : BusAccess) (rest : List Byte) (h : a.wellFormed = true) :
    decode (encodeAccess a ++ rest) = .ok (.access a, rest) := by
  cases a with
  | read addr n =>
    rw [encodeAccess, List.append_assoc, decode_access n _ (by decide)]
    simp only [decodeAccess, readNat_toNat (w := 32) (k := 4) rfl, except_bind_ok, BitVec.ofNat_toNat, BitVec.setWidth_eq]
  | write addr n v =>
    rw [encodeAccess, List.append_assoc, List.append_assoc, decode_access n _ (by decide)]
    simp only [decodeAccess, readNat_toNat (w := 32) (k := 4) rfl, readValue_writeValue h, except_bind_ok,
      BitVec.ofNat_toNat, BitVec.setWidth_eq]

/-- Settles O49: the header gives back format, key and size, and each operand's reader undoes its writer. -/
theorem decodeEncodeRoundTrip : Obligations.DecodeEncodeRoundTrip := ⟨decode_encode, decode_encodeAccess⟩

/-- Settles O51: each word is, byte for byte, the encoding of its operation. -/
theorem sampleKeysDecode : Obligations.SampleKeysDecode :=
  ⟨decode_encode (.picWrIe .half 0x0004#32) [] rfl, decode_encode (.picRdIf .half) [] rfl,
    decode_encode (.lcdWrDispstat .half 0x0008#32) [] rfl, decode_encode (.picLine 2 true) [] rfl,
    decode_encode .lcdTick [] rfl, decode_encode (.mrd32 0x00001010#32) [] rfl⟩

/-! #### What bytes decode to -/

/-- `Yields m bs P`: where the reader `m` of `bs` succeeds, its value has property `P` and what it leaves is a back part of
`bs`. -/
def Yields {α : Type} (m : Except DecodeError (α × List Byte)) (bs : List Byte) (P : α → Prop) : Prop :=
  ∀ x rest, m = .ok (x, rest) → P x ∧ rest <:+ bs

section
variable {α β : Type} {bs : List Byte} {P : α → Prop} {Q : β → Prop}

theorem Yields.ok {x : α} {rest : List Byte} (hx : P x) (hrest : rest <:+ bs) : Yields (.ok (x, rest)) bs P := by
  intro _ _ h
  cases h
  exact ⟨hx, hrest⟩

theorem Yields.done {x : α} (hx : P x) : Yields (.ok (x, bs)) bs P := .ok hx (List.suffix_refl bs)

theorem Yields.error (e : DecodeError) : Yields (.error e) bs P := by
  intro _ _ h
  cases h

/-- A reader and then, on what it leaves, another. -/
theorem Yields.bind {m : Except DecodeError (α × List Byte)} {f : α × List Byte → Except DecodeError (β × List Byte)}
    (hm : Yields m bs P) (hf : ∀ x rest, P x → Yields (f (x, rest)) rest Q) : Yields (m >>= f) bs Q := by
  intro y rest h
  cases m with
  | error e => cases h
  | ok r =>
    obtain ⟨x, mid⟩ := r
    obtain ⟨hx, hmid⟩ := hm x mid rfl
    obtain ⟨hy, hrest⟩ := hf x mid hx y rest h
    exact ⟨hy, hrest.trans hmid⟩

/-- A check that reads no bytes, and then a reader. -/
theorem Yields.check {γ : Type} {c : Except DecodeError γ} {f : γ → Except DecodeError (β × List Byte)}
    (hf : ∀ x, Yields (f x) bs Q) : Yields (c >>= f) bs Q := by
  cases c with
  | error e => exact .error e
  | ok x => exact hf x

end

theorem readNat_yields : ∀ (k : Nat) (bs : List Byte), Yields (readNat k bs) bs (· < 256 ^ k)
  | 0, bs => .done (by decide)
  | _ + 1, [] => .error _
  | k + 1, b :: bs => by
    have hb := b.isLt
    have hread : Yields (readNat (k + 1) (b :: bs)) bs (· < 256 ^ (k + 1)) :=
      (readNat_yields k bs).bind fun w _ hw => .done (by rw [Nat.pow_succ]; omega)
    exact fun v rest h => (hread v rest h).imp_right (·.trans (List.suffix_cons b bs))

/-- Reading a number takes its bytes. -/
theorem readNat_length : ∀ {k : Nat} {bs rest : List Byte} {v : Nat}, readNat k bs = .ok (v, rest) →
    bs.length = k + rest.length
  | 0, bs, rest, v, h => by cases h; simp
  | k + 1, [], rest, v, h => by cases h
  | k + 1, b :: bs, rest, v, h => by
    simp only [readNat] at h
    cases hm : readNat k bs with
    | error e => rw [hm] at h; cases h
    | ok r =>
      rw [hm] at h
      cases h
      have := readNat_length hm
      simp only [List.length_cons]
      omega

theorem readValue_yields (n : Size) (bs : List Byte) : Yields (readValue n bs) bs (fun v => n.fits v = true) := by
  refine (readNat_yields n.bytes bs).bind fun v _ hv => .done (decide_eq_true ?_)
  rw [BitVec.toNat_ofNat, Nat.pow_mul]
  exact lt_of_le_of_lt (Nat.mod_le _ _) hv

theorem readFlag_yields (bs : List Byte) : Yields (readFlag bs) bs (fun _ => True) := by
  refine (readNat_yields 1 bs).bind fun v rest _ => ?_
  dsimp only
  split
  · exact .done trivial
  · exact .done trivial
  · exact .error _

theorem readLine_yields (bs : List Byte) : Yields (readLine bs) bs (fun _ => True) := by
  refine (readNat_yields 1 bs).bind fun v rest _ => ?_
  dsimp only
  split
  · exact .done trivial
  · exact .error _

theorem fits32_of_lt {k : Nat} (h : k < 256 ^ 4) : fits32 k = true := by simpa [fits32] using h

theorem fits64_of_lt {k : Nat} (h : k < 256 ^ 8) : fits64 k = true := by simpa [fits64] using h

theorem readNat4_yields (bs : List Byte) : Yields (readNat 4 bs) bs (fun v => fits32 v = true) :=
  fun v rest h => (readNat_yields 4 bs v rest h).imp_left fits32_of_lt

theorem readNat8_yields (bs : List Byte) : Yields (readNat 8 bs) bs (fun v => fits64 v = true) :=
  fun v rest h => (readNat_yields 8 bs v rest h).imp_left fits64_of_lt

theorem RegionName.ofCode_fits {k : Nat} (h : fits32 k = true) : (RegionName.ofCode k).fits = true := by
  unfold RegionName.ofCode
  split
  case h_9 => exact h
  all_goals rfl

theorem StubName.ofCode_fits {k : Nat} (h : fits32 k = true) : (StubName.ofCode k).fits = true := by
  unfold StubName.ofCode
  split
  case h_7 => exact h
  all_goals rfl

theorem readRegionName_yields (bs : List Byte) : Yields (readRegionName bs) bs (fun x => x.fits = true) :=
  (readNat4_yields bs).bind fun _ _ hv => .done (RegionName.ofCode_fits hv)

theorem readStubName_yields (bs : List Byte) : Yields (readStubName bs) bs (fun x => x.fits = true) :=
  (readNat4_yields bs).bind fun _ _ hv => .done (StubName.ofCode_fits hv)

theorem readImage_yields (bs : List Byte) : Yields (readImage bs) bs (fun x => imageFits x = true) := by
  refine (readFlag_yields bs).bind fun missing rest _ => ?_
  dsimp only
  split
  · exact .done rfl
  · refine (readNat4_yields rest).bind fun len rest hlen => ?_
    dsimp only
    split
    · next hle => exact .ok (by rwa [imageFits, List.length_take, Nat.min_eq_left hle]) (List.drop_suffix len rest)
    · exact .error _

theorem readRegionSpec_yields (bs : List Byte) : Yields (readRegionSpec bs) bs (fun r => r.fits = true) := by
  refine (readRegionName_yields bs).bind fun name rest hname => ?_
  refine (readNat8_yields rest).bind fun start rest hstart => ?_
  refine (readNat8_yields rest).bind fun stop rest hstop => ?_
  refine (readNat8_yields rest).bind fun size rest hsize => ?_
  refine (readNat8_yields rest).bind fun skip rest hskip => ?_
  refine (readFlag_yields rest).bind fun readonly _ _ => .done ?_
  simp [RegionSpec.fits, hname, hstart, hstop, hsize, hskip]

theorem readStubWindow_yields (bs : List Byte) : Yields (readStubWindow bs) bs (fun w => w.fits = true) := by
  refine (readStubName_yields bs).bind fun name rest hname => ?_
  refine (readNat8_yields rest).bind fun base rest hbase => ?_
  refine (readNat8_yields rest).bind fun size _ hsize => .done ?_
  simp [StubWindow.fits, hname, hbase, hsize]

theorem readMany_yields {α : Type} {read : List Byte → Except DecodeError (α × List Byte)} {P : α → Prop}
    (hread : ∀ bs, Yields (read bs) bs P) : ∀ (k : Nat) (bs : List Byte),
      Yields (readMany read k bs) bs (fun xs => xs.length = k ∧ ∀ x ∈ xs, P x)
  | 0, bs => .done ⟨rfl, by simp⟩
  | k + 1, bs => by
    refine (hread bs).bind fun x rest hx => ?_
    refine (readMany_yields hread k rest).bind fun xs _ ⟨hlen, hxs⟩ => .done ⟨by simp [hlen], ?_⟩
    exact List.forall_mem_cons.mpr ⟨hx, hxs⟩

theorem defaultParams_fits : Config.defaultParams.fits = true := by decide

theorem readBuildParams_yields (bs : List Byte) : Yields (readBuildParams bs) bs (fun p => p.fits = true) := by
  refine (readFlag_yields bs).bind fun given rest _ => ?_
  dsimp only
  split
  · refine (readNat4_yields rest).bind fun nRegions rest hnRegions => ?_
    refine (readMany_yields readRegionSpec_yields nRegions rest).bind fun regions rest ⟨hlen, hregions⟩ => ?_
    refine (readNat8_yields rest).bind fun picBase rest hpic => ?_
    refine (readNat8_yields rest).bind fun lcdBase rest hlcd => ?_
    refine (readNat4_yields rest).bind fun nStubs rest hnStubs => ?_
    refine (readMany_yields readStubWindow_yields nStubs rest).bind fun stubs rest ⟨hlen', hstubs⟩ => ?_
    refine (readLine_yields rest).bind fun vb rest _ => ?_
    refine (readLine_yields rest).bind fun hb rest _ => ?_
    refine (readLine_yields rest).bind fun vm rest _ => ?_
    refine (readImage_yields rest).bind fun bios rest hbios => ?_
    refine (readImage_yields rest).bind fun rom _ hrom => .done ?_
    simp only [BuildParams.fits, hlen, hlen', hnRegions, hnStubs, hpic, hlcd, hbios, hrom, List.all_eq_true.mpr hregions,
      List.all_eq_true.mpr hstubs, Bool.and_self]
  · exact .done defaultParams_fits

/-- What the decoder reads is an operation or a bus access of the block. -/
def Fetched.wellFormed : Fetched → Prop
  | .op i => i.wellFormed = true
  | .access a => a.wellFormed = true

theorem decodeMem_yields (key : Nat) (bs : List Byte) : Yields (decodeMem key bs) bs Fetched.wellFormed := by
  refine (readNat4_yields bs).bind fun a rest _ => ?_
  dsimp only
  split
  case h_4 => exact (readNat_yields _ rest).bind fun v _ _ => .done rfl
  case h_5 => exact (readNat_yields _ rest).bind fun v _ _ => .done rfl
  case h_6 => exact (readNat_yields _ rest).bind fun v _ _ => .done rfl
  case h_7 => exact .error _
  all_goals exact .done rfl

theorem picReadAt_wellFormed (off : BitVec 8) (n : Size) : (picReadAt off n).wellFormed = true := by
  cases h : picListed off with
  | false => rw [picReadAt_unknown h]; simp [Instr.wellFormed, h]
  | true =>
    simp only [picListed, Bool.or_eq_true, beq_iff_eq] at h
    obtain ((rfl | rfl) | rfl) | rfl := h <;> rfl

theorem picWriteAt_wellFormed (off : BitVec 8) {n : Size} {v : Word} (hv : n.fits v = true) :
    (picWriteAt off n v).wellFormed = true := by
  cases h : picListed off with
  | false => rw [picWriteAt_unknown h]; simp [Instr.wellFormed, h, hv]
  | true =>
    simp only [picListed, Bool.or_eq_true, beq_iff_eq] at h
    obtain ((rfl | rfl) | rfl) | rfl := h <;> exact hv

theorem lcdReadAt_wellFormed {off : BitVec 7} (hoff : lcdInWindow off = true) (n : Size) :
    (lcdReadAt off n).wellFormed = true := by
  cases h : lcdReadListed off with
  | false => rw [lcdReadAt_unknown h]; simp [Instr.wellFormed, h, hoff]
  | true =>
    simp only [lcdReadListed, Bool.or_eq_true, beq_iff_eq] at h
    obtain (rfl | rfl) | rfl := h <;> rfl

theorem lcdWriteAt_wellFormed {off : BitVec 7} (hoff : lcdInWindow off = true) {n : Size} {v : Word}
    (hv : n.fits v = true) : (lcdWriteAt off n v).wellFormed = true := by
  cases h : lcdWriteListed off with
  | false => rw [lcdWriteAt_unknown h]; simp [Instr.wellFormed, h, hoff, hv]
  | true =>
    simp only [lcdWriteListed, Bool.or_eq_true, beq_iff_eq] at h
    obtain ((rfl | rfl) | rfl) | rfl := h <;> exact hv

theorem decodePic_yields (key : Nat) (n : Size) (bs : List Byte) : Yields (decodePic key n bs) bs Fetched.wellFormed := by
  unfold decodePic
  split
  · exact .done (picReadAt_wellFormed _ n)
  · exact (readValue_yields n bs).bind fun v _ hv => .done (picWriteAt_wellFormed _ hv)

theorem decodeLcd_yields (key : Nat) (n : Size) (bs : List Byte) : Yields (decodeLcd key n bs) bs Fetched.wellFormed := by
  unfold decodeLcd
  split
  · exact .error _
  · next hkey =>
    have hoff : lcdInWindow (BitVec.ofNat 7 key) = true := by
      rw [lcdInWindow, BitVec.toNat_ofNat, decide_eq_true_eq]
      omega
    split
    · exact .done (lcdReadAt_wellFormed hoff n)
    · exact (readValue_yields n bs).bind fun v _ hv => .done (lcdWriteAt_wellFormed hoff hv)

theorem decodeStub_yields (key : Nat) (n : Size) (bs : List Byte) : Yields (decodeStub key n bs) bs Fetched.wellFormed := by
  refine (readStubName_yields bs).bind fun name rest hname => ?_
  refine (readNat4_yields rest).bind fun off rest hoff => ?_
  dsimp only
  split
  · exact .done (by simp [Fetched.wellFormed, Instr.wellFormed, hname, hoff])
  · refine (readValue_yields n rest).bind fun v _ hv => .done ?_
    simp [Fetched.wellFormed, Instr.wellFormed, hname, hoff, hv]
  · exact .error _

theorem decodeLine_yields (key : Nat) (bs : List Byte) : Yields (decodeLine key bs) bs Fetched.wellFormed := by
  unfold decodeLine
  split
  · exact .done rfl
  · exact .error _

theorem decodeTick_yields (key : Nat) (bs : List Byte) : Yields (decodeTick key bs) bs Fetched.wellFormed := by
  unfold decodeTick
  split
  · exact .done rfl
  · exact .error _

theorem decodeBuild_yields (key : Nat) (bs : List Byte) : Yields (decodeBuild key bs) bs Fetched.wellFormed := by
  unfold decodeBuild
  split
  · refine (readRegionName_yields bs).bind fun name rest hname => ?_
    refine (readNat8_yields rest).bind fun start rest hstart => ?_
    refine (readNat8_yields rest).bind fun stop rest hstop => ?_
    refine (readNat8_yields rest).bind fun size rest hsize => ?_
    refine (readNat8_yields rest).bind fun skip _ hskip => .done ?_
    simp [Fetched.wellFormed, Instr.wellFormed, hname, hstart, hstop, hsize, hskip]
  · refine (readRegionName_yields bs).bind fun name rest hname => ?_
    refine (readImage_yields rest).bind fun image _ himage => .done ?_
    simp [Fetched.wellFormed, Instr.wellFormed, hname, himage]
  · exact (readRegionName_yields bs).bind fun name _ hname => .done hname
  · exact (readBuildParams_yields bs).bind fun p _ hp => .done hp
  · exact .error _

theorem decodeAccess_yields (key : Nat) (n : Size) (bs : List Byte) :
    Yields (decodeAccess key n bs) bs Fetched.wellFormed := by
  refine (readNat4_yields bs).bind fun a rest _ => ?_
  dsimp only
  split
  · exact .done rfl
  · exact (readValue_yields n rest).bind fun v _ hv => .done hv
  · exact .error _

/-- After the header, each format's decoder yields what is well formed. -/
theorem decode_yields {bs operands : List Byte} {v : Nat} (h : readNat 2 bs = .ok (v, operands)) :
    Yields (decode bs) operands Fetched.wellFormed := by
  unfold decode
  rw [h, except_bind_ok]
  dsimp only
  split
  · exact .error _
  split
  · exact .check fun _ => decodeMem_yields _ _
  · exact .check fun _ => decodePic_yields _ _ _
  · exact .check fun _ => decodeLcd_yields _ _ _
  · exact .check fun _ => decodeStub_yields _ _ _
  · exact .check fun _ => decodeLine_yields _ _
  · exact .check fun _ => decodeTick_yields _ _
  · exact .check fun _ => decodeBuild_yields _ _
  · exact .check fun _ => decodeAccess_yields _ _ _
  · exact .error _

/-- What bytes decode to is well formed, and the header's bytes are taken at least. -/
theorem decode_taken {bs rest : List Byte} {x : Fetched} (h : decode bs = .ok (x, rest)) :
    x.wellFormed ∧ ∃ used, used ≠ [] ∧ bs = used ++ rest := by
  cases hheader : readNat 2 bs with
  | error e => rw [decode, hheader] at h; cases h
  | ok r =>
    obtain ⟨v, operands⟩ := r
    have hlen := readNat_length hheader
    obtain ⟨_, header, hbs⟩ := readNat_yields 2 bs v operands hheader
    obtain ⟨hwf, used, hused⟩ := decode_yields hheader x rest h
    refine ⟨hwf, header ++ used, fun hnil => ?_, by rw [List.append_assoc, hused, hbs]⟩
    rw [← hbs, (List.append_eq_nil_iff.mp hnil).1, List.nil_append] at hlen
    omega

/-- Settles O50: every reader yields a value in its operand's range, and the header's two bytes are taken. -/
theorem decodeGivesWellFormed : Obligations.DecodeGivesWellFormed :=
  fun _ _ => ⟨fun _ => decode_taken, fun _ => decode_taken⟩

end Sys2Proof
end

section
/-! ### Building the system (41_mirror_engine.md section 1, 44_system_composition.md section 1) -/

namespace Sys2Proof.Machine

/-! #### Phases and single build-time operations -/

/-- Settles O8: every operation is guarded by its phase. -/
theorem phasesExcludeEachOther : Obligations.PhasesExcludeEachOther := by
  refine ⟨fun i s hi hs => ?_, fun i s hi hs => ?_⟩
  · cases i
    case sysCreateRegion => exact whenBuilding_running hs
    case sysLoadImage => exact whenBuilding_running hs
    case sysMarkReadonly => exact whenBuilding_running hs
    case sysBuild => exact whenBuilding_running hs
    all_goals cases hi
  · cases i
    case sysCreateRegion => cases hi
    case sysLoadImage => cases hi
    case sysMarkReadonly => cases hi
    case sysBuild => cases hi
    all_goals exact whenRunning_building hs

/-- The conditions of rule R121 over the integers, where a difference may be negative. -/
theorem wellFormedRegion_iff_int {start stop size skip : Nat} : wellFormedRegion start stop size skip = true ↔
    (0 : Int) < skip ∧ (size : Int) ≤ stop - start ∧ (0 : Int) < size ∧ (stop : Int) ≤ 2 ^ 32 ∧
      ((stop : Int) > start + size → (start : Int) + size ≤ stop - skip ∧ (stop : Int) - skip + size ≤ 2 ^ 32) := by
  rw [wellFormedRegion_iff]
  omega

theorem createRegion_refused {rs : List Region} {r : RegionSpec}
    (h : ¬ wellFormedRegion r.start r.stop r.size r.skip = true) : createRegion rs r = .refused .illFormedRegion := if_neg h

/-- Settles O5: the guard of the creation is the conjunction of the five conditions. -/
theorem createRegionAppendsOrRefuses : Obligations.CreateRegionAppendsOrRefuses := by
  intro name start stop size skip s hs
  rw [← wellFormedRegion_iff_int]
  refine ⟨fun hwf => exec_sysCreateRegion.mpr ⟨hs, _, createRegion_next.mpr ⟨hwf, rfl⟩, rfl⟩, fun hwf => ?_⟩
  rw [exec, execSysCreateRegion, whenBuilding_building hs, createRegion_refused hwf, andThen]

theorem loadImage_absent {rs : List Region} {name : RegionName} (h : name ∈ rs.map Region.name) :
    loadImage rs name none = .fault (.startupFailure name) := by
  obtain ⟨r, hr, hname⟩ := List.mem_map.mp h
  cases hfirst : regionNamed name rs with
  | none => exact absurd hname (regionNamed_none.mp hfirst r hr)
  | some i => simp [loadImage, hfirst]

/-- An image that fits every region of the name is loaded, and the regions keep their names. -/
theorem loadImage_fitting {rs : List Region} {name : RegionName} {bytes : List Byte} (h : name ∈ rs.map Region.name)
    (hfit : ∀ r ∈ rs, r.name = name → bytes.length ≤ r.size) :
    ∃ rs', loadImage rs name (some bytes) = .next rs' ∧ rs'.map Region.name = rs.map Region.name := by
  obtain ⟨x, hx, hname⟩ := List.mem_map.mp h
  cases hfirst : regionNamed name rs with
  | none => exact absurd hname (regionNamed_none.mp hfirst x hx)
  | some i =>
    obtain ⟨⟨r, hr, hname⟩, _⟩ := regionNamed_some.mp hfirst
    exact ⟨_, loadImage_next.mpr ⟨i, r, bytes, hfirst, hr, rfl, hfit r (List.mem_of_getElem? hr) hname, rfl⟩,
      map_set_of_eq hr rfl⟩

theorem loadImage_tooLong {rs : List Region} {name : RegionName} {i : Nat} {r : Region} {bytes : List Byte}
    (hfirst : regionNamed name rs = some i) (hr : rs[i]? = some r) (hlong : r.size < bytes.length) :
    loadImage rs name (some bytes) = .refused .imageTooLong := by
  simp [loadImage, hfirst, hr, Nat.not_le.mpr hlong]

/-- A store with a byte string placed at its start. -/
theorem Memory.read_place_start {m : Memory} (h : m.wf = true) (bytes : List Byte) (o : Nat) :
    (m.place 0 bytes).read o = if o < bytes.length then bytes[o]?.getD 0#8 else m.read o := by
  rw [Memory.read_place bytes m 0 h o]
  simp [unlistedByte]

/-- Settles O6: the label's first region takes the image at the start of its store. -/
theorem loadImageFillsRegion : Obligations.LoadImageFillsRegion := by
  intro name i r s hs hr hname hfirst hwf
  have hnamed : regionNamed name s.regions = some i := regionNamed_some.mpr ⟨⟨r, hr, hname⟩, hfirst⟩
  refine ⟨fun bytes hfit => ?fits, fun bytes hlong => ?tooLong, ?absent⟩
  case fits =>
    exact ⟨r.backing.place 0 bytes,
      exec_sysLoadImage.mpr ⟨hs, _, loadImage_next.mpr ⟨i, r, bytes, hnamed, hr, rfl, hfit, rfl⟩, rfl⟩,
      Memory.place_wf _ _ _ hwf, Memory.read_place_start hwf bytes⟩
  case tooLong =>
    rw [exec, execSysLoadImage, whenBuilding_building hs, loadImage_tooLong hnamed hr hlong, andThen]
  case absent =>
    have hmem : name ∈ s.regions.map Region.name := List.mem_map.mpr ⟨r, List.mem_of_getElem? hr, hname⟩
    rw [exec, execSysLoadImage, whenBuilding_building hs, loadImage_absent hmem, andThen]

/-- Settles O7: the label's first region is marked. -/
theorem markReadonlySetsAttribute : Obligations.MarkReadonlySetsAttribute := by
  intro name i r s hs hr hname hfirst
  have hnamed : regionNamed name s.regions = some i := regionNamed_some.mpr ⟨⟨r, hr, hname⟩, hfirst⟩
  exact exec_sysMarkReadonly.mpr ⟨hs, _, markReadonly_next.mpr ⟨i, r, hnamed, hr, rfl⟩, rfl⟩

/-! #### The whole build -/

@[simp] theorem Region.blank_name (spec : RegionSpec) (b : Bool) : (Region.blank spec b).name = spec.name := rfl
@[simp] theorem Region.blank_size (spec : RegionSpec) (b : Bool) : (Region.blank spec b).size = spec.size := rfl
@[simp] theorem Region.blank_readonly (spec : RegionSpec) (b : Bool) : (Region.blank spec b).readonly = b := rfl

/-- What loading an image under a label that one region bears leaves of a region. -/
def Region.loaded (name : RegionName) (bytes : List Byte) (r : Region) : Region :=
  if r.name = name then { r with backing := r.backing.place 0 bytes } else r

@[simp] theorem Region.loaded_name (name : RegionName) (bytes : List Byte) (r : Region) :
    (r.loaded name bytes).name = r.name := by
  unfold Region.loaded
  split <;> rfl

@[simp] theorem Region.loaded_size (name : RegionName) (bytes : List Byte) (r : Region) :
    (r.loaded name bytes).size = r.size := by
  unfold Region.loaded
  split <;> rfl

theorem Region.loaded_layout (name : RegionName) (bytes : List Byte) (r : Region) :
    (r.loaded name bytes).layout = r.layout := by
  unfold Region.loaded
  split <;> rfl

theorem Region.loaded_of_ne {name : RegionName} {r : Region} (h : r.name ≠ name) (bytes : List Byte) :
    r.loaded name bytes = r := if_neg h

/-- Where one region alone bears the label, changing the label's first region is changing every region that bears it. -/
theorem updateRegion_named (name : RegionName) (bytes : List Byte) : ∀ {rs : List Region},
    (rs.map Region.name).count name = 1 → ∃ i, regionNamed name rs = some i ∧
      updateRegion (fun r => { r with backing := r.backing.place 0 bytes }) i rs = rs.map (Region.loaded name bytes)
  | [], h => by simp at h
  | r :: rs, h => by
    rw [List.map_cons, List.count_cons] at h
    by_cases hname : r.name = name
    · have hrest : name ∉ rs.map Region.name := List.count_eq_zero.mp (by simpa [hname] using h)
      have hsame : rs.map (Region.loaded name bytes) = rs.map id :=
        List.map_congr_left fun x hx => Region.loaded_of_ne (fun e => hrest (List.mem_map.mpr ⟨x, hx, e⟩)) bytes
      refine ⟨0, by simp [regionNamed, hname], ?_⟩
      rw [List.map_cons, hsame, List.map_id, Region.loaded, if_pos hname, updateRegion]
    · obtain ⟨i, hi, hset⟩ := updateRegion_named name bytes (rs := rs) (by simpa [hname] using h)
      exact ⟨i + 1, by simp [regionNamed, hname, hi], by simp [updateRegion, hset, Region.loaded, hname]⟩

/-- Loading an image that fits, under a label that one region bears. -/
theorem loadImage_unique {rs : List Region} {name : RegionName} {bytes : List Byte}
    (hone : (rs.map Region.name).count name = 1) (hfit : ∀ r ∈ rs, r.name = name → bytes.length ≤ r.size) :
    loadImage rs name (some bytes) = .next (rs.map (Region.loaded name bytes)) := by
  obtain ⟨i, hi, hset⟩ := updateRegion_named name bytes hone
  obtain ⟨⟨r, hr, hname⟩, _⟩ := regionNamed_some.mp hi
  simp [loadImage, hi, hr, hfit r (List.mem_of_getElem? hr) hname, hset]

/-- The region that a build makes of an entry. -/
def builtRegion (bios rom : List Byte) (spec : RegionSpec) : Region :=
  { ((Region.blank spec false).loaded .bios bios).loaded .rom rom with readonly := spec.readonly }

theorem markAll_map {f : RegionSpec → Region} : ∀ {specs : List RegionSpec}, (∀ x ∈ specs, (f x).readonly = false) →
    markAll specs (specs.map f) = specs.map fun x => { f x with readonly := x.readonly }
  | [], _ => rfl
  | x :: specs, h => by
    obtain ⟨hx, hrest⟩ := List.forall_mem_cons.mp h
    rw [List.map_cons, markAll, markAll_map hrest, List.map_cons]
    cases hro : x.readonly
    · simp [← hx]
    · simp

theorem Region.loaded_readonly (name : RegionName) (bytes : List Byte) (r : Region) :
    (r.loaded name bytes).readonly = r.readonly := by
  unfold Region.loaded
  split <;> rfl

/-- The regions of a build whose images are present and fit. -/
theorem buildRegions_eq {p : BuildParams} {bios rom : List Byte} (hbios : p.biosImage = some bios)
    (hrom : p.romImage = some rom) (hwf : ∀ r ∈ p.regions, wellFormedRegion r.start r.stop r.size r.skip = true)
    (hfit : ∀ r ∈ p.regions, (r.name = .bios → bios.length ≤ r.size) ∧ (r.name = .rom → rom.length ≤ r.size))
    (honeBios : (p.regions.map RegionSpec.name).count .bios = 1)
    (honeRom : (p.regions.map RegionSpec.name).count .rom = 1) :
    buildRegions p = .next (p.regions.map (builtRegion bios rom)) := by
  have hcreate : createRegions [] p.regions = .next (p.regions.map fun r => Region.blank r false) :=
    createRegions_next.mpr ⟨hwf, rfl⟩
  have hloadBios : loadImage (p.regions.map fun r => Region.blank r false) .bios (some bios) =
      .next (p.regions.map fun r => (Region.blank r false).loaded .bios bios) := by
    rw [loadImage_unique (by rwa [List.map_map]) (by simpa using fun r hr => (hfit r hr).1), List.map_map]
    rfl
  have hloadRom : loadImage (p.regions.map fun r => (Region.blank r false).loaded .bios bios) .rom (some rom) =
      .next (p.regions.map fun r => ((Region.blank r false).loaded .bios bios).loaded .rom rom) := by
    rw [loadImage_unique (by simpa [Function.comp_def] using honeRom) (by simpa using fun r hr => (hfit r hr).2),
      List.map_map]
    rfl
  rw [buildRegions, hcreate, andThen, hbios, hloadBios, andThen, hrom, hloadRom, andThen,
    markAll_map fun r _ => by simp [Region.loaded_readonly]]
  rfl

theorem builtRegion_layout (bios rom : List Byte) (spec : RegionSpec) :
    (builtRegion bios rom spec).layout = Region.blank spec spec.readonly := by
  have h : (((Region.blank spec false).loaded .bios bios).loaded .rom rom).layout = (Region.blank spec false).layout := by
    rw [Region.loaded_layout, Region.loaded_layout]
  exact congrArg (fun r : Region => { r with readonly := spec.readonly }) h

/-- The store of a built region is its image and then zeros. -/
theorem builtRegion_backing (bios rom : List Byte) (spec : RegionSpec) : (builtRegion bios rom spec).backing =
    Memory.place [] 0 (if spec.name = .bios then bios else if spec.name = .rom then rom else []) := by
  by_cases hbios : spec.name = .bios
  · simp [builtRegion, Region.loaded, Region.blank, hbios]
  · by_cases hrom : spec.name = .rom
    · simp [builtRegion, Region.loaded, Region.blank, hrom]
    · simp [builtRegion, Region.loaded, Region.blank, hbios, hrom, Memory.place]

theorem Memory.read_place_empty (bytes : List Byte) (o : Nat) : (Memory.place [] 0 bytes).read o = bytes[o]?.getD 0#8 := by
  rw [Memory.read_place_start rfl]
  split
  · rfl
  · next h => rw [List.getElem?_eq_none (Nat.le_of_not_lt h)]; rfl

theorem map_builtRegion_layout (bios rom : List Byte) (specs : List RegionSpec) :
    (specs.map (builtRegion bios rom)).map Region.layout = specs.map fun r => Region.blank r r.readonly := by
  rw [List.map_map]
  exact List.map_congr_left fun spec _ => builtRegion_layout bios rom spec

/-- The read-only mark is no part of a map. -/
theorem mappedRanges_blank (specs : List RegionSpec) (w : Wiring) :
    mappedRanges (specs.map fun r => Region.blank r r.readonly) w =
      mappedRanges (specs.map fun r => Region.blank r false) w := by
  simp only [mappedRanges, List.flatMap_map]
  rfl

theorem imageRegionsOnly_blank {specs : List RegionSpec} (hbios : (specs.map RegionSpec.name).count .bios = 1)
    (hrom : (specs.map RegionSpec.name).count .rom = 1)
    (hro : ∀ r ∈ specs, r.readonly = true ↔ r.name = .bios ∨ r.name = .rom) :
    imageRegionsOnly (specs.map fun r => Region.blank r r.readonly) = true := by
  have hnames : (specs.map fun r => Region.blank r r.readonly).map Region.name = specs.map RegionSpec.name := by
    rw [List.map_map]
    rfl
  simp only [imageRegionsOnly, hnames, hbios, hrom, beq_self_eq_true, Bool.true_and, List.all_map, List.all_eq_true]
  intro r hr
  rw [Function.comp_apply, beq_iff_eq, Bool.eq_iff_iff]
  simpa using hro r hr

/-- Settles O3: the regions made of the entries keep their layouts, so that the map passes the build's checks. -/
theorem buildReachesResetState : Obligations.BuildReachesResetState := by
  intro p bios rom s hs hbios hrom hwf hfit hro honeBios honeRom hmap hvbhb hvbvm hhbvm
  have hregions := buildRegions_eq hbios hrom hwf hfit honeBios honeRom
  have hlayout := map_builtRegion_layout bios rom p.regions
  refine ⟨p.regions.map (builtRegion bios rom), ?_, hlayout, fun i r hr => ?_⟩
  · refine exec_sysBuild.mpr ⟨hs, buildSystem_next.mpr ⟨_, hregions, ?_, ?_, ?_, rfl⟩⟩
    · rw [wellFormedMap, ← mappedRanges_layout, hlayout, mappedRanges_blank]
      exact hmap
    · simp [Wiring.linesDistinct, Wiring.ofParams, hvbhb, hvbvm, hhbvm]
    · rw [← imageRegionsOnly_layout, hlayout, imageRegionsOnly_blank honeBios honeRom hro]
  · rw [List.getElem?_map, Option.map_eq_some_iff] at hr
    obtain ⟨spec, _, rfl⟩ := hr
    have hname : (builtRegion bios rom spec).name = spec.name := by simp [builtRegion]
    rw [builtRegion_backing, hname]
    refine ⟨Memory.place_wf _ _ _ rfl, fun o => ?_⟩
    rw [Memory.read_place_empty]
    split
    · rfl
    split <;> rfl

/-- Settles O4: the images are loaded in order, and each region named in an entry is there when its image is due. -/
theorem buildWithoutImageFails : Obligations.BuildWithoutImageFails := by
  intro p s hs hwf hexBios hexRom
  have hcreate : createRegions [] p.regions = .next (p.regions.map fun r => Region.blank r false) :=
    createRegions_next.mpr ⟨hwf, rfl⟩
  have hnames : (p.regions.map fun r => Region.blank r false).map Region.name = p.regions.map RegionSpec.name := by
    rw [List.map_map]
    rfl
  rw [← List.mem_map, ← hnames] at hexBios hexRom
  have hfault : ∀ {name : RegionName}, buildRegions p = .fault (.startupFailure name) →
      exec (.sysBuild p) s = .fault (.startupFailure name) := fun h => by
    rw [exec, execSysBuild, whenBuilding_building hs, buildSystem, h, andThen]
  refine ⟨fun hbios => hfault ?_, fun bios hbios hfit hrom => hfault ?_⟩
  · rw [buildRegions, hcreate, andThen, hbios, loadImage_absent hexBios, andThen]
  · obtain ⟨rs, hload, hsame⟩ := loadImage_fitting hexBios (by simpa using hfit)
    rw [buildRegions, hcreate, andThen, hbios, hload, andThen, hrom, loadImage_absent (hsame ▸ hexRom), andThen]

/-- Settles O1: the operations compute on the reset state. -/
theorem resetRegisterReads : Obligations.ResetRegisterReads := ⟨rfl, rfl, rfl, rfl, rfl, rfl, rfl, rfl⟩

/-- Settles O2: the build computes on the default parameters. -/
theorem defaultBuildGivesReset : Obligations.DefaultBuildGivesReset := rfl

end Sys2Proof.Machine
end

section
/-! ### Memory through both ranges of a region (20_memory.md, 41_mirror_engine.md sections 2 and 3)

An access inside either range of a region goes to that region at its offset, so that each width's rule is a fact about the
backing store. -/

namespace Sys2Proof.Machine

/-! #### The map -/

/-- Settles O9: of two different entries of a well-formed map, one ends before the other begins. -/
theorem wellFormedMapIsUnambiguous : Obligations.WellFormedMapIsUnambiguous := by
  intro rs w hmap a i j x y hx hy hxa hya
  simp only [wellFormedMap, Bool.and_eq_true, pairwiseApart_iff] at hmap
  have hapart := List.pairwise_iff_getElem.mp hmap.2
  obtain ⟨hi, rfl⟩ := List.getElem?_eq_some_iff.mp hx
  obtain ⟨hj, rfl⟩ := List.getElem?_eq_some_iff.mp hy
  simp only [apart, Bool.or_eq_true, decide_eq_true_eq] at hapart
  obtain hij | hij | hij := Nat.lt_trichotomy i j
  · have := hapart i j hi hj hij
    omega
  · exact hij
  · have := hapart j i hj hi hij
    omega

/-! #### One access -/

section
variable {s : State} {i : Nat} {r : Region} {base o : Nat} {n : Size}

/-- In a well-formed map, an access at an offset of either range of a region goes to that region at that offset. -/
theorem target_either (hmap : wellFormedMap s.regions s.wiring = true) (hr : s.regions[i]? = some r)
    (hbase : base = r.start ∨ r.start + r.size < r.stop ∧ base = r.stop - r.skip) (ho : o + n.bytes ≤ r.size) :
    memoryTarget s (BitVec.ofNat 32 (base + o)).toNat n.bytes = .next (i, o) := by
  rw [address_either hmap hr hbase (Size.bytes_pos n) ho, memoryTarget_either hmap hr hbase (Size.bytes_pos n) ho]

theorem memRead_either (hs : s.phase = .running) (hmap : wellFormedMap s.regions s.wiring = true)
    (hr : s.regions[i]? = some r) (hbase : base = r.start ∨ r.start + r.size < r.stop ∧ base = r.stop - r.skip)
    (ho : o + n.bytes ≤ r.size) :
    memRead n (BitVec.ofNat 32 (base + o)) s = .next (s.answer n (r.backing.load o n.bytes)) :=
  memRead_eq hs (target_either hmap hr hbase ho) hr

theorem memWrite_either (hs : s.phase = .running) (hmap : wellFormedMap s.regions s.wiring = true)
    (hr : s.regions[i]? = some r) (hbase : base = r.start ∨ r.start + r.size < r.stop ∧ base = r.stop - r.skip)
    (ho : o + n.bytes ≤ r.size) (v : Word) :
    memWrite n (BitVec.ofNat 32 (base + o)) v s = .next (s.withRegions (s.regions.set i (r.writeBytes o v n))) :=
  memWrite_eq hs (target_either hmap hr hbase ho) hr

end

theorem Region.writeBytes_writable {r : Region} (h : r.readonly = false) (o : Nat) (v : Word) (n : Size) :
    r.writeBytes o v n = { r with backing := r.backing.store o v n.bytes } := by
  simp [Region.writeBytes, h]

/-- What a stored number leaves at each offset (rules R66 and R67). -/
theorem Memory.read_store_digits {m : Memory} (h : m.wf = true) (o : Nat) (v : Word) (k a : Nat) :
    (m.store o v k).read a =
      if o ≤ a ∧ a < o + k then BitVec.ofNat 8 (v.toNat / 256 ^ (a - o)) else m.read a := by
  rw [Memory.read_store h o v a k, byteOf_eq]

/-! #### Reads -/

/-- Settles O11: the bytes of each width fit the access, so that the bus carries the whole load. -/
theorem memoryReadGivesBackingBytes : Obligations.MemoryReadGivesBackingBytes := by
  intro s i r base o hs hmap hr hbase
  have hbyte : ∀ k, (r.backing.read k).toNat < 256 := fun k => (r.backing.read k).isLt
  have h0 := hbyte o
  have h1 := hbyte (o + 1)
  have h2 := hbyte (o + 2)
  have h3 := hbyte (o + 3)
  refine ⟨fun ho => (memRead_either (n := .byte) hs hmap hr hbase ho).trans ?_,
    fun ho => (memRead_either (n := .half) hs hmap hr hbase ho).trans ?_,
    fun ho => (memRead_either (n := .word) hs hmap hr hbase ho).trans ?_⟩
  · rw [State.answer, Size.bytes, Memory.load_byte, busValue_ofNat h0]
  · rw [State.answer, Size.bytes, Memory.load_half, busValue_ofNat (by simp only [Size.bytes]; omega)]
  · rw [State.answer, Size.bytes, Memory.load_word, busValue_ofNat (by simp only [Size.bytes]; omega)]

/-! #### Writes -/

/-- Settles O12: the region is set to one with the stored bytes at the offset. -/
theorem memoryWriteStoresBytes : Obligations.MemoryWriteStoresBytes := by
  intro s i r base o hs hmap hr hwritable hwf hbase
  refine ⟨fun v ho => ⟨r.backing.store o (v.setWidth 32) 1, ?_, Memory.store_wf hwf _ _ _, fun a => ?_⟩,
    fun v ho => ⟨r.backing.store o (v.setWidth 32) 2, ?_, Memory.store_wf hwf _ _ _, fun a => ?_⟩,
    fun v ho => ⟨r.backing.store o v 4, ?_, Memory.store_wf hwf _ _ _, Memory.read_store_digits hwf o v 4⟩⟩
  · exact Region.writeBytes_writable hwritable o _ .byte ▸ memWrite_either (n := .byte) hs hmap hr hbase ho _
  · rw [Memory.read_store_digits hwf]
    by_cases ha : a = o
    · rw [ha, if_pos (by omega), if_pos rfl, Nat.sub_self, Nat.pow_zero, Nat.div_one,
        BitVec.toNat_setWidth_of_le (by decide), BitVec.ofNat_toNat, BitVec.setWidth_eq]
    · rw [if_neg (by omega), if_neg ha]
  · exact Region.writeBytes_writable hwritable o _ .half ▸ memWrite_either (n := .half) hs hmap hr hbase ho _
  · rw [Memory.read_store_digits hwf, BitVec.toNat_setWidth_of_le (by decide)]
  · exact Region.writeBytes_writable hwritable o v .word ▸ memWrite_either (n := .word) hs hmap hr hbase ho v

theorem memWrite_readonly {s : State} {i : Nat} {r : Region} {base o : Nat} {n : Size} (hs : s.phase = .running)
    (hmap : wellFormedMap s.regions s.wiring = true) (hr : s.regions[i]? = some r) (hro : r.readonly = true)
    (hbase : base = r.start ∨ r.start + r.size < r.stop ∧ base = r.stop - r.skip) (ho : o + n.bytes ≤ r.size) (v : Word) :
    memWrite n (BitVec.ofNat 32 (base + o)) v s = .next s := by
  obtain ⟨hi, rfl⟩ := List.getElem?_eq_some_iff.mp hr
  rw [memWrite_either hs hmap hr hbase ho, Region.writeBytes_readonly hro, List.set_getElem_self, State.withRegions_self]

/-- Settles O13: what the write leaves of a read-only region is the region. -/
theorem readOnlyWriteIsDropped : Obligations.ReadOnlyWriteIsDropped := by
  intro s i r base o hs hmap hr hro hbase
  exact ⟨fun v ho => memWrite_readonly (n := .byte) hs hmap hr hro hbase ho _,
    fun v ho => memWrite_readonly (n := .half) hs hmap hr hro hbase ho _,
    fun v ho => memWrite_readonly (n := .word) hs hmap hr hro hbase ho v⟩

/-! #### Accesses that no range holds -/

/-- A memory access that no one mapped range holds whole is `Unmapped` (rule R65). -/
theorem mem_unmapped {s : State} {n : Size} {addr : Addr} (hs : s.phase = .running)
    (h : ∀ x ∈ mappedRanges s.regions s.wiring, ¬ (x.1 ≤ addr.toNat ∧ addr.toNat + n.bytes ≤ x.2)) :
    memRead n addr s = .fault .unmapped ∧ ∀ v, memWrite n addr v s = .fault .unmapped := by
  have htarget : memoryTarget s addr.toNat n.bytes = .fault .unmapped := by
    simp [memoryTarget, not_admitted (Size.bytes_pos n) h]
  exact ⟨by rw [memRead, whenRunning_running hs, htarget, andThen],
    fun v => by rw [memWrite, whenRunning_running hs, htarget, andThen]⟩

/-- Settles O14: at each width, what no range holds whole is not admitted. -/
theorem accessOutsideEveryRangeIsUnmapped : Obligations.AccessOutsideEveryRangeIsUnmapped := by
  intro s addr hs
  exact ⟨fun h => (mem_unmapped (n := .byte) hs h).imp_right fun hw v => hw _,
    fun h => (mem_unmapped (n := .half) hs h).imp_right fun hw v => hw _,
    fun h => mem_unmapped (n := .word) hs h⟩

/-! #### Coherence of the two ranges -/

/-- An access is told by its target. -/
theorem mem_congr {s : State} {n : Size} {a b : Addr}
    (h : memoryTarget s a.toNat n.bytes = memoryTarget s b.toNat n.bytes) :
    memRead n a s = memRead n b s ∧ ∀ v, memWrite n a v s = memWrite n b v s :=
  ⟨by rw [memRead, memRead, h], fun v => by rw [memWrite, memWrite, h]⟩

/-- Both ranges of a region give one target. -/
theorem mem_coherent {s : State} {i : Nat} {r : Region} (hmap : wellFormedMap s.regions s.wiring = true)
    (hr : s.regions[i]? = some r) (hal : r.start + r.size < r.stop) {o : Nat} {n : Size} (ho : o + n.bytes ≤ r.size) :
    memRead n (BitVec.ofNat 32 (r.stop - r.skip + o)) s = memRead n (BitVec.ofNat 32 (r.start + o)) s ∧
    ∀ v, memWrite n (BitVec.ofNat 32 (r.stop - r.skip + o)) v s = memWrite n (BitVec.ofNat 32 (r.start + o)) v s :=
  mem_congr ((target_either hmap hr (.inr ⟨hal, rfl⟩) ho).trans (target_either hmap hr (.inl rfl) ho).symm)

/-- An address that decodes into the primary range of a region lies below the range's end, and one decodes into the second
range only where the region has one. -/
theorem decodeAddr_region {s : State} {a i : Nat} {r : Region} {x : Target} (hr : s.regions[i]? = some r)
    (hx : decodeAddr s a = some x) :
    (x.range = .primary i → a < r.start + r.size) ∧ (x.range = .mirror i → r.start + r.size < r.stop) := by
  obtain ⟨y, hy, rfl, _, hhi⟩ := decodeAddr_mem hx
  constructor <;> intro hrange <;>
    obtain ⟨k, r', hk, rfl⟩ | ⟨k, r', hk, hal, rfl⟩ | rfl | rfl | ⟨k, v, hk, rfl⟩ := labelled_cases hy <;>
    cases hrange <;> cases hr.symm.trans hk
  · exact hhi
  · exact of_decide_eq_true hal

/-- Settles O15: both ranges give one target, and a region without a second range has no address past its first. -/
theorem aliasCoherence : Obligations.AliasCoherence := by
  intro s i r hmap hr
  refine ⟨fun hal o => ⟨fun ho => ?byte, fun ho => ?half, fun ho => ?word⟩,
    fun hend x hx => ⟨fun hp => ?primary, fun hm => ?mirror⟩, fun hend a x hx hm => ?none⟩
  case byte => exact (mem_coherent (n := .byte) hmap hr hal ho).imp_right fun hw v => hw _
  case half => exact (mem_coherent (n := .half) hmap hr hal ho).imp_right fun hw v => hw _
  case word => exact mem_coherent (n := .word) hmap hr hal ho
  case primary => have := (decodeAddr_region hr hx).1 hp; omega
  case mirror => have := (decodeAddr_region hr hx).2 hm; omega
  case none => have := (decodeAddr_region hr hx).2 hm; omega

/-- A stored word is loaded back, and its two middle bytes one offset further (rule R68). -/
theorem Memory.load_store {m : Memory} (h : m.wf = true) (o : Nat) (v : Word) :
    (m.store o v 4).load o 4 = v ∧ (m.store o v 4).load (o + 1) 2 = v >>> 8 &&& 0xFFFF#32 := by
  have hv := v.isLt
  have hread : ∀ k, k < 4 → ((m.store o v 4).read (o + k)).toNat = v.toNat / 256 ^ k % 256 := fun k hk => by
    rw [Memory.read_store_digits h, if_pos (by omega), Nat.add_sub_cancel_left, BitVec.toNat_ofNat]
  have h0 := hread 0 (by decide)
  have h1 := hread 1 (by decide)
  have h2 := hread 2 (by decide)
  have h3 := hread 3 (by decide)
  simp only [Nat.add_zero, Nat.reducePow] at h0 h1 h2 h3
  constructor
  · apply BitVec.eq_of_toNat_eq
    rw [Memory.load_word, h0, h1, h2, h3, BitVec.toNat_ofNat]
    omega
  · apply BitVec.eq_of_toNat_eq
    have hmask : v.toNat >>> 8 &&& 65535 = v.toNat / 2 ^ 8 % 2 ^ 16 := by
      rw [Nat.shiftRight_eq_div_pow]
      exact Nat.and_two_pow_sub_one_eq_mod _ 16
    rw [Memory.load_half, Nat.add_assoc o 1 1, h1, h2, BitVec.toNat_ofNat, BitVec.toNat_and, BitVec.toNat_ushiftRight]
    simp only [BitVec.toNat_ofNat, Nat.reducePow, Nat.reduceMod, hmask]
    omega

/-- A map looks at the layout of the regions alone. -/
theorem wellFormedMap_set {rs : List Region} {w : Wiring} {i : Nat} {r x : Region} (hr : rs[i]? = some r)
    (hx : x.layout = r.layout) : wellFormedMap (rs.set i x) w = wellFormedMap rs w := by
  rw [wellFormedMap, wellFormedMap, ← mappedRanges_layout, map_set_of_eq hr hx, mappedRanges_layout]

theorem readBack_of_answer {i : Instr} {s t : State} {n : Size} {v : Word} (h : exec i s = .next (t.answer n v)) :
    readBack i s = some (busValue n v) := by
  rw [readBack, h]
  rfl

/-- Settles O16: the write leaves the map, so that either range leads to the store that holds the word. -/
theorem writtenWordReadsBack : Obligations.WrittenWordReadsBack := by
  intro s t i r o base base' v hs hmap hr hwritable hwf ho hbase hbase' h
  have hwrite := (memWrite_either (n := .word) hs hmap hr hbase ho v).symm.trans h
  rw [Region.writeBytes_writable hwritable] at hwrite
  have ht := Host.Outcome.next.inj hwrite
  have hs' : t.phase = .running := by rw [← ht]; exact hs
  have hmap' : wellFormedMap t.regions t.wiring = true := by rw [← ht]; exact (wellFormedMap_set hr (by rfl)).trans hmap
  have hr' : t.regions[i]? = some { r with backing := r.backing.store o v 4 } := by
    rw [← ht]
    exact List.getElem?_set_self (List.getElem?_eq_some_iff.mp hr).1
  have ho' : o + 1 + Size.half.bytes ≤ r.size := by simp only [Size.bytes]; omega
  obtain ⟨hword, hmiddle⟩ := Memory.load_store hwf o v
  constructor
  · refine (readBack_of_answer (i := .mrd32 _) (memRead_either (n := .word) hs' hmap' hr' hbase' ho)).trans ?_
    rw [Size.bytes, hword, busValue]
  · refine (readBack_of_answer (i := .mrd16 _) (memRead_either (n := .half) hs' hmap' hr' hbase' ho')).trans ?_
    rw [Size.bytes, hmiddle, busValue, BitVec.and_assoc, BitVec.and_self]

end Sys2Proof.Machine
end

section
/-! ### The firing of the LCD timer (43_display_controller.md section 1)

The whole state after a firing of each kind, and what any number of whole lines with no other event comes to. -/

namespace Sys2Proof.Machine

/-! #### One firing -/

theorem State.eq_of_parts {s t : State} (hphase : s.phase = t.phase) (hregions : s.regions = t.regions)
    (hwiring : s.wiring = t.wiring) (hpic : s.pic = t.pic) (hlcd : s.lcd = t.lcd) (hout : s.out = t.out)
    (hinput : s.input = t.input) : s = t := by
  cases s
  cases t
  simp_all

/-- A firing changes the pending bits of the PIC and, with them, its output (rule R156). -/
theorem State.tick_pic {s : State} (h : s.pic.consistent) : s.tick.pic = { s.pic with
    level := s.tick.pic.level, irqOut := aggregate s.pic.master s.tick.pic.level s.pic.irqEnabled } := by
  have hout : s.tick.pic.irqOut = _ := State.tick_consistent h
  rw [State.tick_master, State.tick_irqEnabled] at hout
  show s.tick.pic = ⟨s.pic.master, s.tick.pic.level, s.pic.irqEnabled, s.pic.waitcnt, _⟩
  rw [← hout, ← State.tick_master s, ← State.tick_irqEnabled s, ← State.tick_waitcnt s]

section
variable {s : State}

/-- The pending bits after a firing that ends a draw phase. -/
theorem State.tick_level_draw (h : s.lcd.hblank = false) : s.tick.pic.level =
    driven s.wiring.edgeFilter s.lcd.lineHb s.lcd.irqHbEn s.wiring.hbLine s.pic.level := by
  simp [State.tick, State.tickEmit_eq, State.tickLine_draw h, h]

/-- The pending bits after a firing that ends an h-blank phase: the three drives in their order. -/
theorem State.tick_level_hblank (h : s.lcd.hblank = true) : s.tick.pic.level =
    driven s.wiring.edgeFilter s.lcd.lineHb false s.wiring.hbLine
      (driven s.wiring.edgeFilter s.lcd.lineVm
        (s.lcd.irqVmEn && (s.lcd.ly + 1) % Config.linesPerFrame == s.lcd.lyc.toNat) s.wiring.vmLine
        (driven s.wiring.edgeFilter s.lcd.lineVb
          (s.lcd.irqVbEn && decide (Config.visibleLines ≤ (s.lcd.ly + 1) % Config.linesPerFrame)) s.wiring.vbLine
          s.pic.level)) := by
  simp [State.tick, State.tickEmit_eq, State.tickLine_hblank h, h]

end

/-- Settles O26: the firing drives the H-blank line alone and re-arms by the length of the h-blank phase. -/
theorem tickEntersHblank : Obligations.TickEntersHblank := by
  intro s hs hdraw hout
  refine exec_lcdTick.mpr ⟨hs, Eq.symm ?_⟩
  refine State.eq_of_parts s.tick_phase s.tick_regions s.tick_wiring ?_ (State.tick_lcd_draw hdraw)
    (State.tick_out_draw hdraw) s.tick_input
  rw [State.tick_pic hout, State.tick_level_draw hdraw]
  rfl

/-- Settles O27: the firing enters the next line, drives the three lines and re-arms by the length of the draw phase. -/
theorem tickEntersNextLine : Obligations.TickEntersNextLine := by
  intro s hs hblank hout
  refine exec_lcdTick.mpr ⟨hs, Eq.symm ?_⟩
  refine State.eq_of_parts s.tick_phase s.tick_regions s.tick_wiring ?_ (State.tick_lcd_hblank hblank)
    (State.tick_out_hblank hblank) s.tick_input
  rw [State.tick_pic hout, State.tick_level_hblank hblank]
  rfl

/-- Settles O28: with the filter off each drive sets the bit of its own input, and the three inputs are distinct. -/
theorem lineEntryDrivesThreePendingBits : Obligations.LineEntryDrivesThreePendingBits := by
  intro s t hblank hfilter hdistinct h
  obtain ⟨_, rfl⟩ := exec_lcdTick.mp h
  simp only [Wiring.linesDistinct, Bool.and_eq_true, bne_iff_ne] at hdistinct
  obtain ⟨⟨hvbhb, hvbvm⟩, hhbvm⟩ := hdistinct
  rw [State.tick_level_hblank hblank, hfilter]
  refine ⟨?_, ?_, ?_, fun j hvb hvm hhb => ?_⟩
  · rw [driven_getLsbD, if_neg hvbhb, driven_getLsbD, if_neg hvbvm, driven_getLsbD, if_pos rfl]
    rfl
  · rw [driven_getLsbD, if_neg hhbvm.symm, driven_getLsbD, if_pos rfl]
    rfl
  · rw [driven_getLsbD, if_pos rfl]
  · rw [driven_getLsbD, if_neg hhb, driven_getLsbD, if_neg hvm, driven_getLsbD, if_neg hvb]

/-! #### Whole lines -/

/-- The two firings of a line: the end of its draw phase, and the end of its h-blank phase. -/
def State.wholeLine (s : State) : State := s.tick.tick

/-- The LCD after a whole line (rules R171 to R174). -/
theorem State.wholeLine_lcd {s : State} (h : s.lcd.hblank = false) : s.wholeLine.lcd = { s.lcd with
    ly := (s.lcd.ly + 1) % 228
    lineVb := s.lcd.irqVbEn && decide (160 ≤ (s.lcd.ly + 1) % 228)
    lineVm := s.lcd.irqVmEn && (s.lcd.ly + 1) % 228 == s.lcd.lyc.toNat
    lineHb := false, deadline := s.lcd.deadline + 73433 } := by
  have hdraw := State.tick_lcd_draw h
  rw [State.wholeLine, State.tick_lcd_hblank (by rw [hdraw]), hdraw]
  simp only [h, Nat.add_assoc]
  rfl

theorem State.wholeLine_display {s : State} (h : s.lcd.hblank = false) :
    s.wholeLine.out.display = s.out.display ++ lineEvents ((s.lcd.ly + 1) % 228) := by
  have hdraw := State.tick_lcd_draw h
  rw [State.wholeLine, State.tick_out_hblank (by rw [hdraw]), State.tick_out_draw h, hdraw]
  rfl

/-- What `k` whole lines from a draw phase come to. -/
structure AfterLines (s : State) (k : Nat) (t : State) : Prop where
  phase    : t.phase = s.phase
  input    : t.input = s.input
  hblank   : t.lcd.hblank = false
  ly       : t.lcd.ly = (s.lcd.ly + k) % 228
  deadline : t.lcd.deadline = s.lcd.deadline + 73433 * k
  display  : t.out.display = s.out.display ++ (List.range k).flatMap fun j => lineEvents ((s.lcd.ly + j + 1) % 228)
  irqVbEn  : t.lcd.irqVbEn = s.lcd.irqVbEn
  irqVmEn  : t.lcd.irqVmEn = s.lcd.irqVmEn
  lyc      : t.lcd.lyc = s.lcd.lyc

theorem AfterLines.wholeLine {s t : State} {k : Nat} (h : AfterLines s k t) : AfterLines s (k + 1) t.wholeLine := by
  have hlcd := State.wholeLine_lcd h.hblank
  have hnext : (t.lcd.ly + 1) % 228 = (s.lcd.ly + k + 1) % 228 := by rw [h.ly, Nat.mod_add_mod]
  exact {
    phase := by rw [State.wholeLine, State.tick_phase, State.tick_phase, h.phase]
    input := by rw [State.wholeLine, State.tick_input, State.tick_input, h.input]
    hblank := by rw [hlcd]; exact h.hblank
    ly := by rw [hlcd]; exact hnext
    deadline := by rw [hlcd]; simp only [h.deadline, Nat.mul_succ, Nat.add_assoc]
    display := by
      rw [State.wholeLine_display h.hblank, h.display, hnext, List.range_succ, List.flatMap_append, List.append_assoc]
      simp
    irqVbEn := by rw [hlcd]; exact h.irqVbEn
    irqVmEn := by rw [hlcd]; exact h.irqVmEn
    lyc := by rw [hlcd]; exact h.lyc }

theorem afterLines_iterate {s : State} (hdraw : s.lcd.hblank = false) (hly : s.lcd.ly < 228) :
    ∀ k, AfterLines s k (State.wholeLine^[k] s)
  | 0 => {
    phase := rfl, input := rfl, hblank := hdraw, ly := (Nat.mod_eq_of_lt hly).symm, deadline := rfl
    display := by simp, irqVbEn := rfl, irqVmEn := rfl, lyc := rfl }
  | k + 1 => by
    rw [Function.iterate_succ_apply']
    exact (afterLines_iterate hdraw hly k).wholeLine

/-- With no event pending, every step is a firing (log entry 4). -/
theorem step_idle {s : State} (hs : s.phase = .running) (hinput : s.input = []) : step s = .next s.tick := by
  rw [step, hinput, nextEvent]
  exact exec_lcdTick.mpr ⟨hs, rfl⟩

theorem run_succ {s t : State} (h : step s = .next t) (k : Nat) :
    Host.Core.run Sys2Proof.core (k + 1) s = Host.Core.run Sys2Proof.core k t := by
  simp only [Host.Core.run]
  split
  · next h' => cases h.symm.trans h'; rfl
  · next h' => cases h.symm.trans h'
  · next h' => cases h.symm.trans h'

theorem run_idle : ∀ (k : Nat) (s : State), s.phase = .running → s.input = [] →
    Host.Core.run Sys2Proof.core k s = .next (State.tick^[k] s)
  | 0, _, _, _ => rfl
  | k + 1, s, hs, hinput => by
    rw [run_succ (step_idle hs hinput), Function.iterate_succ_apply]
    exact run_idle k s.tick (s.tick_phase.trans hs) (s.tick_input.trans hinput)

theorem run_wholeLines {s : State} (hs : s.phase = .running) (hinput : s.input = []) (k : Nat) :
    Host.Core.run Sys2Proof.core (2 * k) s = .next (State.wholeLine^[k] s) := by
  rw [run_idle _ s hs hinput, Function.iterate_mul]
  rfl

/-- Settles O29: each pair of firings is a whole line, and the lines add up. -/
theorem runOfLinesFollowsSchedule : Obligations.RunOfLinesFollowsSchedule := by
  intro k s hs hinput hdraw hly
  have h := afterLines_iterate hdraw hly k
  exact ⟨_, run_wholeLines hs hinput k, h.phase.trans hs, h.input.trans hinput, h.hblank, h.ly, h.deadline, h.display⟩

/-- Settles O30: the last of the lines drives each output line to what the line just entered says. -/
theorem linesFollowTheScan : Obligations.LinesFollowTheScan := by
  intro k s hs hinput hdraw hly
  have h := afterLines_iterate hdraw hly k
  refine ⟨_, run_wholeLines hs hinput (k + 1), ?_⟩
  rw [Function.iterate_succ_apply', State.wholeLine_lcd h.hblank, h.ly, Nat.mod_add_mod, h.irqVbEn, h.irqVmEn, h.lyc]
  simp

end Sys2Proof.Machine
end

section
/-! ### Register writes of the display controller and the bus (30_encoding.md, 44_system_composition.md section 2) -/

namespace Sys2Proof.Machine

/-! #### Registers -/

/-- Settles O36: the write sets each display-mode field from its bit, and the read packs each into the same bit. -/
theorem dispcntReadsBackWrite : Obligations.DispcntReadsBackWrite := by
  intro v s t hfits h
  have hs := (exec_lcdWrDispcnt.mp h).1
  obtain ⟨w, hread, hbits⟩ := dispcntReadPacksFields .half t (exec_running_map hs h).1
  have ht := Host.Outcome.next.inj ((dispcntWriteSetsFields .half v s hs hfits).symm.trans h)
  rw [readBack, hread]
  refine congrArg some (BitVec.eq_of_getLsbD_eq fun j hj => ?_)
  show w.getLsbD j = _
  rw [hbits, ← ht]
  interval_cases j <;> simp [Size.bytes]

theorem flagOversized_one (s : State) (u : DiagUnit) (dir : Dir) (off : Nat) (n : Size) :
    s.flagOversized u dir off n 1 = s.withOut { s.out with
      diags := s.out.diags ++ if n = .byte then [] else [.oversizedAccess u dir off n] } := by
  rw [State.flagOversized_eq]
  cases n <;> rfl

theorem lowerLyc_eq_setWidth (v : Word) : lowerLyc v = v.setWidth 8 :=
  (BitVec.setWidth_eq_extractLsb' (by decide)).symm

/-- Settles O38: the low byte of the value is the new `lyc`, and each access is flagged when wider than its register. -/
theorem lycAndVcountWrites : Obligations.LycAndVcountWrites := by
  intro n v s hs hfits
  refine ⟨exec_lcdWrLyc.mpr ⟨hs, ?_⟩, exec_lcdWrVcount.mpr ⟨hs, ?_⟩⟩
  · rw [busValue_of_fits hfits, lowerLyc_eq_setWidth, flagOversized_one]
    rfl
  · rw [flagOversized_two]

/-! #### Accesses that leave their window -/

theorem inside_past {s : State} (hs : s.phase = .running) {size off : Nat} {n : Size} (h : size < off + n.bytes)
    (k : Result) :
    whenRunning s (whenInside size off n k) = .fault .unmapped :=
  (whenRunning_running hs).trans (if_neg (Nat.not_le.mpr h))

theorem stub_past {s : State} (hs : s.phase = .running) {name : StubName} {off : Nat} {n : Size}
    (h : ∀ w ∈ s.wiring.stubs, w.name = name → w.size < off + n.bytes) (k : Result) :
    whenRunning s (whenStub s name off n k) = .fault .unmapped := by
  refine (whenRunning_running hs).trans (if_neg fun hadmits => ?_)
  obtain ⟨w, hw, hname, hfits⟩ := stubAdmits_iff.mp hadmits
  exact Nat.not_le.mpr (h w hw hname) hfits

/-- Settles O42: the window's guard fails. -/
theorem accessPastWindowEndIsUnmapped : Obligations.AccessPastWindowEndIsUnmapped := by
  intro n v s hs
  exact ⟨fun off h => ⟨inside_past hs h _, inside_past hs h _⟩, fun off h => ⟨inside_past hs h _, inside_past hs h _⟩,
    fun name off h => ⟨stub_past hs h _, stub_past hs h _⟩⟩

/-! #### Steps -/

/-- Settles O52: what stands first in the input is the next event. -/
theorem stepRunsTheNextEvent : Obligations.StepRunsTheNextEvent := by
  intro s
  refine ⟨fun i rest hne h => ?_, fun e hne h => ?_, fun hempty => ?_⟩
  · rw [step, nextEvent_op hne h]
  · rw [step, nextEvent_broken hne h]
  · rw [step, hempty, nextEvent]

section
variable {s : State} {addr : Addr} {n : Size} {rest : List Byte}

/-- In a well-formed map, an access inside a mapped range has its target there (rules R64 and R65). -/
theorem accessTarget_of_inside (hmap : wellFormedMap s.regions s.wiring = true) {x : Labelled}
    (hx : x ∈ labelled s.regions s.wiring) {off : Nat} (haddr : addr.toNat = x.2.1 + off)
    (hin : addr.toNat + n.bytes ≤ x.2.2) : accessTarget s addr n = .next ⟨x.1, off⟩ := by
  obtain ⟨hadm, hdec⟩ := admitted_of_inside hmap hx (Size.bytes_pos n) (by omega) hin
  rw [accessTarget, if_pos hadm, hdec, haddr, Nat.add_sub_cancel_left]

/-- A pending read performs the operation at its target (rule R212). -/
theorem step_read (hs : s.phase = .running) (hne : s.input ≠ []) (h : decode s.input = .ok (.access (.read addr n), rest)) :
    step s = andThen (accessTarget s addr n) fun t => exec (readTarget addr n t) (s.withInput rest) := by
  rw [step, nextEvent_access hne h]
  simp only [resolve, hs]
  cases accessTarget s addr n <;> rfl

/-- A pending write performs the operation at its target (rule R212). -/
theorem step_write (hs : s.phase = .running) (hne : s.input ≠ []) {v : Word}
    (h : decode s.input = .ok (.access (.write addr n v), rest)) :
    step s = andThen (accessTarget s addr n) fun t => exec (writeTarget addr n v t) (s.withInput rest) := by
  rw [step, nextEvent_access hne h]
  simp only [resolve, hs]
  cases accessTarget s addr n <;> rfl

end

theorem picListed_ofNat {off : Nat} (hoff : off < 0x100) : picListed (BitVec.ofNat 8 off) = false ↔
    off ≠ 0x00 ∧ off ≠ 0x02 ∧ off ≠ 0x04 ∧ off ≠ 0x08 := by
  simp [picListed, BitVec.toNat_eq, Nat.mod_eq_of_lt hoff, and_assoc]

/-- Settles O53: the access's target is the PIC window at its offset, whose select key names the operation. -/
theorem busAccessSelectsPicRegister : Obligations.BusAccessSelectsPicRegister := by
  intro s rest addr n off hs hmap hne haddr hin
  have hpos := Size.bytes_pos n
  have htarget : accessTarget s addr n = .next ⟨.pic, off⟩ :=
    accessTarget_of_inside hmap pic_mem_labelled haddr (by simp only [Config.picWindowSize]; omega)
  have hoff : off < 0x100 := by omega
  refine ⟨fun h => ?_, fun v h => ?_⟩
  · have hstep : step s = exec (picReadAt (BitVec.ofNat 8 off) n) (s.withInput rest) := by
      rw [step_read hs hne h, htarget]
      rfl
    rw [hstep]
    refine ⟨?_, ?_, ?_, ?_, fun h0 h2 h4 h8 => ?_⟩
    case refine_5 => rw [picReadAt_unknown ((picListed_ofNat hoff).mpr ⟨h0, h2, h4, h8⟩)]
    all_goals rintro rfl; rfl
  · have hstep : step s = exec (picWriteAt (BitVec.ofNat 8 off) n v) (s.withInput rest) := by
      rw [step_write hs hne h, htarget]
      rfl
    rw [hstep]
    refine ⟨?_, ?_, ?_, ?_, fun h0 h2 h4 h8 => ?_⟩
    case refine_5 => rw [picWriteAt_unknown ((picListed_ofNat hoff).mpr ⟨h0, h2, h4, h8⟩)]
    all_goals rintro rfl; rfl

theorem lcdReadListed_ofNat {off : Nat} (hoff : off < 0x80) : lcdReadListed (BitVec.ofNat 7 off) = false ↔
    off ≠ 0x00 ∧ off ≠ 0x04 ∧ off ≠ 0x06 := by
  simp [lcdReadListed, BitVec.toNat_eq, Nat.mod_eq_of_lt hoff, and_assoc]

theorem lcdWriteListed_ofNat {off : Nat} (hoff : off < 0x80) : lcdWriteListed (BitVec.ofNat 7 off) = false ↔
    off ≠ 0x00 ∧ off ≠ 0x04 ∧ off ≠ 0x05 ∧ off ≠ 0x06 := by
  simp [lcdWriteListed, BitVec.toNat_eq, Nat.mod_eq_of_lt hoff, and_assoc]

/-- Settles O54: the access's target is the LCD window at its offset, whose select key names the operation. -/
theorem busAccessSelectsLcdRegister : Obligations.BusAccessSelectsLcdRegister := by
  intro s rest addr n off hs hmap hne haddr hin
  have hpos := Size.bytes_pos n
  have hoff : off < 0x80 := by omega
  have htarget : accessTarget s addr n = .next ⟨.lcd, off⟩ :=
    accessTarget_of_inside hmap lcd_mem_labelled haddr (by simp only [Config.lcdWindowSize]; omega)
  refine ⟨fun h => ?_, fun v h => ?_⟩
  · have hstep : step s = exec (lcdReadAt (BitVec.ofNat 7 off) n) (s.withInput rest) := by
      rw [step_read hs hne h, htarget]
      rfl
    rw [hstep]
    refine ⟨?_, ?_, ?_, fun h0 h4 h6 => ?_⟩
    case refine_4 => rw [lcdReadAt_unknown ((lcdReadListed_ofNat hoff).mpr ⟨h0, h4, h6⟩)]
    all_goals rintro rfl; rfl
  · have hstep : step s = exec (lcdWriteAt (BitVec.ofNat 7 off) n v) (s.withInput rest) := by
      rw [step_write hs hne h, htarget]
      rfl
    rw [hstep]
    refine ⟨?_, ?_, ?_, ?_, fun h0 h4 h5 h6 => ?_⟩
    case refine_5 => rw [lcdWriteAt_unknown ((lcdWriteListed_ofNat hoff).mpr ⟨h0, h4, h5, h6⟩)]
    all_goals rintro rfl; rfl

/-- An access inside a range of a region has that range as its target. -/
theorem accessTarget_region {s : State} {addr : Addr} {n : Size} (hmap : wellFormedMap s.regions s.wiring = true)
    {r : Region} (hr : r ∈ s.regions) (hin : (r.start ≤ addr.toNat ∧ addr.toNat + n.bytes ≤ r.start + r.size) ∨
      (r.start + r.size < r.stop ∧ r.stop - r.skip ≤ addr.toNat ∧ addr.toNat + n.bytes ≤ r.stop - r.skip + r.size)) :
    ∃ i off, accessTarget s addr n = .next ⟨.primary i, off⟩ ∨ accessTarget s addr n = .next ⟨.mirror i, off⟩ := by
  obtain ⟨i, hi⟩ := List.mem_iff_getElem?.mp hr
  obtain ⟨hlo, hhi⟩ | ⟨hal, hlo, hhi⟩ := hin
  · exact ⟨i, _, .inl (accessTarget_of_inside hmap (primary_mem_labelled hi) (Nat.add_sub_of_le hlo).symm hhi)⟩
  · have hmem := mirror_mem_labelled (w := s.wiring) hi (decide_eq_true hal)
    exact ⟨i, _, .inr (accessTarget_of_inside hmap hmem (Nat.add_sub_of_le hlo).symm hhi)⟩

/-- Settles O55: the target is the region's range, the stub window at its offset, or none. -/
theorem busAccessReachesMemoryOrStub : Obligations.BusAccessReachesMemoryOrStub := by
  intro s rest addr n hs hmap hne
  refine ⟨fun ⟨r, hr, hin⟩ => ?memory, fun w hw off haddr hin => ?stub, fun hout => ?none⟩
  case memory =>
    obtain ⟨i, off, htarget | htarget⟩ := accessTarget_region hmap hr hin <;>
    · refine ⟨fun h => ?_, fun v h => ?_⟩
      · rw [step_read hs hne h, htarget]
        cases n <;> rfl
      · rw [step_write hs hne h, htarget]
        cases n <;> rfl
  case stub =>
    obtain ⟨j, hj⟩ := List.mem_iff_getElem?.mp hw
    have htarget : accessTarget s addr n = .next ⟨.stub w.name j, off⟩ :=
      accessTarget_of_inside hmap (stub_mem_labelled hj) haddr (by simp only; omega)
    refine ⟨fun h => ?_, fun v h => ?_⟩
    · rw [step_read hs hne h, htarget]
      rfl
    · rw [step_write hs hne h, htarget]
      rfl
  case none =>
    have htarget : accessTarget s addr n = .fault .unmapped := by
      rw [accessTarget, not_admitted (Size.bytes_pos n) hout]
      rfl
    refine ⟨fun h => ?_, fun v h => ?_⟩
    · rw [step_read hs hne h, htarget, andThen]
    · rw [step_write hs hne h, htarget, andThen]

end Sys2Proof.Machine
end
